-- ==== Sys2Proof/Word.lean ====
section
/-! DEFINITION. The element types of the nine memory spaces (20_memory.md R60) and of a bit stream
(00_scope.md R9, R10). -/

namespace Sys2Proof

/-- One byte of `SRC`, `SNK`, `B`, `C`, `D`, `P0`, `P1` (R60); bit 7 is the most significant (R9). -/
abbrev Byte := BitVec 8

/-- A colour index, the element of `PIX` (R60). -/
abbrev Pixel := BitVec 2

/-- A palette entry and the element of `RASTER`: `R[23:16] G[15:8] B[7:0]` (R7, D28). -/
abbrev Color := BitVec 24

/-- A bit sequence in stream order, the first bit read at the head (R10). -/
abbrev Bits := List Bool

end Sys2Proof
end

