-- ==== Sys2Proof/Config.lean ====
section
/-! DEFINITION. What an implementation fixes: the constants of 00_scope.md R6, the parameters of R7 with the
values the spec takes, and the FREE VALUES, constants without a body for what the spec leaves unspecified
(10_state.md R50, 93_implementation_defined.md U1, U3, U4). -/

namespace Sys2Proof

namespace Config

/-- R6 `TILE_PX`. -/
def tilePx : Nat := 8
/-- R6 `DIM_ZERO_LENIENT`. -/
def dimZeroLenient : Nat := 32
/-- R6 `FIXED_W`. -/
def fixedW : Nat := 7
/-- R6 `FIXED_H`. -/
def fixedH : Nat := 7
/-- R6 `LZ_TERM`. -/
def lzTerm : Nat := 0xFF
/-- R6 `TILE_BYTES`. -/
def tileBytes : Nat := 16
/-- R6 `PREFIX_LEN`. -/
def pfxLen : Nat := 14
/-- R7 `FIELD_MAX` (D6). -/
def fieldMax : Nat := 16
/-- R7 `PLANE_CAP` (D10): derived by the spec from the largest header; no rule tests it. -/
def planeCap : Nat := 8192
/-- R7 `WHITE` (D28). -/
def white : Color := 0xFFFFFF#24
/-- R7 `BLACK` (D28). -/
def black : Color := 0x000000#24

/-- R7 `DELTA_SPAN`: the delta-decode state restarts at every byte, or only at the start of a full pixel
row (D15, 90_conflicts.md C2). -/
inductive DeltaSpan where
  | byte
  | row
  deriving DecidableEq, Repr

/-- The parameters the spec leaves to the implementation (R7). R20 calls them parameters of the step relation;
`State.params` carries them so that every statement holds for every value of them (log entry 6).
A capacity of `none` is the model default `unbounded` (D10). -/
structure Params where
  /-- `SRC_CAP` (D10). -/
  srcCap : Option Nat
  /-- `SNK_CAP` (D10). -/
  snkCap : Option Nat
  /-- `D_CAP` (D10). -/
  dCap : Option Nat
  /-- `DELTA_SPAN` (D15). -/
  deltaSpan : DeltaSpan
  /-- `SHAPE_TABLE` (D25): rows `(tiles, width, height)`. -/
  shapeTable : List (Nat × Nat × Nat)
  deriving DecidableEq, Repr

/-- The values the spec takes: capacities unbounded, `DELTA_SPAN = BYTE`, `SHAPE_TABLE` empty (R7). -/
def Params.default : Params :=
  { srcCap := none, snkCap := none, dCap := none, deltaSpan := .byte, shapeTable := [] }

/-- R212: a `SHAPE_TABLE` entry `(w, h)` for `tiles` must satisfy `w * h = tiles`. -/
def Params.wf (p : Params) : Bool :=
  p.shapeTable.all (fun row => row.2.1 * row.2.2 == row.1)

/-- The registers and buffers that become unspecified after a fault or a refusal (R50, U1), naming which free
value is meant. -/
inductive Slot where
  | rdByte | rdBit | wrAcc | wrCnt | snk
  | g1Tw | g1Th | g1Primary | g1Mode | g1State | g1Emit | g1Total | g1Cur | ds | bufB | bufC
  | g2Ip | bufD | g2Cmd | g2Len | g2Start | g2Long | g2Pfx | g2Pw | g2Ph | g2Tw | g2Th
  | dlW | dlH | phW | phH | colOff | rowOff | p0 | p1 | pix | raster
  | pal0 | pal1 | pal2 | pal3 | res
  deriving DecidableEq, Repr

/-- FREE VALUE of a natural-number register, drawn for the `k`-th time (R50, U1). No body: nothing can be proved of it. -/
opaque freeNat (r : Slot) (k : Nat) : Nat

/-- FREE VALUE of `G2_START`, the one signed register (R38, R50). -/
opaque freeInt (r : Slot) (k : Nat) : Int

/-- FREE VALUE of a register of `w` bits (R50, U1; for `PAL` also R47, U3). -/
opaque freeBits (w : Nat) (r : Slot) (k : Nat) : BitVec w

/-- FREE VALUE of a whole memory space with elements of `w` bits, its length free too (R50, U1). -/
opaque freeSpace (w : Nat) (r : Slot) (k : Nat) : List (BitVec w)

/-- FREE VALUE of the byte of `SRC` at index `a` that the host never wrote since the reset that made draw `k`
(R47, U4: unspecified). -/
opaque unwrittenSrc (k : Nat) (a : Nat) : Byte

end Config

end Sys2Proof
end

