-- ==== Sys2Proof/Syntax.lean ====
section
/-! DEFINITION. The instruction set: one constructor for each of the 63 rows of spec/opcode_table.json
(30_encoding.md R90 to R118), the places of a stream at which a row can stand, and the names by which the
decoder rejects. An LZ3 row holds its header fields; its literal, fill and address bytes are operands that its
meaning fetches (R104; log entry 14). -/

namespace Sys2Proof

/-- The instruction set (R2): Gen1 stream elements, LZ3 commands and address operands, the Gen2 size and palette
block, and the host commands. -/
inductive Instr where
  /-- `G1.HDR`: `WWWWHHHHP`: tile width, tile height, primary buffer (R92, R151). -/
  | g1Hdr (w : BitVec 4) (h : BitVec 4) (p : BitVec 1)
  /-- `G1.INIT_RLE`: `0`: the sub-stream starts in state RLE (R95, R156). -/
  | g1InitRle
  /-- `G1.INIT_DATA`: `1`: the sub-stream starts in state DATA (R95, R156). -/
  | g1InitData
  /-- `G1.RUN`: run with a prefix of 0 one-bits and a suffix of 1 bits: `R = 1 + V` (R96, R158). -/
  | g1Run0 (v : BitVec 1)
  /-- `G1.RUN`: run with a prefix of 1 one-bits and a suffix of 2 bits: `R = 3 + V` (R96, R158). -/
  | g1Run1 (v : BitVec 2)
  /-- `G1.RUN`: run with a prefix of 2 one-bits and a suffix of 3 bits: `R = 7 + V` (R96, R158). -/
  | g1Run2 (v : BitVec 3)
  /-- `G1.RUN`: run with a prefix of 3 one-bits and a suffix of 4 bits: `R = 15 + V` (R96, R158). -/
  | g1Run3 (v : BitVec 4)
  /-- `G1.RUN`: run with a prefix of 4 one-bits and a suffix of 5 bits: `R = 31 + V` (R96, R158). -/
  | g1Run4 (v : BitVec 5)
  /-- `G1.RUN`: run with a prefix of 5 one-bits and a suffix of 6 bits: `R = 63 + V` (R96, R158). -/
  | g1Run5 (v : BitVec 6)
  /-- `G1.RUN`: run with a prefix of 6 one-bits and a suffix of 7 bits: `R = 127 + V` (R96, R158). -/
  | g1Run6 (v : BitVec 7)
  /-- `G1.RUN`: run with a prefix of 7 one-bits and a suffix of 8 bits: `R = 255 + V` (R96, R158). -/
  | g1Run7 (v : BitVec 8)
  /-- `G1.RUN`: run with a prefix of 8 one-bits and a suffix of 9 bits: `R = 511 + V` (R96, R158). -/
  | g1Run8 (v : BitVec 9)
  /-- `G1.RUN`: run with a prefix of 9 one-bits and a suffix of 10 bits: `R = 1023 + V` (R96, R158). -/
  | g1Run9 (v : BitVec 10)
  /-- `G1.RUN`: run with a prefix of 10 one-bits and a suffix of 11 bits: `R = 2047 + V` (R96, R158). -/
  | g1Run10 (v : BitVec 11)
  /-- `G1.RUN`: run with a prefix of 11 one-bits and a suffix of 12 bits: `R = 4095 + V` (R96, R158). -/
  | g1Run11 (v : BitVec 12)
  /-- `G1.RUN`: run with a prefix of 12 one-bits and a suffix of 13 bits: `R = 8191 + V` (R96, R158). -/
  | g1Run12 (v : BitVec 13)
  /-- `G1.RUN`: run with a prefix of 13 one-bits and a suffix of 14 bits: `R = 16383 + V` (R96, R158). -/
  | g1Run13 (v : BitVec 14)
  /-- `G1.RUN`: run with a prefix of 14 one-bits and a suffix of 15 bits: `R = 32767 + V` (R96, R158). -/
  | g1Run14 (v : BitVec 15)
  /-- `G1.RUN`: run with a prefix of 15 one-bits and a suffix of 16 bits: `R = 65535 + V` (R96, R158). -/
  | g1Run15 (v : BitVec 16)
  /-- `G1.RUN`: the generic run row, for the prefixes of `k >= 16` one-bits that have no row of their own: `R = 2^(k+1) - 1 + v` (R96, R158). -/
  | g1RunN (k : Nat) (v : Nat)
  /-- `G1.PAIR_1`: one pixel pair of value 1 (R97, R161). -/
  | g1Pair1
  /-- `G1.PAIR_2`: one pixel pair of value 2 (R97, R161). -/
  | g1Pair2
  /-- `G1.PAIR_3`: one pixel pair of value 3 (R97, R161). -/
  | g1Pair3
  /-- `G1.SWITCH`: `00` in state DATA: back to state RLE, nothing emitted (R97, R163). -/
  | g1Switch
  /-- `G1.MODE_0`: mode 0 (R98, R164). -/
  | g1Mode0
  /-- `G1.MODE_2`: mode 2 (R98, R164). -/
  | g1Mode2
  /-- `G1.MODE_3`: mode 3 (R98, R164). -/
  | g1Mode3
  /-- `LZ.COPY`: command 0, short header, length `l + 1` (R102, R195). -/
  | lzCopy (l : BitVec 5)
  /-- `LZ.FILL`: command 1, short header, length `l + 1` (R102, R196). -/
  | lzFill (l : BitVec 5)
  /-- `LZ.WFILL`: command 2, short header, length `l + 1` (R102, R197). -/
  | lzWFill (l : BitVec 5)
  /-- `LZ.ZERO`: command 3, short header, length `l + 1` (R102, R198). -/
  | lzZero (l : BitVec 5)
  /-- `LZ.REP`: command 4, short header, length `l + 1` (R102, R206). -/
  | lzRep (l : BitVec 5)
  /-- `LZ.BREV`: command 5, short header, length `l + 1` (R102, R207). -/
  | lzBRev (l : BitVec 5)
  /-- `LZ.BACK`: command 6, short header, length `l + 1` (R102, R208). -/
  | lzBack (l : BitVec 5)
  /-- `LZ.COPY.L`: command 0, long header, length `l + 1` (R103, R199, R195). -/
  | lzCopyL (l : BitVec 10)
  /-- `LZ.FILL.L`: command 1, long header, length `l + 1` (R103, R199, R196). -/
  | lzFillL (l : BitVec 10)
  /-- `LZ.WFILL.L`: command 2, long header, length `l + 1` (R103, R199, R197). -/
  | lzWFillL (l : BitVec 10)
  /-- `LZ.ZERO.L`: command 3, long header, length `l + 1` (R103, R199, R198). -/
  | lzZeroL (l : BitVec 10)
  /-- `LZ.REP.L`: command 4, long header, length `l + 1` (R103, R199, R206). -/
  | lzRepL (l : BitVec 10)
  /-- `LZ.BREV.L`: command 5, long header, length `l + 1` (R103, R199, R207). -/
  | lzBRevL (l : BitVec 10)
  /-- `LZ.BACK.L`: command 6, long header, length `l + 1` (R103, R199, R208). -/
  | lzBackL (l : BitVec 10)
  /-- `LZ.ILL`: first byte `0xFC` or `0xFD`: nested long header (R111, R199). -/
  | lzIll (l : BitVec 9)
  /-- `LZ.ILL`: first byte `0xFE`: nested long header (R111, R199). -/
  | lzIllFe (l : BitVec 8)
  /-- `LZ.END`: the terminator `0xFF` in header position (R107, R210). -/
  | lzEnd
  /-- `LZ.ADDR.REL`: recent-relative address operand (R105, R203). -/
  | lzAddrRel (y : BitVec 7)
  /-- `LZ.ADDR.ABS`: absolute address operand, high part first (R105, R203). -/
  | lzAddrAbs (y : BitVec 7) (a : BitVec 8)
  /-- `G2.PREFIX`: the 14-byte prefix: marker, size byte, four palette entries R, G, B (R101, R190, R191). -/
  | g2Prefix (w : BitVec 4) (h : BitVec 4) (c0 : Color) (c1 : Color) (c2 : Color) (c3 : Color)
  /-- `RESET`: host command, code `0x1` (R113, R255). -/
  | reset
  /-- `BC.OPEN`: host command, code `0x2` (R113, R259). -/
  | bcOpen
  /-- `BC.READ`: host command, code `0x3` (R113, R260). -/
  | bcRead
  /-- `BC.WRITE`: host command, code `0x4` (R113, R261). -/
  | bcWrite
  /-- `BC.FLUSH`: host command, code `0x5` (R113, R262). -/
  | bcFlush
  /-- `G1.DECODE`: host command, code `0x8` (R113, R257). -/
  | g1Decode
  /-- `G2.DECODE`: host command, code `0x9` (R113, R258). -/
  | g2Decode
  /-- `CMD.RESERVED`: the reserved host code `0x0` (R111, R113, R253). -/
  | cmdReserved0
  /-- `CMD.RESERVED`: the reserved host code `0x6` (R111, R113, R253). -/
  | cmdReserved6
  /-- `CMD.RESERVED`: the reserved host code `0x7` (R111, R113, R253). -/
  | cmdReserved7
  /-- `CMD.RESERVED`: the reserved host code `0xA` (R111, R113, R253). -/
  | cmdReservedA
  /-- `CMD.RESERVED`: the reserved host code `0xB` (R111, R113, R253). -/
  | cmdReservedB
  /-- `CMD.RESERVED`: the reserved host code `0xC` (R111, R113, R253). -/
  | cmdReservedC
  /-- `CMD.RESERVED`: the reserved host code `0xD` (R111, R113, R253). -/
  | cmdReservedD
  /-- `CMD.RESERVED`: the reserved host code `0xE` (R111, R113, R253). -/
  | cmdReservedE
  /-- `CMD.RESERVED`: the reserved host code `0xF` (R111, R113, R253). -/
  | cmdReservedF
  deriving DecidableEq, Repr

/-- Where a decoder stands, which selects the encodings that can be read there (R108, R114: "Gen1 map by state",
the LZ3 first-byte map, the address operand, the host map). -/
inductive Ctx where
  /-- Gen1: the 9 header bits (R92). -/
  | header
  /-- Gen1: the leading bit of a sub-stream (R95). -/
  | init
  /-- Gen1: state RLE, only a run is read (R94). -/
  | rle
  /-- Gen1: state DATA, only a pair or the switch is read (R94). -/
  | data
  /-- Gen1: the mode field (R98). -/
  | mode
  /-- Gen2: source index 0, where the 14-byte block may stand (R190). -/
  | pfx
  /-- Gen2: header position (R102, R103, R107). -/
  | lz
  /-- Gen2: address operand position of commands 4, 5, 6 (R105). -/
  | addr
  /-- The host's `CMD` register (R113). -/
  | command
  deriving DecidableEq, Repr

/-- Why the decoder reads no instruction. -/
inductive DecodeError where
  /-- The bits end inside the element (R131, R192; R190 for the 14-byte block). -/
  | truncated
  /-- The source does not begin with `0xFF`, so there is no 14-byte block (R190). -/
  | notPrefix
  deriving DecidableEq, Repr

end Sys2Proof
end

