-- ==== Sys2Proof/WellFormed.lean ====
section
/-! DEFINITION. Which terms of `Instr` are instructions. A field's width is in its type, so only the generic run
row, whose width varies, has checks. -/

namespace Sys2Proof

/-- The generic run row stands for the prefixes without a row of their own, and its suffix has `k + 1` bits
(R96, R118). -/
def runOk (k v : Nat) : Bool := decide (16 ≤ k) && decide (v < 2 ^ (k + 1))

/-- Well-formed instructions: those that the encoder can write so that the decoder reads them back. -/
def Instr.wf (i : Instr) : Bool :=
  match i with
  | .g1Hdr _ _ _ => true
  | .g1InitRle => true
  | .g1InitData => true
  | .g1Run0 _ => true
  | .g1Run1 _ => true
  | .g1Run2 _ => true
  | .g1Run3 _ => true
  | .g1Run4 _ => true
  | .g1Run5 _ => true
  | .g1Run6 _ => true
  | .g1Run7 _ => true
  | .g1Run8 _ => true
  | .g1Run9 _ => true
  | .g1Run10 _ => true
  | .g1Run11 _ => true
  | .g1Run12 _ => true
  | .g1Run13 _ => true
  | .g1Run14 _ => true
  | .g1Run15 _ => true
  | .g1RunN k v => runOk k v
  | .g1Pair1 => true
  | .g1Pair2 => true
  | .g1Pair3 => true
  | .g1Switch => true
  | .g1Mode0 => true
  | .g1Mode2 => true
  | .g1Mode3 => true
  | .lzCopy _ => true
  | .lzFill _ => true
  | .lzWFill _ => true
  | .lzZero _ => true
  | .lzRep _ => true
  | .lzBRev _ => true
  | .lzBack _ => true
  | .lzCopyL _ => true
  | .lzFillL _ => true
  | .lzWFillL _ => true
  | .lzZeroL _ => true
  | .lzRepL _ => true
  | .lzBRevL _ => true
  | .lzBackL _ => true
  | .lzIll _ => true
  | .lzIllFe _ => true
  | .lzEnd => true
  | .lzAddrRel _ => true
  | .lzAddrAbs _ _ => true
  | .g2Prefix _ _ _ _ _ _ => true
  | .reset => true
  | .bcOpen => true
  | .bcRead => true
  | .bcWrite => true
  | .bcFlush => true
  | .g1Decode => true
  | .g2Decode => true
  | .cmdReserved0 => true
  | .cmdReserved6 => true
  | .cmdReserved7 => true
  | .cmdReservedA => true
  | .cmdReservedB => true
  | .cmdReservedC => true
  | .cmdReservedD => true
  | .cmdReservedE => true
  | .cmdReservedF => true

end Sys2Proof
end

