-- ==== Sys2Proof/Decode.lean ====
section
/-! DEFINITION. The decoder, total on any bits, and the encoder, both from 30_encoding.md R91 to R114. Both work
on bit sequences in stream order (R91: bit 7 of a byte first); an LZ3 byte is eight such bits. The Gen1 codes that the
spec supplies from general knowledge (R95, R96) stand here only. -/

namespace Sys2Proof

/-! ## Fields (R91) -/

/-- The value of a field: its first bit is its most significant (R91). -/
def bitsToNat (bs : Bits) : Nat := bs.foldl (fun v b => 2 * v + b.toNat) 0

/-- The `n` bits of a field, most significant first; bits of `v` above the width are dropped (R91, D7). -/
def natToBits : Nat → Nat → Bits
  | 0, _ => []
  | n + 1, v => v.testBit n :: natToBits n v

/-- The next `n` bits and what follows them. -/
def takeBits : Nat → Bits → Option (Bits × Bits)
  | 0, bs => some ([], bs)
  | _ + 1, [] => none
  | n + 1, b :: bs => (takeBits n bs).map (fun p => (b :: p.1, p.2))

/-- The next `n`-bit field and what follows it. -/
def takeNum (n : Nat) (bs : Bits) : Option (Nat × Bits) :=
  (takeBits n bs).map (fun p => (bitsToNat p.1, p.2))

/-- The unary continuation bits of a run: the count of ones up to the first zero, which is consumed too (R96). -/
def takeOnes : Bits → Option (Nat × Bits)
  | [] => none
  | false :: bs => some (0, bs)
  | true :: bs => (takeOnes bs).map (fun p => (p.1 + 1, p.2))

/-! ## Decoding -/

/-- What decoding gives: the instruction and the bits after it, or why there is none. -/
abbrev Decoded := Except DecodeError (Instr × Bits)

/-- `G1.HDR` (R92): 4 + 4 + 1 bits. -/
def decodeHeader (bs : Bits) : Decoded :=
  match takeNum 4 bs with
  | none => .error .truncated
  | some (w, bs) =>
    match takeNum 4 bs with
    | none => .error .truncated
    | some (h, bs) =>
      match takeNum 1 bs with
      | none => .error .truncated
      | some (p, bs) => .ok (.g1Hdr (.ofNat 4 w) (.ofNat 4 h) (.ofNat 1 p), bs)

/-- `INIT` (R95): 0 is RLE, 1 is DATA. -/
def decodeInit (bs : Bits) : Decoded :=
  match bs with
  | [] => .error .truncated
  | false :: bs => .ok (.g1InitRle, bs)
  | true :: bs => .ok (.g1InitData, bs)

/-- The run row of a prefix of `k` ones with the suffix value `v` (R96, R118). -/
def mkRun (k v : Nat) : Instr :=
  match k with
  | 0 => .g1Run0 (.ofNat 1 v)
  | 1 => .g1Run1 (.ofNat 2 v)
  | 2 => .g1Run2 (.ofNat 3 v)
  | 3 => .g1Run3 (.ofNat 4 v)
  | 4 => .g1Run4 (.ofNat 5 v)
  | 5 => .g1Run5 (.ofNat 6 v)
  | 6 => .g1Run6 (.ofNat 7 v)
  | 7 => .g1Run7 (.ofNat 8 v)
  | 8 => .g1Run8 (.ofNat 9 v)
  | 9 => .g1Run9 (.ofNat 10 v)
  | 10 => .g1Run10 (.ofNat 11 v)
  | 11 => .g1Run11 (.ofNat 12 v)
  | 12 => .g1Run12 (.ofNat 13 v)
  | 13 => .g1Run13 (.ofNat 14 v)
  | 14 => .g1Run14 (.ofNat 15 v)
  | 15 => .g1Run15 (.ofNat 16 v)
  | k => .g1RunN k v

/-- `RUN` (R96): `k` ones, a zero, then a suffix of `k + 1` bits. -/
def decodeRun (bs : Bits) : Decoded :=
  match takeOnes bs with
  | none => .error .truncated
  | some (k, bs) =>
    match takeNum (k + 1) bs with
    | none => .error .truncated
    | some (v, bs) => .ok (mkRun k v, bs)

/-- `PAIR` and `SWITCH` (R97). -/
def decodeData (bs : Bits) : Decoded :=
  match bs with
  | false :: false :: bs => .ok (.g1Switch, bs)
  | false :: true :: bs => .ok (.g1Pair1, bs)
  | true :: false :: bs => .ok (.g1Pair2, bs)
  | true :: true :: bs => .ok (.g1Pair3, bs)
  | _ => .error .truncated

/-- `mode` (R98): one bit, and a second one when the first is 1. -/
def decodeMode (bs : Bits) : Decoded :=
  match bs with
  | false :: bs => .ok (.g1Mode0, bs)
  | true :: false :: bs => .ok (.g1Mode2, bs)
  | true :: true :: bs => .ok (.g1Mode3, bs)
  | _ => .error .truncated

/-- The 14-byte block (R101): present exactly when the first byte is `0xFF` (R190). -/
def decodePfx (bs : Bits) : Decoded :=
  match takeNum 8 bs with
  | none => .error .notPrefix
  | some (m, bs) =>
    if m ≠ Config.lzTerm then .error .notPrefix
    else
      match takeNum 8 bs with
      | none => .error .truncated
      | some (size, bs) =>
        match takeNum 24 bs with
        | none => .error .truncated
        | some (c0, bs) =>
          match takeNum 24 bs with
          | none => .error .truncated
          | some (c1, bs) =>
            match takeNum 24 bs with
            | none => .error .truncated
            | some (c2, bs) =>
              match takeNum 24 bs with
              | none => .error .truncated
              | some (c3, bs) =>
                .ok (.g2Prefix (.ofNat 4 (size / 16)) (.ofNat 4 size) (.ofNat 24 c0) (.ofNat 24 c1) (.ofNat 24 c2) (.ofNat 24 c3), bs)

/-- The short-header rows by their 3 command bits (R102, R114). -/
def mkShort (cmd l : Nat) : Instr :=
  match cmd with
  | 0 => .lzCopy (.ofNat 5 l)
  | 1 => .lzFill (.ofNat 5 l)
  | 2 => .lzWFill (.ofNat 5 l)
  | 3 => .lzZero (.ofNat 5 l)
  | 4 => .lzRep (.ofNat 5 l)
  | 5 => .lzBRev (.ofNat 5 l)
  | _ => .lzBack (.ofNat 5 l)

/-- The long-header rows by first byte and second byte: `sub_cmd = h[4:2]`, `L = h[1:0]` followed by the second
byte (R103, R114). -/
def mkLong (h n : Nat) : Instr :=
  match h / 4 % 8 with
  | 0 => .lzCopyL (.ofNat 10 (h % 4 * 256 + n))
  | 1 => .lzFillL (.ofNat 10 (h % 4 * 256 + n))
  | 2 => .lzWFillL (.ofNat 10 (h % 4 * 256 + n))
  | 3 => .lzZeroL (.ofNat 10 (h % 4 * 256 + n))
  | 4 => .lzRepL (.ofNat 10 (h % 4 * 256 + n))
  | 5 => .lzBRevL (.ofNat 10 (h % 4 * 256 + n))
  | 6 => .lzBackL (.ofNat 10 (h % 4 * 256 + n))
  | _ => if h % 4 < 2 then .lzIll (.ofNat 9 (h % 4 * 256 + n)) else .lzIllFe (.ofNat 8 n)

/-- Header position (R108, R194): the terminator test comes before the command split; command 7 reads a second byte. -/
def decodeLz (bs : Bits) : Decoded :=
  match takeNum 8 bs with
  | none => .error .truncated
  | some (h, bs) =>
    if h = Config.lzTerm then .ok (.lzEnd, bs)
    else if h / 32 = 7 then
      match takeNum 8 bs with
      | none => .error .truncated
      | some (n, bs) => .ok (mkLong h n, bs)
    else .ok (mkShort (h / 32) (h % 32), bs)

/-- An address operand (R105): one byte when bit 7 is set, else two. -/
def decodeAddr (bs : Bits) : Decoded :=
  match takeNum 8 bs with
  | none => .error .truncated
  | some (ay, bs) =>
    if ay / 128 = 1 then .ok (.lzAddrRel (.ofNat 7 ay), bs)
    else
      match takeNum 8 bs with
      | none => .error .truncated
      | some (lo, bs) => .ok (.lzAddrAbs (.ofNat 7 ay) (.ofNat 8 lo), bs)

/-- The host command of a 4-bit code; total, the nine codes without a command are the reserved rows (R113). -/
def decodeCommand (c : BitVec 4) : Instr :=
  match c.toNat with
  | 0 => .cmdReserved0
  | 1 => .reset
  | 2 => .bcOpen
  | 3 => .bcRead
  | 4 => .bcWrite
  | 5 => .bcFlush
  | 6 => .cmdReserved6
  | 7 => .cmdReserved7
  | 8 => .g1Decode
  | 9 => .g2Decode
  | 10 => .cmdReservedA
  | 11 => .cmdReservedB
  | 12 => .cmdReservedC
  | 13 => .cmdReservedD
  | 14 => .cmdReservedE
  | _ => .cmdReservedF

/-- The decoder: the instruction at the head of the bits, read as the place `c` of a stream reads them (R108). -/
def decode (c : Ctx) (bs : Bits) : Decoded :=
  match c with
  | .header => decodeHeader bs
  | .init => decodeInit bs
  | .rle => decodeRun bs
  | .data => decodeData bs
  | .mode => decodeMode bs
  | .pfx => decodePfx bs
  | .lz => decodeLz bs
  | .addr => decodeAddr bs
  | .command =>
    match takeNum 4 bs with
    | none => .error .truncated
    | some (c, bs) => .ok (decodeCommand (.ofNat 4 c), bs)

/-! ## Encoding -/

/-- A run of `k` prefix ones with suffix `v` (R96). -/
def encodeRun (k v : Nat) : Bits := List.replicate k true ++ false :: natToBits (k + 1) v

/-- A short header (R102). -/
def encodeShort (cmd l : Nat) : Bits := natToBits 3 cmd ++ natToBits 5 l

/-- A long header (R103): `111C CCLL LLLL LLLL`. -/
def encodeLong (sub l : Nat) : Bits := natToBits 3 7 ++ natToBits 3 sub ++ natToBits 10 l

/-- The encoder: the bits of an instruction in stream order. -/
def encode (i : Instr) : Bits :=
  match i with
  | .g1Hdr w h p => natToBits 4 w.toNat ++ natToBits 4 h.toNat ++ natToBits 1 p.toNat
  | .g1InitRle => [false]
  | .g1InitData => [true]
  | .g1Run0 v => encodeRun 0 v.toNat
  | .g1Run1 v => encodeRun 1 v.toNat
  | .g1Run2 v => encodeRun 2 v.toNat
  | .g1Run3 v => encodeRun 3 v.toNat
  | .g1Run4 v => encodeRun 4 v.toNat
  | .g1Run5 v => encodeRun 5 v.toNat
  | .g1Run6 v => encodeRun 6 v.toNat
  | .g1Run7 v => encodeRun 7 v.toNat
  | .g1Run8 v => encodeRun 8 v.toNat
  | .g1Run9 v => encodeRun 9 v.toNat
  | .g1Run10 v => encodeRun 10 v.toNat
  | .g1Run11 v => encodeRun 11 v.toNat
  | .g1Run12 v => encodeRun 12 v.toNat
  | .g1Run13 v => encodeRun 13 v.toNat
  | .g1Run14 v => encodeRun 14 v.toNat
  | .g1Run15 v => encodeRun 15 v.toNat
  | .g1RunN k v => encodeRun k v
  | .g1Pair1 => natToBits 2 1
  | .g1Pair2 => natToBits 2 2
  | .g1Pair3 => natToBits 2 3
  | .g1Switch => natToBits 2 0
  | .g1Mode0 => [false]
  | .g1Mode2 => [true, false]
  | .g1Mode3 => [true, true]
  | .lzCopy l => encodeShort 0 l.toNat
  | .lzFill l => encodeShort 1 l.toNat
  | .lzWFill l => encodeShort 2 l.toNat
  | .lzZero l => encodeShort 3 l.toNat
  | .lzRep l => encodeShort 4 l.toNat
  | .lzBRev l => encodeShort 5 l.toNat
  | .lzBack l => encodeShort 6 l.toNat
  | .lzCopyL l => encodeLong 0 l.toNat
  | .lzFillL l => encodeLong 1 l.toNat
  | .lzWFillL l => encodeLong 2 l.toNat
  | .lzZeroL l => encodeLong 3 l.toNat
  | .lzRepL l => encodeLong 4 l.toNat
  | .lzBRevL l => encodeLong 5 l.toNat
  | .lzBackL l => encodeLong 6 l.toNat
  | .lzIll l => natToBits 7 126 ++ natToBits 9 l.toNat
  | .lzIllFe l => natToBits 8 254 ++ natToBits 8 l.toNat
  | .lzEnd => natToBits 8 Config.lzTerm
  | .lzAddrRel y => natToBits 1 1 ++ natToBits 7 y.toNat
  | .lzAddrAbs y a => natToBits 1 0 ++ natToBits 7 y.toNat ++ natToBits 8 a.toNat
  | .g2Prefix w h c0 c1 c2 c3 => natToBits 8 Config.lzTerm ++ natToBits 4 w.toNat ++ natToBits 4 h.toNat ++ natToBits 24 c0.toNat ++ natToBits 24 c1.toNat ++ natToBits 24 c2.toNat ++ natToBits 24 c3.toNat
  | .reset => natToBits 4 1
  | .bcOpen => natToBits 4 2
  | .bcRead => natToBits 4 3
  | .bcWrite => natToBits 4 4
  | .bcFlush => natToBits 4 5
  | .g1Decode => natToBits 4 8
  | .g2Decode => natToBits 4 9
  | .cmdReserved0 => natToBits 4 0
  | .cmdReserved6 => natToBits 4 6
  | .cmdReserved7 => natToBits 4 7
  | .cmdReservedA => natToBits 4 10
  | .cmdReservedB => natToBits 4 11
  | .cmdReservedC => natToBits 4 12
  | .cmdReservedD => natToBits 4 13
  | .cmdReservedE => natToBits 4 14
  | .cmdReservedF => natToBits 4 15

/-- The place of a stream at which an instruction stands. -/
def Instr.ctx (i : Instr) : Ctx :=
  match i with
  | .g1Hdr _ _ _ => .header
  | .g1InitRle => .init
  | .g1InitData => .init
  | .g1Run0 _ => .rle
  | .g1Run1 _ => .rle
  | .g1Run2 _ => .rle
  | .g1Run3 _ => .rle
  | .g1Run4 _ => .rle
  | .g1Run5 _ => .rle
  | .g1Run6 _ => .rle
  | .g1Run7 _ => .rle
  | .g1Run8 _ => .rle
  | .g1Run9 _ => .rle
  | .g1Run10 _ => .rle
  | .g1Run11 _ => .rle
  | .g1Run12 _ => .rle
  | .g1Run13 _ => .rle
  | .g1Run14 _ => .rle
  | .g1Run15 _ => .rle
  | .g1RunN _ _ => .rle
  | .g1Pair1 => .data
  | .g1Pair2 => .data
  | .g1Pair3 => .data
  | .g1Switch => .data
  | .g1Mode0 => .mode
  | .g1Mode2 => .mode
  | .g1Mode3 => .mode
  | .lzCopy _ => .lz
  | .lzFill _ => .lz
  | .lzWFill _ => .lz
  | .lzZero _ => .lz
  | .lzRep _ => .lz
  | .lzBRev _ => .lz
  | .lzBack _ => .lz
  | .lzCopyL _ => .lz
  | .lzFillL _ => .lz
  | .lzWFillL _ => .lz
  | .lzZeroL _ => .lz
  | .lzRepL _ => .lz
  | .lzBRevL _ => .lz
  | .lzBackL _ => .lz
  | .lzIll _ => .lz
  | .lzIllFe _ => .lz
  | .lzEnd => .lz
  | .lzAddrRel _ => .addr
  | .lzAddrAbs _ _ => .addr
  | .g2Prefix _ _ _ _ _ _ => .pfx
  | .reset => .command
  | .bcOpen => .command
  | .bcRead => .command
  | .bcWrite => .command
  | .bcFlush => .command
  | .g1Decode => .command
  | .g2Decode => .command
  | .cmdReserved0 => .command
  | .cmdReserved6 => .command
  | .cmdReserved7 => .command
  | .cmdReservedA => .command
  | .cmdReservedB => .command
  | .cmdReservedC => .command
  | .cmdReservedD => .command
  | .cmdReservedE => .command
  | .cmdReservedF => .command

/-! ## Words of spec/opcode_table.json

A table word does not say at which place of a stream it stands: `0x01` is `RESET` in `CMD`, `LZ.COPY` in header
position and a string of Gen1 bits. `tableCtx` fixes one reading for each word (log entry 11). -/

/-- The place at which a table word of `nbits` bits is read. A word of 1, 2, 4 or 9 bits, or of a run's exact width, is
the row of that width. Of the words of whole bytes, the row with the most fixed bits wins. -/
def tableCtx (nbits w : Nat) : Ctx :=
  if nbits = 1 then .init
  else if nbits = 2 then .data
  else if nbits = 4 then .command
  else if nbits = 9 then .header
  else if nbits < 8 then .rle
  else if nbits = 8 then (if 1 ≤ w ∧ w < 16 then .command else .lz)
  else if nbits = 16 then
    (if w / 256 = 254 then .rle
     else if w % 256 = 255 then .pfx
     else if w % 256 < 128 then .addr
     else .lz)
  else if nbits = 112 then .pfx
  else .rle

/-- How many bytes the image of a table word holds: enough for the longest instruction with a length the table fixes,
`LZ.COPY.L` with 1024 literal bytes. -/
def imageBytes : Nat := 1028

/-- The `n` bytes of `w`, the least significant first: a later byte's bits count on from the first byte's. -/
def bytesUp : Nat → Nat → List Byte
  | 0, _ => []
  | n + 1, w => .ofNat 8 w :: bytesUp n (w / 256)

/-- The bytes of a table word as the source holds them, and zeros after them. The bits of a Gen1 row are numbered from its
last bit (R118), so its first stream bit is the highest; a row of bytes is numbered from its first byte. -/
def tableImage (nbits w : Nat) : List Byte :=
  match tableCtx nbits w with
  | .header | .init | .rle | .data | .mode =>
    let n := (nbits + 7) / 8
    (bytesUp n (w * 2 ^ (8 * n - nbits))).reverse ++ List.replicate (imageBytes - n) 0#8
  | _ =>
    let n := (nbits + 7) / 8
    bytesUp n w ++ List.replicate (imageBytes - n) 0#8

/-- The eight bits of each byte, bit 7 first (R69). -/
def bytesToBits (bs : List Byte) : Bits := bs.flatMap (fun b => natToBits 8 b.toNat)

/-- The instruction the decoder reads from a table word. -/
def decodeTableWord (nbits w : Nat) : Option Instr :=
  match tableCtx nbits w with
  | .command => some (decodeCommand (.ofNat 4 w))
  | c =>
    match decode c (bytesToBits (tableImage nbits w)) with
    | .ok (i, _) => some i
    | .error _ => none

end Sys2Proof
end

