-- ==== Sys2Proof/Machine/State.lean ====
section
/-! DEFINITION. The state of the block (10_state.md R20 to R50, 20_memory.md R60) as plain data, its reset value
(R47), and the reasons an operation ends other than in success (60_exceptions.md R271, R280). -/

namespace Sys2Proof.Machine

/-- The four error kinds (R271). -/
inductive ErrKind where
  | malformedHeader
  | overrun
  | outOfRangeReference
  | truncatedInput
  deriving DecidableEq, Repr

/-- The six refusal reasons (R280). -/
inductive RefReason where
  | badCmd
  | badWidth
  | badOverride
  | declaredExceedsPhysical
  | afterFault
  | capacity
  deriving DecidableEq, Repr

/-- How an operation stops before its end: `raise <Kind>` or `refuse(<reason>)` (R11, R270). Both are outcomes of the
block, shown in `ST`; neither stops the model. -/
inductive Stop where
  | raise (k : ErrKind)
  | refuse (r : RefReason)
  deriving DecidableEq, Repr

/-- Why the MODEL stops. The spec gives every fault and every refusal of the block its effect on `ST`, so
they are next states (R271, R280). -/
inductive Fault where
  /-- Raised by the body of `G1.DECODE` or `G2.DECODE` if its element loop ran past the bound that the spec gives it
  (R157, R194, R251). SAFE: the model would stop where the block goes on; no run can reach it. -/
  | sequencerBound
  deriving DecidableEq, Repr

/-- Requests the MODEL has no meaning for. -/
inductive Refusal where
  /-- Raised by an arm of `exec` whose instruction has no meaning yet; no arm does. SAFE. -/
  | notModelled (mnemonic : String)
  deriving DecidableEq, Repr

/-- A byte memory that the host may write at any index: pairs of index and byte, indices strictly rising (`Memory.wf`).
An index with no pair holds no byte the host wrote. -/
abbrev Memory := List Host.Cell

/-- The palette register file `PAL[0..3]` (R41). -/
structure Palette where
  e0 : Color
  e1 : Color
  e2 : Color
  e3 : Color
  deriving DecidableEq, Repr

/-- The fields of `ST` (R44). The word the host reads is `Status.word`; its bits 15:10 read as 0. -/
structure Status where
  /-- Bit 0 `DONE`. -/
  done : Bool
  /-- Bit 1 `ERR`. -/
  err : Bool
  /-- Bit 2 `REFUSED`. -/
  refused : Bool
  /-- Bits 5:3 `ERR_KIND`. -/
  errKind : BitVec 3
  /-- Bits 9:6 `REF_REASON`. -/
  refReason : BitVec 4
  deriving DecidableEq, Repr

/-- Where the sequencer stands in the phases of a decode (R150, R157, R193, R194, R206). The spec keeps this position in its
pseudocode; the model keeps it here (log entry 8). Between host commands it is `idle` (R301). -/
inductive Phase where
  | idle
  | g1Header
  | g1Init
  | g1Packet
  | g1Mode
  | g1Post
  | g2Prefix
  | lzHeader
  | lzOperand
  | lzCopy
  | g2Layout
  deriving DecidableEq, Repr

/-- The state of the block. `SNK_LEN` and `D_LEN` are the lengths of `snk` and `bufD` (R27, R37, R60; log entry 7). -/
structure State where
  /-- `SRC` (R60, R62), byte memory written by the host. -/
  src : Memory
  /-- `SRC_LEN` (R21), natural number. -/
  srcLen : Nat
  /-- `RD_BYTE` (R22), natural number. -/
  rdByte : Nat
  /-- `RD_BIT` (R23), 3 bits. -/
  rdBit : BitVec 3
  /-- `WR_ACC` (R25), 8 bits. -/
  wrAcc : Byte
  /-- `WR_CNT` (R26), 3 bits. -/
  wrCnt : BitVec 3
  /-- `SNK` (R60, R63), a sequence of bytes. -/
  snk : List Byte
  /-- `G1_TW` (R29), 6 bits. -/
  g1Tw : BitVec 6
  /-- `G1_TH` (R29), 6 bits. -/
  g1Th : BitVec 6
  /-- `G1_PRIMARY` (R30), 1 bit. -/
  g1Primary : BitVec 1
  /-- `G1_MODE` (R31), 2 bits. -/
  g1Mode : BitVec 2
  /-- `G1_STATE` (R32), 1 bit: 0 is RLE, 1 is DATA. -/
  g1State : BitVec 1
  /-- `G1_EMIT` (R33), natural number. -/
  g1Emit : Nat
  /-- `G1_TOTAL` (R33), natural number. -/
  g1Total : Nat
  /-- `G1_CUR` (R34), 1 bit: 0 is `B`, 1 is `C`. -/
  g1Cur : BitVec 1
  /-- `DS` (R35), 1 bit. -/
  ds : BitVec 1
  /-- `B` (R60, R64), a sequence of bytes. -/
  bufB : List Byte
  /-- `C` (R60, R64), a sequence of bytes. -/
  bufC : List Byte
  /-- `G2_IP` (R36), natural number. -/
  g2Ip : Nat
  /-- `D` (R60, R65), a sequence of bytes. -/
  bufD : List Byte
  /-- `G2_CMD` (R38), 3 bits. -/
  g2Cmd : BitVec 3
  /-- `G2_LEN` (R38), natural number. -/
  g2Len : Nat
  /-- `G2_START` (R38), integer. -/
  g2Start : Int
  /-- `G2_LONG` (R38), 1 bit. -/
  g2Long : BitVec 1
  /-- `G2_PFX` (R39), 1 bit. -/
  g2Pfx : BitVec 1
  /-- `pw`, the width kept from the 14-byte block until the layout is chosen (R190, R212), 6 bits. -/
  g2Pw : BitVec 6
  /-- `ph`, the height kept likewise (R190, R212), 6 bits. -/
  g2Ph : BitVec 6
  /-- `G2_TW` (R39), natural number. -/
  g2Tw : Nat
  /-- `G2_TH` (R39), natural number. -/
  g2Th : Nat
  /-- `DL_W` (R40), natural number. -/
  dlW : Nat
  /-- `DL_H` (R40), natural number. -/
  dlH : Nat
  /-- `PH_W` (R40), natural number. -/
  phW : Nat
  /-- `PH_H` (R40), natural number. -/
  phH : Nat
  /-- `COL_OFF` (R40), natural number. -/
  colOff : Nat
  /-- `ROW_OFF` (R40), natural number. -/
  rowOff : Nat
  /-- `P0` (R60, R67), a sequence of bytes. -/
  p0 : List Byte
  /-- `P1` (R60, R67), a sequence of bytes. -/
  p1 : List Byte
  /-- `PIX` (R60, R67), a sequence of 2-bit indices, row-major. -/
  pix : List Pixel
  /-- `RASTER` (R60, R67), a sequence of colours, row-major. -/
  raster : List Color
  /-- `PAL[0..3]` (R41), four entries of 24 bits. -/
  pal : Palette
  /-- `CFG` (R42), 16 bits. -/
  cfg : BitVec 16
  /-- `CMD` (R43), 4 bits. -/
  cmd : BitVec 4
  /-- `ARG0` (R43), 16 bits. -/
  arg0 : BitVec 16
  /-- `ARG1` (R43), 5 bits. -/
  arg1 : BitVec 5
  /-- `RES` (R43), 16 bits. -/
  res : BitVec 16
  /-- `ST` (R44), 16 bits as its fields. -/
  st : Status
  /-- The MODEL's own: the sequencer's position (log entry 8). -/
  phase : Phase
  /-- The MODEL's own: the host has written `CMD` and the block has not yet taken the command (R250; log entry 9). -/
  issued : Bool
  /-- The MODEL's own: how many times free values have been drawn (R50; log entry 1). -/
  drawn : Nat
  /-- The MODEL's own: which draw gives the bytes of `SRC` that the host never wrote; a `RESET` renews it (R47; log entry 5). -/
  srcDraw : Nat
  /-- The MODEL's own: the parameters of R7, which no operation changes (log entry 6). -/
  params : Config.Params
  deriving DecidableEq, Repr

/-- The outcome of a step. -/
abbrev Result := Host.Outcome State Fault Refusal

/-- An operation of the pseudocode: it ends with a value, or stops by `raise` or `refuse`. -/
abbrev Op (α : Type) := Except Stop α

/-- `SNK_LEN` (R27): the count of bytes emitted to the sink. -/
def State.snkLen (s : State) : Nat := s.snk.length

/-- `D_LEN` (R37): the count of bytes in the Gen2 output buffer. -/
def State.dLen (s : State) : Nat := s.bufD.length

/-- `RD_POS` (R24): the number of source bits consumed. -/
def State.rdPos (s : State) : Nat := 8 * s.rdByte + s.rdBit.toNat

/-- The state right after reset (R47, R300). The spec leaves `PAL` unspecified; the model names 0 (log entry 4). -/
def State.reset : State :=
  { src := [], srcLen := 0
    rdByte := 0, rdBit := 0
    wrAcc := 0, wrCnt := 0, snk := []
    g1Tw := 0, g1Th := 0, g1Primary := 0, g1Mode := 0, g1State := 0, g1Emit := 0, g1Total := 0, g1Cur := 0, ds := 0
    bufB := [], bufC := []
    g2Ip := 0, bufD := [], g2Cmd := 0, g2Len := 0, g2Start := 0, g2Long := 0, g2Pfx := 0, g2Pw := 0, g2Ph := 0
    g2Tw := 0, g2Th := 0
    dlW := 0, dlH := 0, phW := 0, phH := 0, colOff := 0, rowOff := 0
    p0 := [], p1 := [], pix := [], raster := []
    pal := ⟨0, 0, 0, 0⟩
    cfg := 0, cmd := 0, arg0 := 0, arg1 := 0, res := 0
    st := ⟨false, false, false, 0, 0⟩
    phase := .idle, issued := false, drawn := 0, srcDraw := 0, params := Config.Params.default }

end Sys2Proof.Machine
end

