-- ==== Sys2Proof/Machine/Flags.lean ====
section
/-! DEFINITION. The status register `ST` (10_state.md R44, R45; 60_exceptions.md R271, R280, R283) and the fields of the
configuration register `CFG` (R42). These are all the flags the block has (R13). -/

namespace Sys2Proof.Machine

/-! ## `ST` -/

/-- The code `ST.ERR_KIND` takes (R271). -/
def ErrKind.code (k : ErrKind) : BitVec 3 :=
  match k with
  | .malformedHeader => 1
  | .overrun => 2
  | .outOfRangeReference => 3
  | .truncatedInput => 4

/-- The code `ST.REF_REASON` takes (R280). -/
def RefReason.code (r : RefReason) : BitVec 4 :=
  match r with
  | .badCmd => 1
  | .badWidth => 2
  | .badOverride => 3
  | .declaredExceedsPhysical => 4
  | .afterFault => 5
  | .capacity => 6

/-- The 16-bit word the host reads (R44). -/
def Status.word (t : Status) : BitVec 16 :=
  0#6 ++ t.refReason ++ t.errKind ++ BitVec.ofBool t.refused ++ BitVec.ofBool t.err ++ BitVec.ofBool t.done

/-- R283: once `ERR` or `REFUSED` is set, only `RESET` is accepted. -/
def Status.stuck (t : Status) : Bool := t.err || t.refused

/-- `raise` (R271): `ERR` is set, `DONE` cleared, and the kind is that of the first fault (R45). -/
def Status.raise (k : ErrKind) (t : Status) : Status :=
  { t with done := false, err := true, errKind := if t.err then t.errKind else k.code }

/-- `refuse` (R280): `REFUSED` is set, `DONE` cleared, and the reason is that of the first refusal (R45). -/
def Status.refuse (r : RefReason) (t : Status) : Status :=
  { t with done := false, refused := true, refReason := if t.refused then t.refReason else r.code }

/-- `ST.DONE <- 0` at the start of a decode command (R48). -/
def Status.begin (t : Status) : Status := { t with done := false }

/-- `ST.DONE <- 1` at the end of a decode (R150, R193). -/
def Status.finish (t : Status) : Status := { t with done := true }

/-! ## `CFG` -/

/-- `CFG.ALLOW_OVERRUN`, bit 0: lenient (R42). -/
def State.lenient (s : State) : Bool := s.cfg.getLsbD 0

/-- `CFG.FIXED_BUFFER`, bit 1 (R42). -/
def State.fixedBuffer (s : State) : Bool := s.cfg.getLsbD 1

/-- `CFG.OVR_EN`, bit 2 (R42). -/
def State.ovrEn (s : State) : Bool := s.cfg.getLsbD 2

/-- `CFG.OVR_W`, bits 7:4 (R42). -/
def State.ovrW (s : State) : BitVec 4 := s.cfg.extractLsb' 4 4

/-- `CFG.OVR_H`, bits 11:8 (R42). -/
def State.ovrH (s : State) : BitVec 4 := s.cfg.extractLsb' 8 4

/-- The bits of `CFG` that hold a value; bits 3 and 15:12 read as 0 and ignore writes (R42). -/
def cfgMask : BitVec 16 := 0x0FF7#16

end Sys2Proof.Machine
end

