-- ==== Sys2Proof/Machine/Ops.lean ====
section
/-! DEFINITION. The named operations over memory and registers: the source memory, taking a fault or a refusal, the
bit reader and writer (40_bitcursor.md R131 to R139), the Gen2 byte fetch and append (42_gen2_lz3.md R192, R201). -/

namespace Sys2Proof.Machine

/-! ## The source memory -/

/-- The byte the host wrote at an index, if it wrote one (`MemRead`, R11). -/
def Memory.read (m : Memory) (a : Nat) : Option Byte :=
  match m with
  | [] => none
  | (x, b) :: m => if x = a then some b else Memory.read m a

/-- The memory with byte `v` at index `a`, in canonical form. -/
def Memory.write (m : Memory) (a : Nat) (v : Byte) : Memory :=
  match m with
  | [] => [(a, v)]
  | (x, b) :: m => if a < x then (a, v) :: (x, b) :: m else if a = x then (a, v) :: m else (x, b) :: Memory.write m a v

/-- The memory with the bytes `bs` written at index `a` and up; every other index keeps what it held. -/
def Memory.load (m : Memory) (a : Nat) (bs : List Byte) : Memory :=
  match bs with
  | [] => m
  | b :: bs => Memory.load (Memory.write m a b) (a + 1) bs

/-- The canonical form: indices strictly rise. -/
def Memory.wf (m : Memory) : Bool :=
  match m with
  | [] => true
  | [_] => true
  | (x, _) :: (y, b) :: m => decide (x < y) && Memory.wf ((y, b) :: m)

/-- The memory that holds `bs` from index `a` on. -/
def Memory.ofBytes (a : Nat) (bs : List Byte) : Memory :=
  match bs with
  | [] => []
  | b :: bs => (a, b) :: Memory.ofBytes (a + 1) bs

/-- `SRC[a]`. A byte below `SRC_LEN` that the host never wrote has unspecified contents (R47, U4): it reads as a free
value, the same one until the next reset (log entry 5). -/
def State.srcByte (s : State) (a : Nat) : Byte := (Memory.read s.src a).getD (Config.unwrittenSrc s.srcDraw a)

/-- Source bit number `p` (R91): bit `7 - p mod 8` of byte `p div 8`. -/
def State.srcBit (s : State) (p : Nat) : Bool := (s.srcByte (p / 8)).getLsbD (7 - p % 8)

/-- `n` source bits from bit position `p` on, in stream order. -/
def State.srcBits (s : State) : Nat → Nat → Bits
  | 0, _ => []
  | n + 1, p => s.srcBit p :: State.srcBits s n (p + 1)

/-- All source bits from bit position `p` to the end of the source. -/
def State.bitsFrom (s : State) (p : Nat) : Bits := s.srcBits (8 * s.srcLen - p) p

/-! ## Faults and refusals: the block's exception entry

There is no vector and no return (R281, R282); the way on is `RESET`. -/

/-- R50: every output and working register is unspecified. Each takes a free value, `SNK` as a whole too, which a fault then
keeps in part (`snkAfterFault`); the inputs `SRC`, `SRC_LEN`,
`CFG`, `CMD`, `ARG0`, `ARG1` and `ST` are not among them. -/
def State.unspecified (s : State) : State :=
  let k := s.drawn
  { s with
    rdByte := Config.freeNat .rdByte k, rdBit := Config.freeBits 3 .rdBit k
    wrAcc := Config.freeBits 8 .wrAcc k, wrCnt := Config.freeBits 3 .wrCnt k, snk := Config.freeSpace 8 .snk k
    g1Tw := Config.freeBits 6 .g1Tw k, g1Th := Config.freeBits 6 .g1Th k, g1Primary := Config.freeBits 1 .g1Primary k
    g1Mode := Config.freeBits 2 .g1Mode k, g1State := Config.freeBits 1 .g1State k
    g1Emit := Config.freeNat .g1Emit k, g1Total := Config.freeNat .g1Total k
    g1Cur := Config.freeBits 1 .g1Cur k, ds := Config.freeBits 1 .ds k
    bufB := Config.freeSpace 8 .bufB k, bufC := Config.freeSpace 8 .bufC k
    g2Ip := Config.freeNat .g2Ip k, bufD := Config.freeSpace 8 .bufD k, g2Cmd := Config.freeBits 3 .g2Cmd k
    g2Len := Config.freeNat .g2Len k, g2Start := Config.freeInt .g2Start k, g2Long := Config.freeBits 1 .g2Long k
    g2Pfx := Config.freeBits 1 .g2Pfx k, g2Pw := Config.freeBits 6 .g2Pw k, g2Ph := Config.freeBits 6 .g2Ph k
    g2Tw := Config.freeNat .g2Tw k, g2Th := Config.freeNat .g2Th k
    dlW := Config.freeNat .dlW k, dlH := Config.freeNat .dlH k, phW := Config.freeNat .phW k, phH := Config.freeNat .phH k
    colOff := Config.freeNat .colOff k, rowOff := Config.freeNat .rowOff k
    p0 := Config.freeSpace 8 .p0 k, p1 := Config.freeSpace 8 .p1 k
    pix := Config.freeSpace 2 .pix k, raster := Config.freeSpace 24 .raster k
    res := Config.freeBits 16 .res k
    drawn := k + 1 }

/-- Four free palette entries (R47, U3). -/
def freePalette (k : Nat) : Palette :=
  { e0 := Config.freeBits 24 .pal0 k, e1 := Config.freeBits 24 .pal1 k
    e2 := Config.freeBits 24 .pal2 k, e3 := Config.freeBits 24 .pal3 k }

/-- Whether a phase lies inside a `G2.DECODE`. -/
def Phase.inG2 (p : Phase) : Bool :=
  match p with
  | .g2Prefix | .lzHeader | .lzOperand | .lzCopy | .g2Layout => true
  | .idle | .g1Header | .g1Init | .g1Packet | .g1Mode | .g1Post => false

/-- Whether the block stands inside a `G2.DECODE` that has written `PAL` from the block of its source (R191). -/
def State.palWritten (s : State) : Bool := s.phase.inG2 && decide (s.g2Pfx = 1)

/-- `PAL` after a stop: only a `G2.DECODE` whose source carries the 14-byte block writes it (R41), and then it is part of an
output that failed, so unspecified; every other stop leaves it alone (log entry 2). -/
def State.palAfterStop (s : State) : Palette := if s.palWritten then freePalette s.drawn else s.pal

/-- `SNK` after a fault: the bytes emitted before the faulting operation stay (R63); beyond them it is unspecified (R50). -/
def State.snkAfterFault (s : State) : List Byte := s.snk ++ Config.freeSpace 8 .snk s.drawn

/-- TAKING A FAULT OR A REFUSAL, the one operation for both (R271, R280): the command stops at once, `ST` records it, every
output becomes unspecified (R50), and the block waits for the next command. A fault keeps the bytes emitted to `SNK` before (R63);
of `SNK` after a refusal the spec says nothing (R281; log entry 2). The refusal `AFTER_FAULT` writes `ST` and does
nothing else (R283). -/
def State.stop (e : Stop) (s : State) : State :=
  match e with
  | .raise k => { s.unspecified with snk := s.snkAfterFault, pal := s.palAfterStop, st := s.st.raise k, phase := .idle }
  | .refuse .afterFault => { s with st := s.st.refuse .afterFault }
  | .refuse r => { s.unspecified with pal := s.palAfterStop, st := s.st.refuse r, phase := .idle }

/-- The outcome of an operation that began in `s`: the state it ends in, or the fault or refusal it ends with. -/
def settle (s : State) (r : Op State) : Result :=
  match r with
  | .ok t => .next t
  | .error e => .next (s.stop e)

/-- `RESET` (R255, R300): every register and memory takes the reset value of R47. `PAL` and the contents of `SRC` are
unspecified there, so each is a fresh free value (log entries 4, 5). The model's counter of draws and the parameters stay. -/
def State.afterReset (s : State) : State :=
  { State.reset with pal := freePalette s.drawn, drawn := s.drawn + 1, srcDraw := s.drawn + 1, params := s.params }

/-! ## The bit reader -/

/-- The reader `n` bits further on (R24). -/
def State.advance (n : Nat) (s : State) : State :=
  { s with rdByte := (s.rdPos + n) / 8, rdBit := .ofNat 3 ((s.rdPos + n) % 8) }

/-- `ReadBit()` (R131). -/
def readBit (s : State) : Op (Bool × State) :=
  if s.srcLen ≤ s.rdByte then .error (.raise .truncatedInput)
  else
    let b := (s.srcByte s.rdByte).getLsbD (7 - s.rdBit.toNat)
    if s.rdBit = 7 then .ok (b, { s with rdByte := s.rdByte + 1, rdBit := 0 })
    else .ok (b, { s with rdBit := s.rdBit + 1 })

/-- The loop of `ReadBits(n)` (R132), the bits read so far in `v`. -/
def readBitsFrom : Nat → Nat → State → Op (Nat × State)
  | 0, v, s => .ok (v, s)
  | n + 1, v, s =>
    match readBit s with
    | .error e => .error e
    | .ok (b, s) => readBitsFrom n (2 * v + b.toNat) s

/-- `ReadBits(n)` (R132). -/
def readBits (n : Nat) (s : State) : Op (Nat × State) := readBitsFrom n 0 s

/-! ## The bit writer -/

/-- Whether a space of `len` elements has reached a capacity; `none` is unbounded (R7). -/
def full (cap : Option Nat) (len : Nat) : Bool :=
  match cap with
  | none => false
  | some c => decide (c ≤ len)

/-- `Emit(byte)` (R136). -/
def emit (v : Byte) (s : State) : Op State :=
  if full s.params.snkCap s.snkLen then .error (.refuse .capacity)
  else .ok { s with snk := s.snk ++ [v] }

/-- The pending byte with one more bit, at bit `7 - WR_CNT` (R135). -/
def State.accWith (b : Bool) (s : State) : Byte := s.wrAcc ||| ((BitVec.ofBool b).setWidth 8 <<< (7 - s.wrCnt.toNat))

/-- One pass of the loop of `WriteBits` (R135). -/
def writeBit (b : Bool) (s : State) : Op State :=
  if s.wrCnt = 7 then
    match emit (s.accWith b) s with
    | .error e => .error e
    | .ok s => .ok { s with wrAcc := 0, wrCnt := 0 }
  else .ok { s with wrAcc := s.accWith b, wrCnt := s.wrCnt + 1 }

/-- `WriteBits(value, n)` (R135), most significant of the `n` bits first. -/
def writeBits (v : Nat) : Nat → State → Op State
  | 0, s => .ok s
  | n + 1, s =>
    match writeBit (v.testBit n) s with
    | .error e => .error e
    | .ok s => writeBits v n s

/-- `Flush()` (R137). -/
def flush (s : State) : Op State :=
  if s.wrCnt = 0 then .ok s
  else
    match emit s.wrAcc s with
    | .error e => .error e
    | .ok s => .ok { s with wrAcc := 0, wrCnt := 0 }

/-- `Open()` (R139). -/
def openCursors (s : State) : State := { s with rdByte := 0, rdBit := 0, wrAcc := 0, wrCnt := 0, snk := [] }

/-! ## The Gen2 byte fetch and append -/

/-- `NextByte()` (R192). -/
def nextByte (s : State) : Op (Byte × State) :=
  if s.srcLen ≤ s.g2Ip then .error (.raise .truncatedInput)
  else .ok (s.srcByte s.g2Ip, { s with g2Ip := s.g2Ip + 1 })

/-- `Append(v)` (R201). -/
def append (v : Byte) (s : State) : Op State :=
  if full s.params.dCap s.dLen then .error (.refuse .capacity)
  else .ok { s with bufD := s.bufD ++ [v] }

/-- `Append` of each byte of a list, in order. -/
def appendAll : List Byte → State → Op State
  | [], s => .ok s
  | v :: vs, s =>
    match append v s with
    | .error e => .error e
    | .ok s => appendAll vs s

end Sys2Proof.Machine
end

