-- ==== Sys2Proof/Machine/Operands.lean ====
section
/-! DEFINITION. Every operand form: tile dimensions (R109, R152), lengths (R109), run lengths (R158), the back-reference
start of commands 4, 5, 6 (42_gen2_lz3.md R203) and the ranges it may name (R204, R205). -/

namespace Sys2Proof.Machine

/-! ## Dimensions -/

/-- The zero-dimension rule (R152, R190, D16): 0 is 32 in lenient mode and a malformed header in strict mode. -/
def dimension (n : BitVec 4) (s : State) : Op (BitVec 6) :=
  if n = 0 then if s.lenient then .ok (.ofNat 6 Config.dimZeroLenient) else .error (.raise .malformedHeader)
  else .ok (n.setWidth 6)

/-- Whether a pair of dimension fields is refused as a header in the current policy (R152). -/
def zeroDimension (w h : Nat) (s : State) : Bool := !s.lenient && (w == 0 || h == 0)

/-! ## Lengths -/

/-- The value of a run with a prefix of `k` ones and the suffix `v` (R96, R158). -/
def runLength (k v : Nat) : Nat := 2 ^ (k + 1) - 1 + v

/-- The header of an LZ3 command taken from the stream: `n` bytes, then `G2_CMD`, `G2_LEN`, `G2_LONG` (R194). -/
def lzCommand (n : Nat) (cmd : BitVec 3) (len : Nat) (long : BitVec 1) (s : State) : State :=
  { s with g2Ip := s.g2Ip + n, g2Cmd := cmd, g2Len := len, g2Long := long }

/-- A short header (R102): one byte, `length = L + 1`. -/
def shortHeader (cmd : BitVec 3) (l : BitVec 5) (s : State) : State := lzCommand 1 cmd (l.toNat + 1) 0 s

/-- A long header (R103, R199): two bytes, `length = L + 1`. -/
def longHeader (cmd : BitVec 3) (l : BitVec 10) (s : State) : State := lzCommand 2 cmd (l.toNat + 1) 1 s

/-! ## Back-references -/

/-- Recent-relative start (R203): `D_LEN - y - 1`, an integer that may be negative. -/
def startRel (y : BitVec 7) (s : State) : State := { s with g2Start := (s.dLen : Int) - y.toNat - 1 }

/-- Absolute start (R203): `y * 256 + lo`. -/
def startAbs (y : BitVec 7) (lo : Byte) (s : State) : State := { s with g2Start := (y.toNat * 256 + lo.toNat : Nat) }

/-- `ReadStart()` (R203). -/
def readStart (s : State) : Op State :=
  match nextByte s with
  | .error e => .error e
  | .ok (ay, s) =>
    if ay.getLsbD 7 then .ok (startRel (ay.setWidth 7) s)
    else
      match nextByte s with
      | .error e => .error e
      | .ok (lo, s) => .ok (startAbs (ay.setWidth 7) lo s)

/-- The first range check (R204): `start < 0` or `start >= D_LEN`. -/
def startOutside (s : State) : Bool := decide (s.g2Start < 0) || decide ((s.dLen : Int) ≤ s.g2Start)

/-- The second range check of commands 4 and 5 (R205): the range `[start, start + length)` must already exist. -/
def endOutside (s : State) : Bool := decide ((s.dLen : Int) < s.g2Start + s.g2Len)

/-- The second range check of command 6 (R205): the walk must stay at index 0 or above. -/
def walkOutside (s : State) : Bool := decide (s.g2Start - (s.g2Len - 1) < 0)

/-- The `G2_LEN` bytes of `D` from `G2_START` on, forward (R206). -/
def forwardRange (s : State) : List Byte :=
  (List.range s.g2Len).map (fun i => s.bufD.getD (s.g2Start.toNat + i) 0)

/-- The `G2_LEN` bytes of `D` from `G2_START` down, backward (R208). -/
def backwardRange (s : State) : List Byte :=
  (List.range s.g2Len).map (fun i => s.bufD.getD (s.g2Start.toNat - i) 0)

/-- `BitReverse(b)` (R209): output bit `i` is input bit `7 - i`. -/
def bitReverse (b : Byte) : Byte := b.reverse

end Sys2Proof.Machine
end

