-- ==== Sys2Proof/Machine/Tile.lean ====
section
/-! DEFINITION. The TileAssembler (43_tile_assembler.md R230 to R240): physical size, fit test, placement, assembly and
palette lookup. It is the last phase of both decode commands. -/

namespace Sys2Proof.Machine

/-- `ChoosePhysical(gen)` (R230): the override counts here for Gen1 only; "cap" is exactly 7 x 7 (D17). -/
def choosePhysical (gen1 : Bool) (s : State) : Nat × Nat :=
  if gen1 && s.ovrEn then (s.ovrW.toNat, s.ovrH.toNat)
  else if s.fixedBuffer then (Config.fixedW, Config.fixedH)
  else (s.dlW, s.dlH)

/-- The physical plane byte at flat index `k` (R233): the declared byte whose column and row lie `COL_OFF` tiles left and
`ROW_OFF` tiles up of it, or zero outside the declared image. Both indices follow the layout of R68. -/
def placedByte (dp : List Byte) (s : State) (k : Nat) : Byte :=
  let col := k / (s.phH * 8)
  let row := k % (s.phH * 8)
  if s.colOff ≤ col ∧ col < s.colOff + s.dlW ∧ s.rowOff * 8 ≤ row ∧ row < s.rowOff * 8 + s.dlH * 8 then
    dp.getD ((col - s.colOff) * (s.dlH * 8) + (row - s.rowOff * 8)) 0
  else 0

/-- One physical plane: `PH_W * PH_H * 8` bytes (R233). -/
def placedPlane (dp : List Byte) (s : State) : List Byte :=
  (List.range (s.phW * s.phH * 8)).map (placedByte dp s)

/-- `Place(DP0, DP1)` (R230 to R233). -/
def place (gen1 : Bool) (dp0 dp1 : List Byte) (s : State) : Op State :=
  let ph := choosePhysical gen1 s
  if ph.1 < s.dlW ∨ ph.2 < s.dlH then .error (.refuse .declaredExceedsPhysical)
  else
    let s := { s with phW := ph.1, phH := ph.2, colOff := (ph.1 - s.dlW + 1) / 2, rowOff := ph.2 - s.dlH }
    .ok { s with p0 := placedPlane dp0 s, p1 := placedPlane dp1 s }

/-- The bit of a plane at pixel `(x, y)`, `hpx` pixel rows high (R68): bit `7 - x mod 8` of byte `(x div 8) * hpx + y`. -/
def planeBit (plane : List Byte) (hpx x y : Nat) : Bool := (plane.getD (x / 8 * hpx + y) 0).getLsbD (7 - x % 8)

/-- The colour index of physical pixel `(x, y)` (R236): `(bit1 << 1) | bit0`. -/
def pixelAt (s : State) (x y : Nat) : Pixel :=
  BitVec.ofBool (planeBit s.p1 (s.phH * 8) x y) ++ BitVec.ofBool (planeBit s.p0 (s.phH * 8) x y)

/-- `PAL[i]` (R41). -/
def Palette.get (p : Palette) (i : Pixel) : Color :=
  match i.toNat with
  | 0 => p.e0
  | 1 => p.e1
  | 2 => p.e2
  | _ => p.e3

/-- `PAL[i]` with a new entry (R41). -/
def Palette.set (p : Palette) (i : Pixel) (c : Color) : Palette :=
  match i.toNat with
  | 0 => { p with e0 := c }
  | 1 => { p with e1 := c }
  | 2 => { p with e2 := c }
  | _ => { p with e3 := c }

/-- `Pal2(c0, c1)` (R238): white, the two colours, black. -/
def pal2 (c0 c1 : Color) : Palette := { e0 := Config.white, e1 := c0, e2 := c1, e3 := Config.black }

/-- The raster of indices, row-major (R236). -/
def pixels (s : State) : List Pixel :=
  (List.range (s.phH * 8 * (s.phW * 8))).map (fun k => pixelAt s (k % (s.phW * 8)) (k / (s.phW * 8)))

/-- `Assemble()` (R236). -/
def assemble (s : State) : State := { s with pix := pixels s, raster := (pixels s).map s.pal.get }

/-- The end of a decode (R150, R193): placement, assembly, `ST.DONE <- 1`; the block is idle again. -/
def finish (gen1 : Bool) (dp0 dp1 : List Byte) (s : State) : Op State :=
  match place gen1 dp0 dp1 s with
  | .error e => .error e
  | .ok s =>
    let s := assemble s
    .ok { s with st := s.st.finish, phase := .idle }

end Sys2Proof.Machine
end

