-- ==== Sys2Proof/Machine/Gen1.lean ====
section
/-! DEFINITION. The Gen1 decoder (41_gen1_decode.md R150 to R175): the meaning of every Gen1 stream element, and the
post-processing. An element's meaning takes the element from the stream (`RD` moves past its bits) and does what the
phase it stands in does with it. -/

namespace Sys2Proof.Machine

/-! ## Shared operations -/

/-- Where the sub-stream machine goes after an element (R157, R162, R150): on while the plane is short of `G1_TOTAL` pairs;
after the first plane to the mode field, after the second to the post-processing. -/
def afterElement (s : State) : State :=
  { s with
    phase :=
      if s.g1Emit < s.g1Total then .g1Packet
      else if s.g1Cur = s.g1Primary then .g1Mode
      else .g1Post }

/-- The header (R151 to R154): both nibbles, the zero-dimension rule on the width and then on the height, the buffers sized
and zero-filled (R153), the primary buffer, which is the first to be filled (R155). -/
def header (w h : BitVec 4) (p : BitVec 1) (s : State) : Op State :=
  match dimension w s with
  | .error e => .error e
  | .ok tw =>
    match dimension h s with
    | .error e => .error e
    | .ok th =>
      .ok { s.advance 9 with
            g1Tw := tw, g1Th := th, g1Total := tw.toNat * th.toNat * 32
            bufB := List.replicate (tw.toNat * th.toNat * 8) 0#8
            bufC := List.replicate (tw.toNat * th.toNat * 8) 0#8
            g1Primary := p, g1Cur := p, phase := .g1Init }

/-- The leading bit of a sub-stream (R156, R157). -/
def initState (b : BitVec 1) (s : State) : State := afterElement { s.advance 1 with g1State := b, g1Emit := 0 }

/-- `R` zero pairs (R157, R159, R160): the position moves by `R`, or to the end of the plane in lenient mode; in strict mode a
run past the end is an overrun. Then state DATA. -/
def emitRun (r : Nat) (s : State) : Op State :=
  if s.g1Total < s.g1Emit + r then
    if s.lenient then .ok (afterElement { s with g1Emit := s.g1Emit + (s.g1Total - s.g1Emit), g1State := 1 })
    else .error (.raise .overrun)
  else .ok (afterElement { s with g1Emit := s.g1Emit + r, g1State := 1 })

/-- A run element of `k` prefix ones and suffix `v` (R158): `2 (k + 1)` bits. -/
def runElement (k v : Nat) (s : State) : Op State := emitRun (runLength k v) (s.advance (2 * (k + 1)))

/-- `EmitPair(buf, n, p)` (R161), in a plane `rows` pixel rows high. -/
def emitPair (rows n : Nat) (p : BitVec 2) (buf : List Byte) : List Byte :=
  let c2 := n / rows
  let row := n % rows
  let i := c2 / 4 * rows + row
  buf.set i (buf.getD i 0 ||| (p.setWidth 8 <<< (6 - 2 * (c2 % 4))))

/-- A data pair (R157, R161): 2 bits, into the current buffer at position `G1_EMIT`. -/
def pairElement (p : BitVec 2) (s : State) : State :=
  let rows := s.g1Th.toNat * 8
  let s := s.advance 2
  let s :=
    if s.g1Cur = 0 then { s with bufB := emitPair rows s.g1Emit p s.bufB }
    else { s with bufC := emitPair rows s.g1Emit p s.bufC }
  afterElement { s with g1Emit := s.g1Emit + 1 }

/-- The switch (R163): state RLE, nothing emitted. -/
def switchElement (s : State) : State := afterElement { s.advance 2 with g1State := 0 }

/-- The mode field of `n` bits (R164); the second sub-stream fills the other buffer (R165). -/
def modeElement (m : BitVec 2) (n : Nat) (s : State) : State :=
  { s.advance n with g1Mode := m, g1Cur := 1 - s.g1Primary, phase := .g1Init }

/-! ## Post-processing -/

/-- Pixels `k - 1` down to 0 of one byte (R168): the state toggles with each set input bit and is the output bit. -/
def deltaBits (b : Byte) : Nat → BitVec 1 → Byte → Byte × BitVec 1
  | 0, ds, out => (out, ds)
  | k + 1, ds, out =>
    let ds := ds ^^^ BitVec.ofBool (b.getLsbD k)
    deltaBits b k ds (out ||| (ds.setWidth 8 <<< k))

/-- One byte, left to right, from the state `ds`: the output byte and the state after it (R168). -/
def deltaByte (ds : BitVec 1) (b : Byte) : Byte × BitVec 1 := deltaBits b 8 ds 0

/-- `DeltaDecode(buf)` under `DELTA_SPAN = BYTE` (R168): every byte on its own; `DS` as the last byte leaves it. -/
def deltaSpanByte (ds : BitVec 1) (buf : List Byte) : List Byte × BitVec 1 :=
  (buf.map (fun b => (deltaByte 0 b).1), match buf.getLast? with | none => ds | some b => (deltaByte 0 b).2)

/-- One byte of a pixel row under `DELTA_SPAN = ROW` (R168). -/
def deltaAt (rows y : Nat) (acc : List Byte × BitVec 1) (tcol : Nat) : List Byte × BitVec 1 :=
  let i := tcol * rows + y
  let r := deltaByte acc.2 (acc.1.getD i 0)
  (acc.1.set i r.1, r.2)

/-- `DeltaDecode(buf)` under `DELTA_SPAN = ROW` (R168): the state runs across all tile columns of a pixel row. -/
def deltaSpanRow (w rows : Nat) (ds : BitVec 1) (buf : List Byte) : List Byte × BitVec 1 :=
  (List.range rows).foldl (fun acc y => (List.range w).foldl (deltaAt rows y) (acc.1, 0)) (buf, ds)

/-- `DeltaDecode(buf)` (R168) by the parameter `DELTA_SPAN`. -/
def deltaDecode (s : State) (buf : List Byte) : List Byte × BitVec 1 :=
  match s.params.deltaSpan with
  | .byte => deltaSpanByte s.ds buf
  | .row => deltaSpanRow s.g1Tw.toNat (s.g1Th.toNat * 8) s.ds buf

/-- `DeltaDecode(B)`. -/
def deltaB (s : State) : State := let r := deltaDecode s s.bufB; { s with bufB := r.1, ds := r.2 }

/-- `DeltaDecode(C)`. -/
def deltaC (s : State) : State := let r := deltaDecode s s.bufC; { s with bufC := r.1, ds := r.2 }

/-- `DeltaDecode(OTH)` (R169): the buffer that is not the primary one. -/
def deltaOther (s : State) : State := if s.g1Primary = 0 then deltaC s else deltaB s

/-- `XorInto(dst, src)` (R172). -/
def xorInto (dst src : List Byte) : List Byte := List.zipWith (· ^^^ ·) dst src

/-- `XorInto(PRI, OTH)` (R169, R170, R172). -/
def xorPrimary (s : State) : State :=
  if s.g1Primary = 0 then { s with bufB := xorInto s.bufB s.bufC } else { s with bufC := xorInto s.bufC s.bufB }

/-- `PostProcess()` (R166). The value 1 of `G1_MODE` never occurs (R31); nothing is done for it (log entry 20). -/
def postProcess (s : State) : State :=
  match s.g1Mode.toNat with
  | 0 => deltaC (deltaB s)
  | 2 => xorPrimary (deltaOther s)
  | 3 => xorPrimary (deltaC (deltaB s))
  | _ => s

/-- The last phases of `Gen1Decode()` (R150): post-processing, hand-over (R171, R174), placement, assembly. -/
def g1Finish (s : State) : Op State :=
  let s := postProcess s
  let s := { s with dlW := s.g1Tw.toNat, dlH := s.g1Th.toNat }
  finish true s.bufB s.bufC s

/-! ## Meanings -/

/-- `G1.HDR` (R151 to R154). -/
def execG1Hdr (w h : BitVec 4) (p : BitVec 1) (s : State) : Result := settle s (header w h p s)

/-- `G1.INIT RLE` (R156). -/
def execG1InitRle (s : State) : Result := .next (initState 0 s)

/-- `G1.INIT DATA` (R156). -/
def execG1InitData (s : State) : Result := .next (initState 1 s)

/-- `G1.RUN` with 0 prefix ones (R158 to R160): `R = 1 + V`. -/
def execG1Run0 (v : BitVec 1) (s : State) : Result := settle s (runElement 0 v.toNat s)

/-- `G1.RUN` with 1 prefix ones (R158 to R160): `R = 3 + V`. -/
def execG1Run1 (v : BitVec 2) (s : State) : Result := settle s (runElement 1 v.toNat s)

/-- `G1.RUN` with 2 prefix ones (R158 to R160): `R = 7 + V`. -/
def execG1Run2 (v : BitVec 3) (s : State) : Result := settle s (runElement 2 v.toNat s)

/-- `G1.RUN` with 3 prefix ones (R158 to R160): `R = 15 + V`. -/
def execG1Run3 (v : BitVec 4) (s : State) : Result := settle s (runElement 3 v.toNat s)

/-- `G1.RUN` with 4 prefix ones (R158 to R160): `R = 31 + V`. -/
def execG1Run4 (v : BitVec 5) (s : State) : Result := settle s (runElement 4 v.toNat s)

/-- `G1.RUN` with 5 prefix ones (R158 to R160): `R = 63 + V`. -/
def execG1Run5 (v : BitVec 6) (s : State) : Result := settle s (runElement 5 v.toNat s)

/-- `G1.RUN` with 6 prefix ones (R158 to R160): `R = 127 + V`. -/
def execG1Run6 (v : BitVec 7) (s : State) : Result := settle s (runElement 6 v.toNat s)

/-- `G1.RUN` with 7 prefix ones (R158 to R160): `R = 255 + V`. -/
def execG1Run7 (v : BitVec 8) (s : State) : Result := settle s (runElement 7 v.toNat s)

/-- `G1.RUN` with 8 prefix ones (R158 to R160): `R = 511 + V`. -/
def execG1Run8 (v : BitVec 9) (s : State) : Result := settle s (runElement 8 v.toNat s)

/-- `G1.RUN` with 9 prefix ones (R158 to R160): `R = 1023 + V`. -/
def execG1Run9 (v : BitVec 10) (s : State) : Result := settle s (runElement 9 v.toNat s)

/-- `G1.RUN` with 10 prefix ones (R158 to R160): `R = 2047 + V`. -/
def execG1Run10 (v : BitVec 11) (s : State) : Result := settle s (runElement 10 v.toNat s)

/-- `G1.RUN` with 11 prefix ones (R158 to R160): `R = 4095 + V`. -/
def execG1Run11 (v : BitVec 12) (s : State) : Result := settle s (runElement 11 v.toNat s)

/-- `G1.RUN` with 12 prefix ones (R158 to R160): `R = 8191 + V`. -/
def execG1Run12 (v : BitVec 13) (s : State) : Result := settle s (runElement 12 v.toNat s)

/-- `G1.RUN` with 13 prefix ones (R158 to R160): `R = 16383 + V`. -/
def execG1Run13 (v : BitVec 14) (s : State) : Result := settle s (runElement 13 v.toNat s)

/-- `G1.RUN` with 14 prefix ones (R158 to R160): `R = 32767 + V`. -/
def execG1Run14 (v : BitVec 15) (s : State) : Result := settle s (runElement 14 v.toNat s)

/-- `G1.RUN` with 15 prefix ones (R158 to R160): `R = 65535 + V`. -/
def execG1Run15 (v : BitVec 16) (s : State) : Result := settle s (runElement 15 v.toNat s)

/-- `G1.RUN` with `k` prefix ones (R158 to R160): `R = 2^(k+1) - 1 + v`. -/
def execG1RunN (k v : Nat) (s : State) : Result := settle s (runElement k v s)

/-- `G1.PAIR 1` (R161). -/
def execG1Pair1 (s : State) : Result := .next (pairElement 1 s)

/-- `G1.PAIR 2` (R161). -/
def execG1Pair2 (s : State) : Result := .next (pairElement 2 s)

/-- `G1.PAIR 3` (R161). -/
def execG1Pair3 (s : State) : Result := .next (pairElement 3 s)

/-- `G1.SWITCH` (R163). -/
def execG1Switch (s : State) : Result := .next (switchElement s)

/-- `G1.MODE 0` (R164). -/
def execG1Mode0 (s : State) : Result := .next (modeElement 0 1 s)

/-- `G1.MODE 2` (R164). -/
def execG1Mode2 (s : State) : Result := .next (modeElement 2 2 s)

/-- `G1.MODE 3` (R164). -/
def execG1Mode3 (s : State) : Result := .next (modeElement 3 2 s)

end Sys2Proof.Machine
end

