-- ==== Sys2Proof/Machine/Lz3.lean ====
section
/-! DEFINITION. The Gen2 decoder (42_gen2_lz3.md R190 to R216): the meaning of every LZ3 command in its short and long form, of
the address operand, of the 14-byte block and of the terminator, and the layout of the output. A command's meaning takes
its header and then its operand bytes from the stream, in the order of the pseudocode (R216). -/

namespace Sys2Proof.Machine

/-! ## Shared operations: the bodies of the seven commands, after the header -/

/-- `LZ.COPY` (R195): `for i in 0 .. length-1: Append(NextByte())`. -/
def copyLiterals : Nat → State → Op State
  | 0, s => .ok s
  | n + 1, s =>
    match nextByte s with
    | .error e => .error e
    | .ok (v, s) =>
      match append v s with
      | .error e => .error e
      | .ok s => copyLiterals n s

/-- `LZ.COPY` (R195). -/
def copyBody (s : State) : Op State := copyLiterals s.g2Len s

/-- `LZ.FILL` (R196). -/
def fillBody (s : State) : Op State :=
  match nextByte s with
  | .error e => .error e
  | .ok (v, s) => appendAll (List.replicate s.g2Len v) s

/-- The alternation of `LZ.WFILL` (R197): it starts at `v1`, and `n` counts bytes. -/
def alternate (v1 v2 : Byte) (n : Nat) : List Byte := (List.range n).map (fun i => if i % 2 = 0 then v1 else v2)

/-- `LZ.WFILL` (R197): both operand bytes are always fetched. -/
def wfillBody (s : State) : Op State :=
  match nextByte s with
  | .error e => .error e
  | .ok (v1, s) =>
    match nextByte s with
    | .error e => .error e
    | .ok (v2, s) => appendAll (alternate v1 v2 s.g2Len) s

/-- `LZ.ZERO` (R198). -/
def zeroBody (s : State) : Op State := appendAll (List.replicate s.g2Len 0#8) s

/-- `LZ.REP` after its address operand (R204 to R206). -/
def repTransfer (s : State) : Op State :=
  if startOutside s || endOutside s then .error (.raise .outOfRangeReference) else appendAll (forwardRange s) s

/-- `LZ.BREV` after its address operand (R204, R205, R207). -/
def brevTransfer (s : State) : Op State :=
  if startOutside s || endOutside s then .error (.raise .outOfRangeReference)
  else appendAll ((forwardRange s).map bitReverse) s

/-- `LZ.BACK` after its address operand (R204, R205, R208). -/
def backTransfer (s : State) : Op State :=
  if startOutside s || walkOutside s then .error (.raise .outOfRangeReference) else appendAll (backwardRange s) s

/-- The address operand, then the transfer (R206 to R208). -/
def backReference (transfer : State → Op State) (s : State) : Op State :=
  match readStart s with
  | .error e => .error e
  | .ok s => transfer s

/-- The transfer of the back-reference whose address operand has just been read, by `G2_CMD`; the next header follows.
No other command has an address operand. -/
def pendingTransfer (s : State) : Op State :=
  let r :=
    match s.g2Cmd.toNat with
    | 4 => repTransfer s
    | 5 => brevTransfer s
    | 6 => backTransfer s
    | _ => .ok s
  match r with
  | .error e => .error e
  | .ok s => .ok { s with phase := .lzHeader }

/-! ## The 14-byte block -/

/-- `DetectPrefix()` when the block is present (R190, R191): the dimensions are kept for the layout, `PAL` is replaced, and
decoding goes on at index 14. -/
def loadPfx (w h : BitVec 4) (p : Palette) (s : State) : Op State :=
  match dimension w s with
  | .error e => .error e
  | .ok pw =>
    match dimension h s with
    | .error e => .error e
    | .ok ph =>
      .ok { s with g2Pfx := 1, g2Pw := pw, g2Ph := ph, pal := p, g2Ip := Config.pfxLen, phase := .lzHeader }

/-! ## Layout of the output -/

/-- The entry of `SHAPE_TABLE` for a tile count (R212). -/
def shapeOf (table : List (Nat × Nat × Nat)) (tiles : Nat) : Option (Nat × Nat) :=
  (table.find? (fun row => row.1 == tiles)).map (fun row => row.2)

/-- `ChooseDims()` (R212): override, then the 14-byte block, then inference. -/
def chooseDims (s : State) : Op (Nat × Nat) :=
  if s.ovrEn then .ok (s.ovrW.toNat, s.ovrH.toNat)
  else if s.g2Pfx = 1 then .ok (s.g2Pw.toNat, s.g2Ph.toNat)
  else
    let tiles := s.dLen / Config.tileBytes
    if tiles = 0 then .error (.raise .truncatedInput)
    else .ok ((shapeOf s.params.shapeTable tiles).getD (1, tiles))

/-- `CheckSize()` (R213). -/
def checkSize (s : State) : Op State :=
  let expected := s.g2Tw * s.g2Th * Config.tileBytes
  if s.dLen < expected then .error (.raise .truncatedInput)
  else if expected < s.dLen && !s.lenient then .error (.raise .overrun)
  else .ok s

/-- `G2Plane(p)` (R214): a view of `D`. -/
def g2Plane (p : Nat) (s : State) : List Byte :=
  (List.range (s.g2Tw * s.g2Th * 8)).map (fun k => s.bufD.getD (2 * k + p) 0)

/-- The last phases of `Gen2Decode()` (R193): layout, size check, hand-over (R215), placement, assembly. -/
def g2Finish (s : State) : Op State :=
  match chooseDims s with
  | .error e => .error e
  | .ok (w, h) =>
    match checkSize { s with g2Tw := w, g2Th := h } with
    | .error e => .error e
    | .ok s => finish false (g2Plane 0 s) (g2Plane 1 s) { s with dlW := s.g2Tw, dlH := s.g2Th }

/-! ## Meanings -/

/-- `LZ.COPY` (R195), short header. -/
def execLzCopy (l : BitVec 5) (s : State) : Result := settle s (copyBody (shortHeader 0 l s))

/-- `LZ.FILL` (R196), short header. -/
def execLzFill (l : BitVec 5) (s : State) : Result := settle s (fillBody (shortHeader 1 l s))

/-- `LZ.WFILL` (R197), short header. -/
def execLzWFill (l : BitVec 5) (s : State) : Result := settle s (wfillBody (shortHeader 2 l s))

/-- `LZ.ZERO` (R198), short header. -/
def execLzZero (l : BitVec 5) (s : State) : Result := settle s (zeroBody (shortHeader 3 l s))

/-- `LZ.REP` (R206), short header. -/
def execLzRep (l : BitVec 5) (s : State) : Result := settle s (backReference repTransfer (shortHeader 4 l s))

/-- `LZ.BREV` (R207), short header. -/
def execLzBRev (l : BitVec 5) (s : State) : Result := settle s (backReference brevTransfer (shortHeader 5 l s))

/-- `LZ.BACK` (R208), short header. -/
def execLzBack (l : BitVec 5) (s : State) : Result := settle s (backReference backTransfer (shortHeader 6 l s))

/-- `LZ.COPY.L` (R195), long header. -/
def execLzCopyL (l : BitVec 10) (s : State) : Result := settle s (copyBody (longHeader 0 l s))

/-- `LZ.FILL.L` (R196), long header. -/
def execLzFillL (l : BitVec 10) (s : State) : Result := settle s (fillBody (longHeader 1 l s))

/-- `LZ.WFILL.L` (R197), long header. -/
def execLzWFillL (l : BitVec 10) (s : State) : Result := settle s (wfillBody (longHeader 2 l s))

/-- `LZ.ZERO.L` (R198), long header. -/
def execLzZeroL (l : BitVec 10) (s : State) : Result := settle s (zeroBody (longHeader 3 l s))

/-- `LZ.REP.L` (R206), long header. -/
def execLzRepL (l : BitVec 10) (s : State) : Result := settle s (backReference repTransfer (longHeader 4 l s))

/-- `LZ.BREV.L` (R207), long header. -/
def execLzBRevL (l : BitVec 10) (s : State) : Result := settle s (backReference brevTransfer (longHeader 5 l s))

/-- `LZ.BACK.L` (R208), long header. -/
def execLzBackL (l : BitVec 10) (s : State) : Result := settle s (backReference backTransfer (longHeader 6 l s))

/-- `LZ.ILL`, first byte `0xFC` or `0xFD` (R194, R199): malformed-header, after the second byte has been fetched. -/
def execLzIll (_l : BitVec 9) (s : State) : Result := settle s (.error (.raise .malformedHeader))

/-- `LZ.ILL`, first byte `0xFE` (R194, R199). -/
def execLzIllFe (_l : BitVec 8) (s : State) : Result := settle s (.error (.raise .malformedHeader))

/-- `LZ.END` (R210): the command loop ends with `G2_IP` just past the terminator; the layout follows (R193). -/
def execLzEnd (s : State) : Result := .next { s with g2Ip := s.g2Ip + 1, phase := .g2Layout }

/-- `LZ.ADDR.REL` (R203), one byte; the transfer of its command follows. -/
def execLzAddrRel (y : BitVec 7) (s : State) : Result :=
  .next { startRel y { s with g2Ip := s.g2Ip + 1 } with phase := .lzCopy }

/-- `LZ.ADDR.ABS` (R203), two bytes; the transfer of its command follows. -/
def execLzAddrAbs (y : BitVec 7) (a : BitVec 8) (s : State) : Result :=
  .next { startAbs y a { s with g2Ip := s.g2Ip + 2 } with phase := .lzCopy }

/-- `G2.PREFIX` (R190, R191). -/
def execG2Prefix (w h : BitVec 4) (c0 c1 c2 c3 : Color) (s : State) : Result :=
  settle s (loadPfx w h { e0 := c0, e1 := c1, e2 := c2, e3 := c3 } s)

end Sys2Proof.Machine
end

