-- ==== Sys2Proof/Machine/Sequencer.lean ====
section
/-! DEFINITION. The sequencer: fetching the next element of a stream at the cursor of its decoder (10_state.md R24, R36),
the phases that fetch nothing, and the element loop of `Gen1Decode()` and `Gen2Decode()` (R150, R157, R193, R194). -/

namespace Sys2Proof.Machine

/-! ## Fetch -/

/-- What the block reads next from the source, if its phase reads an element at all (R108, R114). -/
def fetchCtx (s : State) : Option Ctx :=
  match s.phase with
  | .g1Header => some .header
  | .g1Init => some .init
  | .g1Packet => if s.g1State = 0 then some .rle else some .data
  | .g1Mode => some .mode
  | .g2Prefix => some .pfx
  | .lzHeader => some .lz
  | .lzOperand => some .addr
  | .idle | .g1Post | .lzCopy | .g2Layout => none

/-- The unread bits of the source at the cursor of the decoder: `RD` for Gen1 (R24), `G2_IP` for Gen2 (R36), index 0 for the
14-byte block (R190). -/
def unread (c : Ctx) (s : State) : Bits :=
  match c with
  | .header | .init | .rle | .data | .mode => s.bitsFrom s.rdPos
  | .pfx => s.bitsFrom 0
  | .lz | .addr => s.bitsFrom (8 * s.g2Ip)
  | .command => natToBits 4 s.cmd.toNat

/-- The next stream element. -/
def fetch (c : Ctx) (s : State) : Decoded := decode c (unread c s)

/-- The fault of a header that the source cuts short (R152, D29, R279): both nibbles are there and one of them is a zero
that the policy rejects, which is tested before the primary-buffer bit is read; else truncated-input. -/
def shortHeaderFault (s : State) : ErrKind :=
  match takeNum 4 (unread .header s) with
  | none => .truncatedInput
  | some (w, bs) =>
    match takeNum 4 bs with
    | none => .truncatedInput
    | some (h, _) => if zeroDimension w h s then .malformedHeader else .truncatedInput

/-- What happens when no element can be read: a source cut short is a fault (R131, R192, R190); a source that does not begin
with `0xFF` has no 14-byte block and its commands begin at index 0 (R190). -/
def fetchFailed (c : Ctx) (e : DecodeError) (s : State) : Result :=
  match e with
  | .notPrefix => .next { s with g2Pfx := 0, g2Ip := 0, phase := .lzHeader }
  | .truncated =>
    match c with
    | .header => .next (s.stop (.raise (shortHeaderFault s)))
    | _ => .next (s.stop (.raise .truncatedInput))

/-- The phases that read no element. Idle: the block waits (R301). -/
def quietStep (s : State) : Result :=
  match s.phase with
  | .g1Post => settle s (g1Finish s)
  | .g2Layout => settle s (g2Finish s)
  | .lzCopy => settle s (pendingTransfer s)
  | _ => .next s

/-- One pass of a decode: the next element is fetched, decoded and run, or the phase does its work. -/
def elementStep (run : Instr → State → Result) (s : State) : Result :=
  match fetchCtx s with
  | none => quietStep s
  | some c =>
    match fetch c s with
    | .ok (i, _) => run i s
    | .error e => fetchFailed c e s

/-! ## The element loop -/

/-- The meaning of a stream element inside a decode. A host command is no stream element, and no place of a stream decodes
to one. -/
def streamMeaning (i : Instr) (s : State) : Result :=
  match i with
  | .g1Hdr w h p => Sys2Proof.Machine.execG1Hdr w h p s
  | .g1InitRle => Sys2Proof.Machine.execG1InitRle s
  | .g1InitData => Sys2Proof.Machine.execG1InitData s
  | .g1Run0 v => Sys2Proof.Machine.execG1Run0 v s
  | .g1Run1 v => Sys2Proof.Machine.execG1Run1 v s
  | .g1Run2 v => Sys2Proof.Machine.execG1Run2 v s
  | .g1Run3 v => Sys2Proof.Machine.execG1Run3 v s
  | .g1Run4 v => Sys2Proof.Machine.execG1Run4 v s
  | .g1Run5 v => Sys2Proof.Machine.execG1Run5 v s
  | .g1Run6 v => Sys2Proof.Machine.execG1Run6 v s
  | .g1Run7 v => Sys2Proof.Machine.execG1Run7 v s
  | .g1Run8 v => Sys2Proof.Machine.execG1Run8 v s
  | .g1Run9 v => Sys2Proof.Machine.execG1Run9 v s
  | .g1Run10 v => Sys2Proof.Machine.execG1Run10 v s
  | .g1Run11 v => Sys2Proof.Machine.execG1Run11 v s
  | .g1Run12 v => Sys2Proof.Machine.execG1Run12 v s
  | .g1Run13 v => Sys2Proof.Machine.execG1Run13 v s
  | .g1Run14 v => Sys2Proof.Machine.execG1Run14 v s
  | .g1Run15 v => Sys2Proof.Machine.execG1Run15 v s
  | .g1RunN k v => Sys2Proof.Machine.execG1RunN k v s
  | .g1Pair1 => Sys2Proof.Machine.execG1Pair1 s
  | .g1Pair2 => Sys2Proof.Machine.execG1Pair2 s
  | .g1Pair3 => Sys2Proof.Machine.execG1Pair3 s
  | .g1Switch => Sys2Proof.Machine.execG1Switch s
  | .g1Mode0 => Sys2Proof.Machine.execG1Mode0 s
  | .g1Mode2 => Sys2Proof.Machine.execG1Mode2 s
  | .g1Mode3 => Sys2Proof.Machine.execG1Mode3 s
  | .lzCopy l => Sys2Proof.Machine.execLzCopy l s
  | .lzFill l => Sys2Proof.Machine.execLzFill l s
  | .lzWFill l => Sys2Proof.Machine.execLzWFill l s
  | .lzZero l => Sys2Proof.Machine.execLzZero l s
  | .lzRep l => Sys2Proof.Machine.execLzRep l s
  | .lzBRev l => Sys2Proof.Machine.execLzBRev l s
  | .lzBack l => Sys2Proof.Machine.execLzBack l s
  | .lzCopyL l => Sys2Proof.Machine.execLzCopyL l s
  | .lzFillL l => Sys2Proof.Machine.execLzFillL l s
  | .lzWFillL l => Sys2Proof.Machine.execLzWFillL l s
  | .lzZeroL l => Sys2Proof.Machine.execLzZeroL l s
  | .lzRepL l => Sys2Proof.Machine.execLzRepL l s
  | .lzBRevL l => Sys2Proof.Machine.execLzBRevL l s
  | .lzBackL l => Sys2Proof.Machine.execLzBackL l s
  | .lzIll l => Sys2Proof.Machine.execLzIll l s
  | .lzIllFe l => Sys2Proof.Machine.execLzIllFe l s
  | .lzEnd => Sys2Proof.Machine.execLzEnd s
  | .lzAddrRel y => Sys2Proof.Machine.execLzAddrRel y s
  | .lzAddrAbs y a => Sys2Proof.Machine.execLzAddrAbs y a s
  | .g2Prefix w h c0 c1 c2 c3 => Sys2Proof.Machine.execG2Prefix w h c0 c1 c2 c3 s
  | .reset => .next s
  | .bcOpen => .next s
  | .bcRead => .next s
  | .bcWrite => .next s
  | .bcFlush => .next s
  | .g1Decode => .next s
  | .g2Decode => .next s
  | .cmdReserved0 => .next s
  | .cmdReserved6 => .next s
  | .cmdReserved7 => .next s
  | .cmdReservedA => .next s
  | .cmdReservedB => .next s
  | .cmdReservedC => .next s
  | .cmdReservedD => .next s
  | .cmdReservedE => .next s
  | .cmdReservedF => .next s

/-- The element loop, at most `n` passes, until the block is idle again. -/
def decodeLoop : Nat → State → Result
  | 0, s => if s.phase = .idle then .next s else .fault .sequencerBound
  | n + 1, s =>
    if s.phase = .idle then .next s
    else
      match elementStep streamMeaning s with
      | .next s => decodeLoop n s
      | .fault f => .fault f
      | .refused r => .refused r

/-- A bound on the passes of one decode: an element takes at least one source bit, and three phases take none
(R157, R194). -/
def loopBound (s : State) : Nat := 8 * s.srcLen + 4

/-! ## The start of a decode -/

/-- The TileAssembler half of the re-initialisation (R48). -/
def clearAssembler (s : State) : State :=
  { s with
    dlW := 0, dlH := 0, phW := 0, phH := 0, colOff := 0, rowOff := 0
    p0 := [], p1 := [], pix := [], raster := []
    st := s.st.begin }

/-- The start of `G1.DECODE` (R48, R257). -/
def g1Begin (s : State) : State :=
  { clearAssembler s with
    rdByte := 0, rdBit := 0
    g1Tw := 0, g1Th := 0, g1Primary := 0, g1Mode := 0, g1State := 0, g1Emit := 0, g1Total := 0, g1Cur := 0, ds := 0
    bufB := [], bufC := []
    phase := .g1Header }

/-- The start of `G2.DECODE` (R48, R258). -/
def g2Begin (s : State) : State :=
  { clearAssembler s with
    g2Ip := 0, bufD := [], g2Cmd := 0, g2Len := 0, g2Start := 0, g2Long := 0, g2Pfx := 0, g2Pw := 0, g2Ph := 0
    g2Tw := 0, g2Th := 0
    phase := .g2Prefix }

end Sys2Proof.Machine
end

