-- ==== Sys2Proof/Machine/Commands.lean ====
section
/-! DEFINITION. The host commands (44_host_commands.md R250 to R263): the common prologue (R253) and the meaning of every
code of `CMD`, reserved codes included. A command is one atomic transition (R251). -/

namespace Sys2Proof.Machine

/-- Whether `SRC_LEN > SRC_CAP` (R252). -/
def sourceTooLong (s : State) : Bool :=
  match s.params.srcCap with
  | none => false
  | some c => decide (c < s.srcLen)

/-- The reserved codes (R111, R113). -/
def reservedCode (c : BitVec 4) : Bool := c == 0 || c == 6 || c == 7 || decide (10 ≤ c.toNat)

/-- An override that is enabled with a zero dimension (R256). -/
def badOverride (s : State) : Bool := s.ovrEn && (s.ovrW == 0 || s.ovrH == 0)

/-- The common prologue (R253): the first test that fires refuses the command. -/
def prologue (c : BitVec 4) (s : State) : Option RefReason :=
  if c = 1 then none
  else if s.st.stuck then some .afterFault
  else if reservedCode c then some .badCmd
  else if (c == 3 || c == 8 || c == 9) && sourceTooLong s then some .capacity
  else if (c == 3 || c == 4) && decide (Config.fieldMax < s.arg1.toNat) then some .badWidth
  else if (c == 8 || c == 9) && badOverride s then some .badOverride
  else none

/-- A command of code `c`: the prologue, then its body. -/
def command (c : BitVec 4) (body : State → Result) (s : State) : Result :=
  match prologue c s with
  | some r => .next (s.stop (.refuse r))
  | none => body s

/-- `BC.READ` (R260): `RES <- zext_16(ReadBits(n))`, `n = ARG1`. -/
def readField (s : State) : Op State :=
  match readBits s.arg1.toNat s with
  | .error e => .error e
  | .ok (v, s) => .ok { s with res := .ofNat 16 v }

/-- `BC.WRITE` (R261): `WriteBits(v, n)`, `v = ARG0`, `n = ARG1`. -/
def writeField (s : State) : Op State := writeBits s.arg0.toNat s.arg1.toNat s

/-- The body of a decode: from its start state, element after element, until the block is idle (R150, R193). -/
def runDecode (start : State → State) (s : State) : Result := decodeLoop (loopBound s) (start s)

/-! ## Meanings -/

/-- `RESET` (R255): always accepted. -/
def execReset (s : State) : Result := command 0x1 (fun s => .next s.afterReset) s

/-- `BC.OPEN` (R259). -/
def execBcOpen (s : State) : Result := command 0x2 (fun s => .next (openCursors s)) s

/-- `BC.READ` (R260). -/
def execBcRead (s : State) : Result := command 0x3 (fun s => settle s (readField s)) s

/-- `BC.WRITE` (R261). -/
def execBcWrite (s : State) : Result := command 0x4 (fun s => settle s (writeField s)) s

/-- `BC.FLUSH` (R262). -/
def execBcFlush (s : State) : Result := command 0x5 (fun s => settle s (flush s)) s

/-- `G1.DECODE` (R257): the whole decode. -/
def execG1Decode (s : State) : Result := command 0x8 (runDecode g1Begin) s

/-- `G2.DECODE` (R258): the whole decode. -/
def execG2Decode (s : State) : Result := command 0x9 (runDecode g2Begin) s

/-- The reserved code `0x0` (R253): refusal `BAD_CMD`, or `AFTER_FAULT` when that test fires first. -/
def execCmdReserved0 (s : State) : Result := command 0x0 .next s

/-- The reserved code `0x6` (R253): refusal `BAD_CMD`, or `AFTER_FAULT` when that test fires first. -/
def execCmdReserved6 (s : State) : Result := command 0x6 .next s

/-- The reserved code `0x7` (R253): refusal `BAD_CMD`, or `AFTER_FAULT` when that test fires first. -/
def execCmdReserved7 (s : State) : Result := command 0x7 .next s

/-- The reserved code `0xA` (R253): refusal `BAD_CMD`, or `AFTER_FAULT` when that test fires first. -/
def execCmdReservedA (s : State) : Result := command 0xA .next s

/-- The reserved code `0xB` (R253): refusal `BAD_CMD`, or `AFTER_FAULT` when that test fires first. -/
def execCmdReservedB (s : State) : Result := command 0xB .next s

/-- The reserved code `0xC` (R253): refusal `BAD_CMD`, or `AFTER_FAULT` when that test fires first. -/
def execCmdReservedC (s : State) : Result := command 0xC .next s

/-- The reserved code `0xD` (R253): refusal `BAD_CMD`, or `AFTER_FAULT` when that test fires first. -/
def execCmdReservedD (s : State) : Result := command 0xD .next s

/-- The reserved code `0xE` (R253): refusal `BAD_CMD`, or `AFTER_FAULT` when that test fires first. -/
def execCmdReservedE (s : State) : Result := command 0xE .next s

/-- The reserved code `0xF` (R253): refusal `BAD_CMD`, or `AFTER_FAULT` when that test fires first. -/
def execCmdReservedF (s : State) : Result := command 0xF .next s

end Sys2Proof.Machine
end

