-- ==== Sys2Proof/Machine/Dispatch.lean ====
section
/-! DEFINITION. The meaning of every instruction: one arm for each constructor of `Instr`. -/

namespace Sys2Proof.Machine

def exec (i : Instr) (s : State) : Host.Outcome State Fault Refusal :=
  match i with
  | .g1Hdr w h p => Sys2Proof.Machine.execG1Hdr w h p s
  | .g1InitRle => Sys2Proof.Machine.execG1InitRle s
  | .g1InitData => Sys2Proof.Machine.execG1InitData s
  | .g1Run0 v => Sys2Proof.Machine.execG1Run0 v s
  | .g1Run1 v => Sys2Proof.Machine.execG1Run1 v s
  | .g1Run2 v => Sys2Proof.Machine.execG1Run2 v s
  | .g1Run3 v => Sys2Proof.Machine.execG1Run3 v s
  | .g1Run4 v => Sys2Proof.Machine.execG1Run4 v s
  | .g1Run5 v => Sys2Proof.Machine.execG1Run5 v s
  | .g1Run6 v => Sys2Proof.Machine.execG1Run6 v s
  | .g1Run7 v => Sys2Proof.Machine.execG1Run7 v s
  | .g1Run8 v => Sys2Proof.Machine.execG1Run8 v s
  | .g1Run9 v => Sys2Proof.Machine.execG1Run9 v s
  | .g1Run10 v => Sys2Proof.Machine.execG1Run10 v s
  | .g1Run11 v => Sys2Proof.Machine.execG1Run11 v s
  | .g1Run12 v => Sys2Proof.Machine.execG1Run12 v s
  | .g1Run13 v => Sys2Proof.Machine.execG1Run13 v s
  | .g1Run14 v => Sys2Proof.Machine.execG1Run14 v s
  | .g1Run15 v => Sys2Proof.Machine.execG1Run15 v s
  | .g1RunN k v => Sys2Proof.Machine.execG1RunN k v s
  | .g1Pair1 => Sys2Proof.Machine.execG1Pair1 s
  | .g1Pair2 => Sys2Proof.Machine.execG1Pair2 s
  | .g1Pair3 => Sys2Proof.Machine.execG1Pair3 s
  | .g1Switch => Sys2Proof.Machine.execG1Switch s
  | .g1Mode0 => Sys2Proof.Machine.execG1Mode0 s
  | .g1Mode2 => Sys2Proof.Machine.execG1Mode2 s
  | .g1Mode3 => Sys2Proof.Machine.execG1Mode3 s
  | .lzCopy l => Sys2Proof.Machine.execLzCopy l s
  | .lzFill l => Sys2Proof.Machine.execLzFill l s
  | .lzWFill l => Sys2Proof.Machine.execLzWFill l s
  | .lzZero l => Sys2Proof.Machine.execLzZero l s
  | .lzRep l => Sys2Proof.Machine.execLzRep l s
  | .lzBRev l => Sys2Proof.Machine.execLzBRev l s
  | .lzBack l => Sys2Proof.Machine.execLzBack l s
  | .lzCopyL l => Sys2Proof.Machine.execLzCopyL l s
  | .lzFillL l => Sys2Proof.Machine.execLzFillL l s
  | .lzWFillL l => Sys2Proof.Machine.execLzWFillL l s
  | .lzZeroL l => Sys2Proof.Machine.execLzZeroL l s
  | .lzRepL l => Sys2Proof.Machine.execLzRepL l s
  | .lzBRevL l => Sys2Proof.Machine.execLzBRevL l s
  | .lzBackL l => Sys2Proof.Machine.execLzBackL l s
  | .lzIll l => Sys2Proof.Machine.execLzIll l s
  | .lzIllFe l => Sys2Proof.Machine.execLzIllFe l s
  | .lzEnd => Sys2Proof.Machine.execLzEnd s
  | .lzAddrRel y => Sys2Proof.Machine.execLzAddrRel y s
  | .lzAddrAbs y a => Sys2Proof.Machine.execLzAddrAbs y a s
  | .g2Prefix w h c0 c1 c2 c3 => Sys2Proof.Machine.execG2Prefix w h c0 c1 c2 c3 s
  | .reset => Sys2Proof.Machine.execReset s
  | .bcOpen => Sys2Proof.Machine.execBcOpen s
  | .bcRead => Sys2Proof.Machine.execBcRead s
  | .bcWrite => Sys2Proof.Machine.execBcWrite s
  | .bcFlush => Sys2Proof.Machine.execBcFlush s
  | .g1Decode => Sys2Proof.Machine.execG1Decode s
  | .g2Decode => Sys2Proof.Machine.execG2Decode s
  | .cmdReserved0 => Sys2Proof.Machine.execCmdReserved0 s
  | .cmdReserved6 => Sys2Proof.Machine.execCmdReserved6 s
  | .cmdReserved7 => Sys2Proof.Machine.execCmdReserved7 s
  | .cmdReservedA => Sys2Proof.Machine.execCmdReservedA s
  | .cmdReservedB => Sys2Proof.Machine.execCmdReservedB s
  | .cmdReservedC => Sys2Proof.Machine.execCmdReservedC s
  | .cmdReservedD => Sys2Proof.Machine.execCmdReservedD s
  | .cmdReservedE => Sys2Proof.Machine.execCmdReservedE s
  | .cmdReservedF => Sys2Proof.Machine.execCmdReservedF s

end Sys2Proof.Machine
end

