-- ==== Sys2Proof/Machine/Step.lean ====
section
/-! DEFINITION. One step of the block, and how a table word is placed where the next step fetches. -/

namespace Sys2Proof.Machine

/-- One step. Between commands the block takes the command the host wrote to `CMD`, as one atomic transition (R250, R251), or
waits for one (R301). Inside a decode it takes the next element (R150, R193). -/
def step (s : State) : Host.Outcome State Fault Refusal :=
  if s.phase = .idle then
    if s.issued then exec (decodeCommand s.cmd) { s with issued := false } else .next s
  else elementStep exec s

/-- The phase in which the block reads an element at a place of a stream. -/
def ctxPhase (c : Ctx) : Phase :=
  match c with
  | .header => .g1Header
  | .init => .g1Init
  | .rle | .data => .g1Packet
  | .mode => .g1Mode
  | .pfx => .g2Prefix
  | .lz => .lzHeader
  | .addr => .lzOperand
  | .command => .idle

/-- The source holding the image of a table word from index 0, with both cursors at its start, and the sequencer at the place
where the word is read. -/
def State.atElement (c : Ctx) (nbits w : Nat) (s : State) : State :=
  { s with
    src := Memory.ofBytes 0 (tableImage nbits w), srcLen := imageBytes
    rdByte := 0, rdBit := 0, g2Ip := 0
    phase := ctxPhase c }

/-- An image of 15 by 15 tiles whose first plane is about to be filled, so that a packet element is read at all (R157). -/
def State.inPlane (st : BitVec 1) (s : State) : State :=
  { s with
    g1Tw := 15, g1Th := 15, g1Total := 7200, g1Emit := 0, g1State := st
    bufB := List.replicate 1800 0#8, bufC := List.replicate 1800 0#8 }

/-- `s` with a table word placed where the next step fetches its instruction: in `CMD`, or in the source with the decoder at
the place that reads it (log entry 12). -/
def State.withFetchWord (s : State) (nbits w : Nat) : State :=
  match tableCtx nbits w with
  | .command => { s with cmd := .ofNat 4 w, issued := true, phase := .idle }
  | .rle => (s.atElement .rle nbits w).inPlane 0
  | .data => (s.atElement .data nbits w).inPlane 1
  | .header => s.atElement .header nbits w
  | .init => s.atElement .init nbits w
  | .mode => s.atElement .mode nbits w
  | .pfx => s.atElement .pfx nbits w
  | .lz => s.atElement .lz nbits w
  | .addr => s.atElement .addr nbits w

end Sys2Proof.Machine
end

