-- ==== Sys2Proof/Machine/HostPort.lean ====
section
/-! DEFINITION. What the host can do to the block between commands (10_state.md R42, R43, R46; R251, R263): the register and memory
writes, the reads, and a command as one transition. They are inputs and observations, no instructions; a run alternates them with `step`. -/

namespace Sys2Proof.Machine

/-- The host acts only between commands (R251): the block is idle and has no command to take. -/
def hostTurn (s : State) : Bool := decide (s.phase = .idle) && !s.issued

/-- A host write, which has no effect during a command (U26: it cannot happen). -/
def hostWrite (f : State → State) (s : State) : State := if hostTurn s then f s else s

/-- What the host sees between commands only (R46, R251): nothing while a command is issued or under way. -/
def whenTurn {α : Type} (v : State → Option α) (s : State) : Option α := if hostTurn s then v s else none

/-- The host writes `SRC[a]` (R46), at any index. The byte stays until the host writes it again or a `RESET`, also while `SRC_LEN`
is at or below its index (log entry 31). -/
def hostWriteSrc (a : Nat) (v : Byte) : State → State := hostWrite (fun s => { s with src := Memory.write s.src a v })

/-- The host writes `SRC_LEN` (R21, R46). Bytes at or above it do not exist for the block (R62), but the memory keeps them: the spec does
not say what they hold when `SRC_LEN` grows again (log entry 31). -/
def hostWriteSrcLen (n : Nat) : State → State := hostWrite (fun s => { s with srcLen := n })

/-- The host writes `CFG`; reserved bits ignore the write (R42). -/
def hostWriteCfg (v : BitVec 16) : State → State := hostWrite (fun s => { s with cfg := v &&& cfgMask })

/-- The host writes `PAL[i]` (R41, R46). -/
def hostWritePal (i : Pixel) (c : Color) : State → State := hostWrite (fun s => { s with pal := s.pal.set i c })

/-- The host writes `ARG0` (R43). -/
def hostWriteArg0 (v : BitVec 16) : State → State := hostWrite (fun s => { s with arg0 := v })

/-- The host writes `ARG1` (R43). -/
def hostWriteArg1 (v : BitVec 5) : State → State := hostWrite (fun s => { s with arg1 := v })

/-- The host writes `CMD`, which issues the command of that code (R43, R250). -/
def hostWriteCmd (c : BitVec 4) : State → State := hostWrite (fun s => { s with cmd := c, issued := true })

/-- The host loads a source: it writes `SRC[0 .. len-1]` and `SRC_LEN` (R263, R304 step 2), and no other byte. MODEL'S CHOICE: what it
wrote earlier at index `len` and up stays, as under `hostWriteSrc` and `hostWriteSrcLen`; the spec is silent (log entry 31). -/
def hostLoad (bs : List Byte) : State → State :=
  hostWrite (fun s => { s with src := Memory.load s.src 0 bs, srcLen := bs.length })

/-- A command as the host sees it (R250, R251): the write of `CMD` and the command it issues are one transition, after which the state
is the command's result. -/
def hostCommand (c : BitVec 4) (s : State) : Result := step (hostWriteCmd c s)

/-- The registers that the host may read between commands at any time (R46). -/
inductive HostReg where
  | srcLen | rdByte | rdBit | snkLen | g1Tw | g1Th | g1Primary | g1Mode
  | g2Ip | dLen | g2Pfx | g2Tw | g2Th | cfg | res | st
  deriving DecidableEq, Repr

/-- The registers that the host may read while `ST.DONE = 1` (R40, R46). -/
inductive HostDoneReg where
  | dlW | dlH | phW | phH | colOff | rowOff
  deriving DecidableEq, Repr

/-- A host read of a register (R46). `WR_ACC`, `WR_CNT`, `CMD`, `ARG0`, `ARG1` are not host-readable (R28, R43). -/
def hostRead (r : HostReg) : State → Option Nat :=
  whenTurn fun s => some <|
    match r with
    | .srcLen => s.srcLen
    | .rdByte => s.rdByte
    | .rdBit => s.rdBit.toNat
    | .snkLen => s.snkLen
    | .g1Tw => s.g1Tw.toNat
    | .g1Th => s.g1Th.toNat
    | .g1Primary => s.g1Primary.toNat
    | .g1Mode => s.g1Mode.toNat
    | .g2Ip => s.g2Ip
    | .dLen => s.dLen
    | .g2Pfx => s.g2Pfx.toNat
    | .g2Tw => s.g2Tw
    | .g2Th => s.g2Th
    | .cfg => (s.cfg &&& cfgMask).toNat
    | .res => s.res.toNat
    | .st => s.st.word.toNat

/-- What the host sees between commands and only while `ST.DONE = 1` (R46, R67, R251). -/
def whenDone {α : Type} (v : State → Option α) : State → Option α := whenTurn (fun s => if s.st.done then v s else none)

/-- A host read of a result register (R46). -/
def hostReadDone (r : HostDoneReg) : State → Option Nat :=
  whenDone fun s =>
    match r with
    | .dlW => some s.dlW
    | .dlH => some s.dlH
    | .phW => some s.phW
    | .phH => some s.phH
    | .colOff => some s.colOff
    | .rowOff => some s.rowOff

/-- A host read of `PAL[i]` (R46). -/
def hostReadPal (i : Pixel) : State → Option Color := whenTurn (fun s => some (s.pal.get i))

/-- A host read of `SRC[a]`, `a < SRC_LEN` (R46, R62). -/
def hostReadSrc (a : Nat) : State → Option Byte := whenTurn (fun s => if a < s.srcLen then some (s.srcByte a) else none)

/-- A host read of `SNK[a]`, `a < SNK_LEN` (R46). -/
def hostReadSnk (a : Nat) : State → Option Byte := whenTurn (fun s => s.snk[a]?)

/-- A host read of `D[a]`, `a < D_LEN` (R46). -/
def hostReadD (a : Nat) : State → Option Byte := whenTurn (fun s => s.bufD[a]?)

/-- A host read of `P0[a]` (R46, R67). -/
def hostReadP0 (a : Nat) : State → Option Byte := whenDone (fun s => s.p0[a]?)

/-- A host read of `P1[a]` (R46, R67). -/
def hostReadP1 (a : Nat) : State → Option Byte := whenDone (fun s => s.p1[a]?)

/-- A host read of element `a` of `PIX` (R46, R67). -/
def hostReadPix (a : Nat) : State → Option Pixel := whenDone (fun s => s.pix[a]?)

/-- A host read of element `a` of `RASTER` (R46, R67). -/
def hostReadRaster (a : Nat) : State → Option Color := whenDone (fun s => s.raster[a]?)

end Sys2Proof.Machine
end

