-- ==== Sys2Proof/Safety.lean ====
section
/-! DEFINITION. The terms the statements use: the invariant of the block, what a fault or a refusal leaves, and the spec's own
formulas for the parts of an instruction, written out from its rules and not from the meanings. -/

namespace Sys2Proof

open Machine

/-! ## The invariant -/

/-- A tile dimension register: 0 before a header, else 1 to 15, or 32 (R29). -/
def LegalDim (d : BitVec 6) : Prop := d.toNat ≤ 15 ∨ d.toNat = 32

/-- What holds while no fault and no refusal has been recorded; after one these registers are unspecified (R50). -/
structure Live (s : State) : Prop where
  /-- R24: `RD_POS <= 8 * SRC_LEN`. -/
  reader : s.rdPos ≤ 8 * s.srcLen
  /-- R25: bits `7 - WR_CNT` down to 0 of `WR_ACC` are zero. -/
  writer : ∀ i, i < 8 - s.wrCnt.toNat → s.wrAcc.getLsbD i = false
  /-- R31: the value 1 of `G1_MODE` never occurs. -/
  mode : s.g1Mode ≠ 1
  /-- R29. -/
  dims : LegalDim s.g1Tw ∧ LegalDim s.g1Th
  /-- R33: `G1_TOTAL = G1_TW * G1_TH * 32`, `G1_EMIT` in `0 .. G1_TOTAL`. -/
  budget : s.g1Total = s.g1Tw.toNat * s.g1Th.toNat * 32 ∧ s.g1Emit ≤ s.g1Total
  /-- R48: a `G1.DECODE` starts with `G1_EMIT = 0`. -/
  start : s.phase = .g1Header → s.g1Emit = 0
  /-- R157: an element of a plane is read only while the plane is short. -/
  packet : s.phase = .g1Packet → s.g1Emit < s.g1Total
  /-- R60: `B` and `C` hold `G1_TW * G1_TH * 8` bytes. -/
  planes : s.bufB.length = s.g1Tw.toNat * s.g1Th.toNat * 8 ∧ s.bufC.length = s.g1Tw.toNat * s.g1Th.toNat * 8
  /-- R36: `G2_IP` is in `0 .. SRC_LEN`. -/
  cursor : s.g2Ip ≤ s.srcLen
  /-- R60, R231, R67: the sizes of the result, valid while `ST.DONE = 1`. -/
  result : s.st.done = true →
    s.dlW ≤ s.phW ∧ s.dlH ≤ s.phH ∧ s.p0.length = s.phW * s.phH * 8 ∧ s.p1.length = s.phW * s.phH * 8 ∧
    s.pix.length = s.phH * 8 * (s.phW * 8) ∧ s.raster.length = s.pix.length

/-- The invariant of the block. -/
structure Inv (s : State) : Prop where
  /-- The source memory has its canonical form. -/
  memory : Memory.wf s.src = true
  /-- R44, R271: `ERR_KIND` is 0 to 4, and 0 exactly while `ERR` is 0. -/
  errKind : s.st.errKind.toNat ≤ 4 ∧ (s.st.err = false ↔ s.st.errKind = 0)
  /-- R44, R280: `REF_REASON` is 0 to 6, and 0 exactly while `REFUSED` is 0. -/
  refReason : s.st.refReason.toNat ≤ 6 ∧ (s.st.refused = false ↔ s.st.refReason = 0)
  /-- R42: the reserved bits of `CFG` are 0. -/
  cfg : s.cfg &&& ~~~cfgMask = 0
  /-- R44: `DONE` never stands beside a fault or a refusal. -/
  done : s.st.done = true → s.st.stuck = false
  /-- Inside a decode no fault or refusal is recorded and the decode is not done (R48, R253). -/
  decoding : s.phase ≠ .idle → s.st.stuck = false ∧ s.st.done = false
  /-- The rest holds while the block is not stuck. -/
  live : s.st.stuck = false → Live s

/-! ## Faults and refusals -/

/-- What no operation but a host write or `RESET` changes (R21, R42, R46, R62; parameters R20). -/
def SameInputs (s t : State) : Prop :=
  t.src = s.src ∧ t.srcDraw = s.srcDraw ∧ t.srcLen = s.srcLen ∧ t.cfg = s.cfg ∧ t.cmd = s.cmd ∧ t.arg0 = s.arg0 ∧ t.arg1 = s.arg1 ∧ t.params = s.params

/-- `raise` with the error code `k` (R271, R45): `ST` is defined, the kind is the first fault's, the inputs stay, the bytes emitted to
`SNK` before stay (R63, R50), the block is idle. -/
def Faulted (k : BitVec 3) (s t : State) : Prop :=
  t.st = { done := false, err := true, refused := s.st.refused
           errKind := if s.st.err then s.st.errKind else k, refReason := s.st.refReason } ∧
  SameInputs s t ∧ s.snk <+: t.snk ∧ t.phase = .idle

/-- `refuse` with the reason code `r` (R280, R45): `ST` alone is defined, the reason is the first refusal's. -/
def Refused (r : BitVec 4) (s t : State) : Prop :=
  t.st = { done := false, err := s.st.err, refused := true
           errKind := s.st.errKind, refReason := if s.st.refused then s.st.refReason else r } ∧
  SameInputs s t

/-! ## Parts of instructions -/

/-- The prefix count and the suffix value of a run (R96). -/
def runParts (i : Instr) : Option (Nat × Nat) :=
  match i with
  | .g1Run0 v => some (0, v.toNat)
  | .g1Run1 v => some (1, v.toNat)
  | .g1Run2 v => some (2, v.toNat)
  | .g1Run3 v => some (3, v.toNat)
  | .g1Run4 v => some (4, v.toNat)
  | .g1Run5 v => some (5, v.toNat)
  | .g1Run6 v => some (6, v.toNat)
  | .g1Run7 v => some (7, v.toNat)
  | .g1Run8 v => some (8, v.toNat)
  | .g1Run9 v => some (9, v.toNat)
  | .g1Run10 v => some (10, v.toNat)
  | .g1Run11 v => some (11, v.toNat)
  | .g1Run12 v => some (12, v.toNat)
  | .g1Run13 v => some (13, v.toNat)
  | .g1Run14 v => some (14, v.toNat)
  | .g1Run15 v => some (15, v.toNat)
  | .g1RunN k v => some (k, v)
  | _ => none

/-- The value of a data pair (R97). -/
def pairValue (i : Instr) : Option (BitVec 2) :=
  match i with
  | .g1Pair1 => some 1
  | .g1Pair2 => some 2
  | .g1Pair3 => some 3
  | _ => none

/-- The mode number and the width of a mode field (R98). -/
def modeParts (i : Instr) : Option (BitVec 2 × Nat) :=
  match i with
  | .g1Mode0 => some (0, 1)
  | .g1Mode2 => some (2, 2)
  | .g1Mode3 => some (3, 2)
  | _ => none

/-- The header of an LZ3 command: command number, length, header bytes, and whether it is long (R102, R103). -/
structure LzForm where
  cmd : BitVec 3
  len : Nat
  bytes : Nat
  long : BitVec 1
  deriving DecidableEq, Repr

/-- The header fields of the fourteen LZ3 command rows (R102, R103, R114). -/
def lzForm (i : Instr) : Option LzForm :=
  match i with
  | .lzCopy l => some ⟨0, l.toNat + 1, 1, 0⟩
  | .lzFill l => some ⟨1, l.toNat + 1, 1, 0⟩
  | .lzWFill l => some ⟨2, l.toNat + 1, 1, 0⟩
  | .lzZero l => some ⟨3, l.toNat + 1, 1, 0⟩
  | .lzRep l => some ⟨4, l.toNat + 1, 1, 0⟩
  | .lzBRev l => some ⟨5, l.toNat + 1, 1, 0⟩
  | .lzBack l => some ⟨6, l.toNat + 1, 1, 0⟩
  | .lzCopyL l => some ⟨0, l.toNat + 1, 2, 1⟩
  | .lzFillL l => some ⟨1, l.toNat + 1, 2, 1⟩
  | .lzWFillL l => some ⟨2, l.toNat + 1, 2, 1⟩
  | .lzZeroL l => some ⟨3, l.toNat + 1, 2, 1⟩
  | .lzRepL l => some ⟨4, l.toNat + 1, 2, 1⟩
  | .lzBRevL l => some ⟨5, l.toNat + 1, 2, 1⟩
  | .lzBackL l => some ⟨6, l.toNat + 1, 2, 1⟩
  | _ => none

/-- The state with a command's header taken: `G2_IP` past it, `G2_CMD`, `G2_LEN`, `G2_LONG` set (R194). -/
def headed (f : LzForm) (s : State) : State :=
  { s with g2Ip := s.g2Ip + f.bytes, g2Cmd := f.cmd, g2Len := f.len, g2Long := f.long }

/-- Room in `D` for `n` more bytes (R65, D10). -/
def room (s : State) (n : Nat) : Prop := ∀ c, s.params.dCap = some c → s.bufD.length + n ≤ c

/-- The `n` source bytes from index `a` on. -/
def srcBytes (s : State) (a n : Nat) : List Byte := (List.range n).map (fun k => s.srcByte (a + k))

/-- The bytes of the address operand at source index `a` (R105). -/
def operandLen (s : State) (a : Nat) : Nat := if 128 ≤ (s.srcByte a).toNat then 1 else 2

/-- The start that the address operand at source index `a` gives (R203). -/
def operandStart (s : State) (a : Nat) : Int :=
  if 128 ≤ (s.srcByte a).toNat then (s.bufD.length : Int) - ((s.srcByte a).toNat - 128 : Nat) - 1
  else ((s.srcByte a).toNat * 256 + (s.srcByte (a + 1)).toNat : Nat)

/-- The count of operand bytes of an LZ3 command at source index `a` (R104). -/
def operandBytes (f : LzForm) (s : State) (a : Nat) : Nat :=
  match f.cmd.toNat with
  | 0 => f.len
  | 1 => 1
  | 2 => 2
  | 3 => 0
  | _ => operandLen s a

/-- The tile dimension a 4-bit field stands for, if the policy accepts it (R152). -/
def dimValue (lenient : Bool) (n : BitVec 4) : Option Nat :=
  if n = 0 then (if lenient then some 32 else none) else some n.toNat

/-! ## Bit streams and planes -/

/-- The bits of a byte written before its `n` pending ones are complete: the top `n` bits (R25). -/
def pendingBits (acc : Byte) (n : Nat) : Bits := (natToBits 8 acc.toNat).take n

/-- Everything written so far: the bits in the sink, then the pending ones (R27, R28). -/
def writtenBits (s : State) : Bits := bytesToBits s.snk ++ pendingBits s.wrAcc s.wrCnt.toNat

/-- Writing a list of fields, each a value and a width (R140). -/
def writeFields : List (Nat × Nat) → State → Op State
  | [], s => .ok s
  | (v, n) :: fs, s =>
    match writeBits v n s with
    | .error e => .error e
    | .ok s => writeFields fs s

/-- Reading fields of the given widths (R140). -/
def readFields : List Nat → State → Op (List Nat × State)
  | [], s => .ok ([], s)
  | n :: ns, s =>
    match readBits n s with
    | .error e => .error e
    | .ok (v, s) =>
      match readFields ns s with
      | .error e => .error e
      | .ok (vs, s) => .ok (v :: vs, s)

/-- The state whose source is the given bytes and whose reader is at the first bit. -/
def reading (bs : List Byte) (s : State) : State :=
  { s with src := Memory.ofBytes 0 bs, srcLen := bs.length, rdByte := 0, rdBit := 0 }

/-- The closed form of the delta-decode of one byte (R168): `b xor (b >> 1) xor ... xor (b >> 7)`. -/
def parityByte (b : Byte) : Byte :=
  b ^^^ (b >>> 1) ^^^ (b >>> 2) ^^^ (b >>> 3) ^^^ (b >>> 4) ^^^ (b >>> 5) ^^^ (b >>> 6) ^^^ (b >>> 7)

/-- No `G2.DECODE` under way has written `PAL` from the block of its source (R41, R191). -/
def PaletteUntouched (s : State) : Prop := s.phase.inG2 = false ∨ s.g2Pfx = 0

/-- The parity of pixels `a .. x` of a pixel row of a plane (R168). -/
def rowParity (plane : List Byte) (rows a x y : Nat) : Bool :=
  (List.range (x + 1 - a)).foldl (fun p j => p ^^ planeBit plane rows (a + j) y) false

/-! ## When a command is accepted, and where a result stands -/

/-- `SRC_LEN <= SRC_CAP` (R252). -/
def sourceFits (s : State) : Prop := ∀ c, s.params.srcCap = some c → s.srcLen ≤ c

/-- The override, when it is enabled, has no zero (R256). -/
def overrideOk (s : State) : Prop := s.ovrEn = true → s.ovrW ≠ 0 ∧ s.ovrH ≠ 0

/-- A decode command passes the prologue (R253). -/
def decodeAccepted (s : State) : Prop := s.st.stuck = false ∧ sourceFits s ∧ overrideOk s

/-- The invariant of `WR_ACC` (R25): below the pending bits it is zero. -/
def writerClean (s : State) : Prop := ∀ i, i < 8 - s.wrCnt.toNat → s.wrAcc.getLsbD i = false

/-- Room in `SNK` for `n` more bytes (R63, D10). -/
def sinkRoom (s : State) (n : Nat) : Prop := ∀ c, s.params.snkCap = some c → s.snk.length + n ≤ c

/-- Where a sub-stream stands once `emit` pairs are in the plane (R157, R162, R150). -/
def planePhase (s : State) (emit : Nat) : Phase :=
  if emit < s.g1Total then .g1Packet else if s.g1Cur = s.g1Primary then .g1Mode else .g1Post

/-- The physical size (R230) for a declared size of `w` by `h` tiles. -/
def physicalSize (gen1 : Bool) (s : State) (w h : Nat) : Nat × Nat :=
  if gen1 = true ∧ s.cfg.getLsbD 2 = true then ((s.cfg.extractLsb' 4 4).toNat, (s.cfg.extractLsb' 8 4).toNat)
  else if s.cfg.getLsbD 1 = true then (7, 7)
  else (w, h)

/-- The index in `PIX` of the physical pixel that shows declared pixel `(x, y)` (R233, R236). -/
def shownAt (s : State) (x y : Nat) : Nat := (y + 8 * s.rowOff) * (s.phW * 8) + (x + 8 * s.colOff)

/-- What a finished decode leaves in the TileAssembler (R230 to R240): declared and physical size, offsets, the index of every
declared pixel, index 0 everywhere else, and every colour looked up in `PAL`. -/
structure Shows (gen1 : Bool) (s t : State) (w h : Nat) (index : Nat → Nat → Pixel) : Prop where
  done : t.st = { s.st with done := true }
  idle : t.phase = .idle
  declared : t.dlW = w ∧ t.dlH = h
  physical : (t.phW, t.phH) = physicalSize gen1 s w h
  offsets : t.colOff = (t.phW - w + 1) / 2 ∧ t.rowOff = t.phH - h
  size : t.p0.length = t.phW * t.phH * 8 ∧ t.p1.length = t.phW * t.phH * 8 ∧ t.pix.length = t.phH * 8 * (t.phW * 8)
  inside : ∀ x y, x < 8 * w → y < 8 * h → t.pix[shownAt t x y]? = some (index x y)
  outside : ∀ x y, x < 8 * t.phW → y < 8 * t.phH →
    ¬(8 * t.colOff ≤ x ∧ x < 8 * (t.colOff + w) ∧ 8 * t.rowOff ≤ y) → t.pix[y * (t.phW * 8) + x]? = some 0
  colours : t.raster = t.pix.map t.pal.get

/-! ## Gen1 streams -/

/-- The pairs that a list of elements puts into a plane with room for `n` more, from state `st` (R157): a run gives zero
pairs, cut to the room in lenient mode (R160); a pair gives itself; the switch gives none. `none` when the elements do not fill
the plane exactly, or do not follow the states. -/
def planePairs (lenient : Bool) : BitVec 1 → Nat → List Instr → Option (List (BitVec 2))
  | _, 0, [] => some []
  | _, 0, _ :: _ => none
  | _, _ + 1, [] => none
  | st, n + 1, i :: is =>
    if st = 0 then
      match runParts i with
      | none => none
      | some (k, v) =>
        let r := 2 ^ (k + 1) - 1 + v
        if r ≤ n + 1 then (planePairs lenient 1 (n + 1 - r) is).map (List.replicate r 0 ++ ·)
        else if lenient then (planePairs lenient 1 0 is).map (List.replicate (n + 1) 0 ++ ·)
        else none
    else
      match pairValue i with
      | some p => (planePairs lenient 1 n is).map (p :: ·)
      | none => if i = .g1Switch then planePairs lenient 0 (n + 1) is else none

/-- A Gen1 stream by its elements (R92). -/
structure Gen1Stream where
  w : BitVec 4
  h : BitVec 4
  p : BitVec 1
  init1 : BitVec 1
  plane1 : List Instr
  mode : Instr
  init2 : BitVec 1
  plane2 : List Instr

/-- The leading bit of a sub-stream (R95). -/
def initElement (b : BitVec 1) : Instr := if b = 0 then .g1InitRle else .g1InitData

/-- The bits of a Gen1 stream (R92). -/
def Gen1Stream.bits (g : Gen1Stream) : Bits :=
  encode (.g1Hdr g.w g.h g.p) ++ (encode (initElement g.init1) ++ (g.plane1.flatMap encode ++ (encode g.mode ++
    (encode (initElement g.init2) ++ g.plane2.flatMap encode))))

/-- The bit of pixel `(x, y)` in a plane given by its pairs in order (R161): down a column of pairs, `rows` high, the columns left
to right; the pair's high bit is the left pixel. -/
def rawBit (rows : Nat) (q : List (BitVec 2)) (x y : Nat) : Bool := (q.getD (x / 2 * rows + y) 0).getLsbD (1 - x % 2)

/-- The left edge of the span in which the delta-decode state runs (R168). -/
def spanStart (span : Config.DeltaSpan) (x : Nat) : Nat :=
  match span with
  | .byte => x / 8 * 8
  | .row => 0

/-- The running parity up to pixel `x` of a row (R168). -/
def parityBit (span : Config.DeltaSpan) (rows : Nat) (q : List (BitVec 2)) (x y : Nat) : Bool :=
  (List.range (x + 1 - spanStart span x)).foldl (fun b j => b ^^ rawBit rows q (spanStart span x + j) y) false

/-- The colour index of declared pixel `(x, y)` of a Gen1 image (R166 to R171): `q1` fills the primary buffer, `q2` the other
one; `B` is plane 0 and `C` is plane 1. -/
def gen1Index (span : Config.DeltaSpan) (mode : BitVec 2) (p : BitVec 1) (rows : Nat) (q1 q2 : List (BitVec 2)) (x y : Nat) : Pixel :=
  let oth := parityBit span rows q2 x y
  let pri :=
    if mode = 0 then parityBit span rows q1 x y
    else if mode = 2 then rawBit rows q1 x y ^^ oth
    else parityBit span rows q1 x y ^^ oth
  if p = 0 then BitVec.ofBool oth ++ BitVec.ofBool pri else BitVec.ofBool pri ++ BitVec.ofBool oth

/-! ## Gen2 streams -/

/-- One LZ3 command: its header row and its operand bytes (R104). -/
structure LzItem where
  head : Instr
  ops : List Byte

/-- The start that address operand bytes give when `n` bytes have been put out (R105, R203). -/
def startOf (ops : List Byte) (n : Nat) : Option Int :=
  match ops with
  | [ay] => if 128 ≤ ay.toNat then some ((n : Int) - (ay.toNat - 128 : Nat) - 1) else none
  | [ay, lo] => if ay.toNat < 128 then some (ay.toNat * 256 + lo.toNat : Nat) else none
  | _ => none

/-- The output `d` after one command (R195 to R208); `none` when the operand bytes are not the command's or a range check fails. -/
def lzApply (f : LzForm) (ops : List Byte) (d : List Byte) : Option (List Byte) :=
  match f.cmd.toNat with
  | 0 => if ops.length = f.len then some (d ++ ops) else none
  | 1 =>
    match ops with
    | [v] => some (d ++ List.replicate f.len v)
    | _ => none
  | 2 =>
    match ops with
    | [v1, v2] => some (d ++ (List.range f.len).map (fun k => if k % 2 = 0 then v1 else v2))
    | _ => none
  | 3 =>
    match ops with
    | [] => some (d ++ List.replicate f.len 0)
    | _ => none
  | c =>
    match startOf ops d.length with
    | none => none
    | some a =>
      if a < 0 ∨ (d.length : Int) ≤ a then none
      else if c = 6 then
        if a - (f.len - 1) < 0 then none else some (d ++ (List.range f.len).map (fun k => d.getD (a.toNat - k) 0))
      else if (d.length : Int) < a + f.len then none
      else if c = 5 then some (d ++ (List.range f.len).map (fun k => (d.getD (a.toNat + k) 0).reverse))
      else some (d ++ (List.range f.len).map (fun k => d.getD (a.toNat + k) 0))

/-- The output of a list of commands (R194). -/
def lzRun : List LzItem → List Byte → Option (List Byte)
  | [], d => some d
  | c :: cs, d =>
    match lzForm c.head with
    | none => none
    | some f => (lzApply f c.ops d).bind (lzRun cs)

/-- The 14-byte block of a source (R101). -/
structure SizePalette where
  w : BitVec 4
  h : BitVec 4
  pal : Palette

/-- A Gen2 source by its parts (R100). -/
structure Gen2Stream where
  block : Option SizePalette
  items : List LzItem

/-- The bits of the 14-byte block, if there is one. -/
def blockBits (b : Option SizePalette) : Bits :=
  match b with
  | none => []
  | some b => encode (.g2Prefix b.w b.h b.pal.e0 b.pal.e1 b.pal.e2 b.pal.e3)

/-- The bits of a Gen2 source up to and with its terminator (R100). -/
def Gen2Stream.bits (g : Gen2Stream) : Bits :=
  blockBits g.block ++ (g.items.flatMap (fun c => encode c.head ++ bytesToBits c.ops) ++ encode .lzEnd)

/-- The declared size of a Gen2 image of `n` output bytes (R212): override, block, inference. `none` for a zero nibble of a
block in strict mode (R190) or when there is no whole tile to infer from. -/
def declaredSize (s : State) (b : Option SizePalette) (n : Nat) : Option (Nat × Nat) :=
  let own :=
    match b with
    | none => if n / 16 = 0 then none else some ((shapeOf s.params.shapeTable (n / 16)).getD (1, n / 16))
    | some b =>
      match dimValue s.lenient b.w, dimValue s.lenient b.h with
      | some w, some h => some (w, h)
      | _, _ => none
  if s.ovrEn = true then
    match b with
    | none => some (s.ovrW.toNat, s.ovrH.toNat)
    | some _ => own.map (fun _ => (s.ovrW.toNat, s.ovrH.toNat))
  else own

/-- The bit of plane `p` at pixel `(x, y)` of an output `d`, `h` tiles high (R214, R68). -/
def outputBit (d : List Byte) (p h x y : Nat) : Bool := (d.getD (2 * (x / 8 * (h * 8) + y) + p) 0).getLsbD (7 - x % 8)

/-- The colour index of declared pixel `(x, y)` of a Gen2 image (R214, R236). -/
def gen2Index (d : List Byte) (h x y : Nat) : Pixel := BitVec.ofBool (outputBit d 1 h x y) ++ BitVec.ofBool (outputBit d 0 h x y)

end Sys2Proof
end

