-- ==== Sys2Proof/Certificates/Slice0/Obligations.lean ====
section
/-! DEFINITION. The statements for the provers. Rule numbers are those of spec/; a log entry is named where a clause rests on a
choice of the model. In every statement a clause on `phase` or `issued` speaks of the model's own register for the position that the
spec's pseudocode holds in its control flow (log entries 8, 9). -/

open Sys2Proof Sys2Proof.Machine

/-! ## Encodings -/

/-- Every well-formed instruction is read back from its encoding, whatever follows (R91 to R107, R113). -/
def Obligations.DecodeReadsBackEveryEncoding : Prop :=
  ∀ (i : Instr) (rest : Bits), i.wf = true → decode i.ctx (encode i ++ rest) = .ok (i, rest)

/-- Whatever is decoded is well-formed, stands at its own place, and re-encodes to the very bits it was read from: no two encodings
of one place overlap, and no bit of an element is dropped. -/
def Obligations.DecodedBitsAreTheEncoding : Prop :=
  ∀ (c : Ctx) (bs rest : Bits) (i : Instr), decode c bs = .ok (i, rest) → i.wf = true ∧ i.ctx = c ∧ bs = encode i ++ rest

/-- The LZ3 first-byte map (R114, R102, R103, R107), and the lengths it gives. -/
def Obligations.FirstBytesDecodeByTheMap : Prop :=
  ∀ (h n : Byte) (rest : Bits),
    let one := natToBits 8 h.toNat ++ rest
    let two := natToBits 8 h.toNat ++ (natToBits 8 n.toNat ++ rest)
    let l : BitVec 5 := h.setWidth 5
    let ll : BitVec 10 := h.extractLsb' 0 2 ++ n
    (h.toNat ≤ 0x1F → decode .lz one = .ok (.lzCopy l, rest)) ∧
    (0x20 ≤ h.toNat ∧ h.toNat ≤ 0x3F → decode .lz one = .ok (.lzFill l, rest)) ∧
    (0x40 ≤ h.toNat ∧ h.toNat ≤ 0x5F → decode .lz one = .ok (.lzWFill l, rest)) ∧
    (0x60 ≤ h.toNat ∧ h.toNat ≤ 0x7F → decode .lz one = .ok (.lzZero l, rest)) ∧
    (0x80 ≤ h.toNat ∧ h.toNat ≤ 0x9F → decode .lz one = .ok (.lzRep l, rest)) ∧
    (0xA0 ≤ h.toNat ∧ h.toNat ≤ 0xBF → decode .lz one = .ok (.lzBRev l, rest)) ∧
    (0xC0 ≤ h.toNat ∧ h.toNat ≤ 0xDF → decode .lz one = .ok (.lzBack l, rest)) ∧
    (0xE0 ≤ h.toNat ∧ h.toNat ≤ 0xE3 → decode .lz two = .ok (.lzCopyL ll, rest)) ∧
    (0xE4 ≤ h.toNat ∧ h.toNat ≤ 0xE7 → decode .lz two = .ok (.lzFillL ll, rest)) ∧
    (0xE8 ≤ h.toNat ∧ h.toNat ≤ 0xEB → decode .lz two = .ok (.lzWFillL ll, rest)) ∧
    (0xEC ≤ h.toNat ∧ h.toNat ≤ 0xEF → decode .lz two = .ok (.lzZeroL ll, rest)) ∧
    (0xF0 ≤ h.toNat ∧ h.toNat ≤ 0xF3 → decode .lz two = .ok (.lzRepL ll, rest)) ∧
    (0xF4 ≤ h.toNat ∧ h.toNat ≤ 0xF7 → decode .lz two = .ok (.lzBRevL ll, rest)) ∧
    (0xF8 ≤ h.toNat ∧ h.toNat ≤ 0xFB → decode .lz two = .ok (.lzBackL ll, rest)) ∧
    (0xFC ≤ h.toNat ∧ h.toNat ≤ 0xFD → decode .lz two = .ok (.lzIll (h.extractLsb' 0 1 ++ n), rest)) ∧
    (h.toNat = 0xFE → decode .lz two = .ok (.lzIllFe n, rest)) ∧
    (h.toNat = 0xFF → decode .lz one = .ok (.lzEnd, rest)) ∧
    l.toNat + 1 = h.toNat % 32 + 1 ∧ ll.toNat + 1 = h.toNat % 4 * 256 + n.toNat + 1

/-- A word of every format of 30_encoding.md, written out bit by bit: the header `0xF1` with primary buffer 1 (R92, R93), the leading
bit (R95), the examples of R158 and a run of 16 prefix ones (R96), a pair, a switch (R97), mode 3 (R98), `LZ.REP` of length 2 (R102),
`LZ.FILL.L` of length 1024 (R103, R199), a nested long header (R111), the terminator (R107), both address forms (R105), a 14-byte
block (R101); and the sixteen host codes (R113). -/
def Obligations.WrittenOutWordsDecode : Prop :=
  decode .header [true, true, true, true, false, false, false, true, true] = .ok (.g1Hdr 15 1 1, []) ∧
  decode .init [false] = .ok (.g1InitRle, []) ∧
  decode .rle [true, true, true, false, true, true, true, false] = .ok (.g1Run3 14, []) ∧
  decode .rle [true, true, true, true, false, false, false, false, false, true] = .ok (.g1Run4 1, []) ∧
  decode .rle
    [true, true, true, true, true, true, true, true, true, true, true, true, true, true, true, true, false,
      true, false, false, false, false, false, false, false, false, false, false, false, false, false, false, true, false] = .ok (.g1RunN 16 65538, []) ∧
  decode .data [true, false] = .ok (.g1Pair2, []) ∧
  decode .data [false, false] = .ok (.g1Switch, []) ∧
  decode .mode [true, true] = .ok (.g1Mode3, []) ∧
  decode .lz [true, false, false, false, false, false, false, true] = .ok (.lzRep 1, []) ∧
  decode .lz [true, true, true, false, false, true, true, true, true, true, true, true, true, true, true, true] = .ok (.lzFillL 1023, []) ∧
  decode .lz [true, true, true, true, true, true, false, true, false, false, false, false, false, true, false, true] = .ok (.lzIll 261, []) ∧
  decode .lz [true, true, true, true, true, true, true, true] = .ok (.lzEnd, []) ∧
  decode .addr [true, false, false, false, false, false, true, false] = .ok (.lzAddrRel 2, []) ∧
  decode .addr [false, false, false, false, false, false, false, true, false, false, false, false, false, false, true, false] = .ok (.lzAddrAbs 1 2, []) ∧
  decode .pfx
    [true, true, true, true, true, true, true, true, false, false, true, false, false, false, false, true,
      true, true, true, true, true, true, true, true, true, false, false, false, false, false, false, false,
      false, false, false, false, false, false, false, true, true, false, true, false, true, false, true, false,
      false, true, false, true, false, true, false, true, false, false, false, false, true, true, true, true,
      false, false, false, true, false, false, false, false, false, false, true, false, false, false, false, false,
      false, true, false, false, false, false, false, false, false, false, false, false, false, false, false, false,
      true, true, false, false, false, false, true, true, false, false, true, true, true, true, false, false] = .ok (.g2Prefix 2 1 0xFF8001 0xAA550F 0x102040 0x00C33C, []) ∧
  decode .command [true, false, false, true] = .ok (.g2Decode, []) ∧
  (List.range 16).map (fun c => decodeCommand (.ofNat 4 c)) =
    [.cmdReserved0, .reset, .bcOpen, .bcRead, .bcWrite, .bcFlush, .cmdReserved6, .cmdReserved7,
     .g1Decode, .g2Decode, .cmdReservedA, .cmdReservedB, .cmdReservedC, .cmdReservedD, .cmdReservedE, .cmdReservedF]

/-- The run code (R96, R158): for every length from 1 up there is exactly one bit string that decodes, with nothing left over, to a run
of that length. -/
def Obligations.EveryRunLengthHasOneEncoding : Prop :=
  ∀ r : Nat, 1 ≤ r →
    ∃! bs : Bits, ∃ i k v, decode .rle bs = .ok (i, []) ∧ runParts i = some (k, v) ∧ runLength k v = r

/-! ## The bit reader and writer -/

/-- The reader position (R22 to R24): taking `n` bits adds `n` to `RD_POS`, keeps `RD_BIT` the offset in the byte `RD_BYTE`, and
changes nothing else. -/
def Obligations.AdvanceAddsToThePosition : Prop :=
  ∀ (n : Nat) (s : State),
    (s.advance n).rdPos = s.rdPos + n ∧ s.advance n = { s with rdByte := (s.advance n).rdByte, rdBit := (s.advance n).rdBit }

/-- `BC.READ` (R260): the field of `n` bits, its first bit the most significant (R91), zero-extended in `RES`; `RD_POS` moves by
`n`; nothing else changes. With `n = 0` it reads 0 and completes even at the end of the source. With fewer than `n` bits left:
truncated-input. -/
def Obligations.BcReadReturnsTheField : Prop :=
  ∀ s : State, s.st.stuck = false → sourceFits s → s.arg1.toNat ≤ 16 →
    (s.arg1 = 0 ∨ s.rdPos + s.arg1.toNat ≤ 8 * s.srcLen →
      exec .bcRead s = .next
        { s.advance s.arg1.toNat with
          res := .ofNat 16 (∑ i ∈ Finset.range s.arg1.toNat, (s.srcBit (s.rdPos + i)).toNat * 2 ^ (s.arg1.toNat - 1 - i)) }) ∧
    (s.arg1 ≠ 0 → 8 * s.srcLen < s.rdPos + s.arg1.toNat → ∃ t, exec .bcRead s = .next t ∧ Faulted 4 s t)

/-- The result does not depend on how bits are grouped into fields (R132). -/
def Obligations.FieldsReadTheSameHoweverGrouped : Prop :=
  ∀ (a b x y : Nat) (s t u : State), readBits a s = .ok (x, t) → readBits b t = .ok (y, u) →
    readBits (a + b) s = .ok (x * 2 ^ b + y, u)

/-- `BC.WRITE` (R261): the low `n` bits of `ARG0` follow what was written before, most significant first; `(WR_CNT + n) div 8`
bytes are emitted (R135), bytes already in the sink stay, and nothing else changes; an emission past the capacity is refused. -/
def Obligations.BcWriteAppendsTheField : Prop :=
  ∀ s : State, s.st.stuck = false → s.arg1.toNat ≤ 16 → writerClean s →
    let k := (s.wrCnt.toNat + s.arg1.toNat) / 8
    (k = 0 ∨ sinkRoom s k →
      ∃ t, exec .bcWrite s = .next t ∧ t = { s with snk := t.snk, wrAcc := t.wrAcc, wrCnt := t.wrCnt } ∧
        writtenBits t = writtenBits s ++ natToBits s.arg1.toNat s.arg0.toNat ∧
        t.snkLen = s.snkLen + k ∧ t.wrCnt.toNat = (s.wrCnt.toNat + s.arg1.toNat) % 8 ∧ s.snk <+: t.snk ∧ writerClean t) ∧
    (k ≠ 0 → ¬sinkRoom s k → ∃ t, exec .bcWrite s = .next t ∧ Refused 6 s t)

/-- `BC.FLUSH` (R262): the pending byte is emitted as it stands, its low bits zero (R137); with nothing pending nothing happens, so a
second flush does nothing; with bits pending and the sink full it is refused. -/
def Obligations.BcFlushEmitsThePendingByte : Prop :=
  ∀ s : State, s.st.stuck = false →
    (s.wrCnt = 0 → exec .bcFlush s = .next s) ∧
    (s.wrCnt ≠ 0 → sinkRoom s 1 → exec .bcFlush s = .next { s with snk := s.snk ++ [s.wrAcc], wrAcc := 0, wrCnt := 0 }) ∧
    (s.wrCnt ≠ 0 → ¬sinkRoom s 1 → ∃ t, exec .bcFlush s = .next t ∧ Refused 6 s t)

/-- `BC.OPEN` (R259, R139): both cursors at their start, the sink empty, pending bits lost; nothing else changes. -/
def Obligations.BcOpenReinitialisesTheCursors : Prop :=
  ∀ s : State, s.st.stuck = false →
    exec .bcOpen s = .next { s with rdByte := 0, rdBit := 0, wrAcc := 0, wrCnt := 0, snk := [] }

/-- Write/read symmetry (R140): fields written to a fresh writer and flushed are read back, and the bits left over read as 0. -/
def Obligations.WhatIsWrittenIsReadBack : Prop :=
  ∀ (s : State) (fs : List (Nat × Nat)), (∀ p ∈ fs, p.1 < 2 ^ p.2) →
    (∀ c, s.params.snkCap = some c → ((fs.map Prod.snd).sum + 7) / 8 ≤ c) →
    ∃ t u v, writeFields fs (openCursors s) = .ok t ∧ flush t = .ok u ∧ u.snkLen = ((fs.map Prod.snd).sum + 7) / 8 ∧
      readFields (fs.map Prod.snd) (reading u.snk s) = .ok (fs.map Prod.fst, v) ∧
      ∀ p, (fs.map Prod.snd).sum ≤ p → p < 8 * u.snkLen → (reading u.snk s).srcBit p = false

/-! ## Commands, faults and refusals -/

/-- The nine reserved codes (R253, R111): refused with `BAD_CMD` unless an earlier fault or refusal comes first. -/
def Obligations.ReservedCodesAreRefused : Prop :=
  ∀ i ∈ [Instr.cmdReserved0, .cmdReserved6, .cmdReserved7, .cmdReservedA, .cmdReservedB, .cmdReservedC, .cmdReservedD,
      .cmdReservedE, .cmdReservedF],
    ∀ s : State, s.st.stuck = false → ∃ t, exec i s = .next t ∧ Refused 1 s t

/-- R283: after a fault or a refusal every command but `RESET` is refused with `AFTER_FAULT` and does nothing else; the kind of the
first fault and the reason of the first refusal stay. `RESET` clears them. -/
def Obligations.AfterAFaultOnlyResetWorks : Prop :=
  ∀ s : State, s.st.stuck = true →
    (∀ i ∈ [Instr.bcOpen, .bcRead, .bcWrite, .bcFlush, .g1Decode, .g2Decode, .cmdReserved0, .cmdReserved6, .cmdReserved7,
        .cmdReservedA, .cmdReservedB, .cmdReservedC, .cmdReservedD, .cmdReservedE, .cmdReservedF],
      exec i s = .next
        { s with st := { s.st with done := false, refused := true, refReason := if s.st.refused then s.st.refReason else 5 } }) ∧
    ∃ t, exec .reset s = .next t ∧ t.st = { done := false, err := false, refused := false, errKind := 0, refReason := 0 }

/-- `RESET` (R255, R300): never refused; every register and memory takes the value of R47's table; `PAL` and the contents of `SRC`
are unspecified there, and no clause speaks of them. The parameters are no state (R20). -/
def Obligations.ResetGivesTheResetValues : Prop :=
  ∀ s : State, ∃ t, exec .reset s = .next t ∧ t.srcLen = 0 ∧ t.rdByte = 0 ∧ t.rdBit = 0 ∧ t.wrAcc = 0 ∧ t.wrCnt = 0 ∧
    t.snk = [] ∧ t.g1Tw = 0 ∧ t.g1Th = 0 ∧ t.g1Primary = 0 ∧ t.g1Mode = 0 ∧ t.g1State = 0 ∧ t.g1Emit = 0 ∧ t.g1Total = 0 ∧
    t.g1Cur = 0 ∧ t.ds = 0 ∧ t.bufB = [] ∧ t.bufC = [] ∧ t.g2Ip = 0 ∧ t.bufD = [] ∧ t.g2Cmd = 0 ∧ t.g2Len = 0 ∧ t.g2Start = 0 ∧
    t.g2Long = 0 ∧ t.g2Pfx = 0 ∧ t.g2Tw = 0 ∧ t.g2Th = 0 ∧ t.dlW = 0 ∧ t.dlH = 0 ∧ t.phW = 0 ∧ t.phH = 0 ∧ t.colOff = 0 ∧
    t.rowOff = 0 ∧ t.p0 = [] ∧ t.p1 = [] ∧ t.pix = [] ∧ t.raster = [] ∧ t.cfg = 0 ∧ t.cmd = 0 ∧ t.arg0 = 0 ∧ t.arg1 = 0 ∧
    t.res = 0 ∧ t.st.word = 0 ∧ t.phase = .idle ∧ t.params = s.params

/-- Power-on reset and `RESET` are one transition (R300, R301): the block is `State.reset`, idle, but for what R47 leaves unspecified
(`PAL` and the bytes of `SRC`; log entries 4, 5) and the parameters, which are no state (log entry 6). -/
def Obligations.ResetCommandIsThePowerOnState : Prop :=
  ∀ s : State, ∃ (p : Palette) (d : Nat),
    exec .reset s = .next { State.reset with pal := p, drawn := d, srcDraw := d, params := s.params }

/-- The prologue's refusals (R253), each where no earlier test fires: a source too long (R252), a field too wide (R254), an override
with a zero (R256). -/
def Obligations.PrologueRefusesBadRequests : Prop :=
  ∀ s : State, s.st.stuck = false →
    (¬sourceFits s → ∀ i ∈ [Instr.bcRead, .g1Decode, .g2Decode], ∃ t, exec i s = .next t ∧ Refused 6 s t) ∧
    (16 < s.arg1.toNat → sourceFits s → ∃ t, exec .bcRead s = .next t ∧ Refused 2 s t) ∧
    (16 < s.arg1.toNat → ∃ t, exec .bcWrite s = .next t ∧ Refused 2 s t) ∧
    (¬overrideOk s → sourceFits s → ∀ i ∈ [Instr.g1Decode, .g2Decode], ∃ t, exec i s = .next t ∧ Refused 3 s t)

/-- The bits of `ST` (R44). -/
def Obligations.StatusWordHasItsLayout : Prop :=
  ∀ t : Status,
    t.word.getLsbD 0 = t.done ∧ t.word.getLsbD 1 = t.err ∧ t.word.getLsbD 2 = t.refused ∧
    t.word.extractLsb' 3 3 = t.errKind ∧ t.word.extractLsb' 6 4 = t.refReason ∧ t.word.extractLsb' 10 6 = 0

/-- `raise` and `refuse` (R271, R280): the codes of `ST`, `DONE` cleared, and the inputs untouched. -/
def Obligations.StopsRecordTheFirstKind : Prop :=
  ∀ s : State,
    Faulted 1 s (s.stop (.raise .malformedHeader)) ∧ Faulted 2 s (s.stop (.raise .overrun)) ∧
    Faulted 3 s (s.stop (.raise .outOfRangeReference)) ∧ Faulted 4 s (s.stop (.raise .truncatedInput)) ∧
    Refused 1 s (s.stop (.refuse .badCmd)) ∧ Refused 2 s (s.stop (.refuse .badWidth)) ∧
    Refused 3 s (s.stop (.refuse .badOverride)) ∧ Refused 4 s (s.stop (.refuse .declaredExceedsPhysical)) ∧
    Refused 5 s (s.stop (.refuse .afterFault)) ∧ Refused 6 s (s.stop (.refuse .capacity))

/-- R45: no instruction but `RESET` clears or overwrites what the first fault and the first refusal left in `ST`. -/
def Obligations.ErrorsAreSticky : Prop :=
  ∀ (i : Instr) (s t : State), i ≠ .reset → exec i s = .next t →
    (s.st.err = true → t.st.err = true ∧ t.st.errKind = s.st.errKind) ∧
    (s.st.refused = true → t.st.refused = true ∧ t.st.refReason = s.st.refReason)

/-- The inputs are the host's (R21, R46, R62, R78): no instruction but `RESET` changes `SRC`, `SRC_LEN`, `CFG`, `CMD`, `ARG0`,
`ARG1`. `PAL` is written by `G2.DECODE` with a 14-byte block only (R41). THE MODEL'S CHOICE (log entry 2): that `PAL` keeps its value
also at a fault or a refusal, unless a `G2.DECODE` has already replaced it; the spec's list of what is unspecified then (R50) does
not name `PAL`. -/
def Obligations.InputsAreNeverWritten : Prop :=
  ∀ (i : Instr) (s t : State), i ≠ .reset → exec i s = .next t →
    SameInputs s t ∧
    (i ≠ .g2Decode → i.ctx ≠ .pfx → PaletteUntouched s → t.pal = s.pal) ∧
    (i = .g2Decode → PaletteUntouched s → s.srcLen = 0 ∨ s.srcByte 0 ≠ 0xFF → t.pal = s.pal)

/-- What a decode leaves alone (R48, R257, R258). When it succeeds: the writer and `RES`; `G1.DECODE` also the Gen2 registers, `D` and
`PAL`; `G2.DECODE` also the reader, the Gen1 registers, `B` and `C`. When it faults: the bytes already in `SNK` (R63). -/
def Obligations.DecodesLeaveOtherUnitsAlone : Prop :=
  ∀ s t : State, s.st.stuck = false →
    (exec .g1Decode s = .next t ∨ exec .g2Decode s = .next t → t.st.refused = false → s.snk <+: t.snk) ∧
    (exec .g1Decode s = .next t → t.st.stuck = false →
      t.wrAcc = s.wrAcc ∧ t.wrCnt = s.wrCnt ∧ t.snk = s.snk ∧ t.res = s.res ∧ t.pal = s.pal ∧ t.g2Ip = s.g2Ip ∧
      t.bufD = s.bufD ∧ t.g2Cmd = s.g2Cmd ∧ t.g2Len = s.g2Len ∧ t.g2Start = s.g2Start ∧ t.g2Long = s.g2Long ∧
      t.g2Pfx = s.g2Pfx ∧ t.g2Tw = s.g2Tw ∧ t.g2Th = s.g2Th) ∧
    (exec .g2Decode s = .next t → t.st.stuck = false →
      t.wrAcc = s.wrAcc ∧ t.wrCnt = s.wrCnt ∧ t.snk = s.snk ∧ t.res = s.res ∧ t.rdByte = s.rdByte ∧ t.rdBit = s.rdBit ∧
      t.g1Tw = s.g1Tw ∧ t.g1Th = s.g1Th ∧ t.g1Primary = s.g1Primary ∧ t.g1Mode = s.g1Mode ∧ t.g1State = s.g1State ∧
      t.g1Emit = s.g1Emit ∧ t.g1Total = s.g1Total ∧ t.g1Cur = s.g1Cur ∧ t.ds = s.ds ∧ t.bufB = s.bufB ∧ t.bufC = s.bufC)

/-- R303: the result of a decode is a function of the source bytes below `SRC_LEN`, `SRC_LEN`, `CFG`, `PAL` and the parameters; no
earlier command matters, whether it left `DONE` set or not. Neither state has a fault or a refusal recorded; the kind and the reason
agree, as they do in every state a run reaches (both are then 0, by the invariant). -/
def Obligations.DecodeDependsOnlyOnItsInputs : Prop :=
  ∀ s s' t t' : State, s.st.stuck = false → s'.st.stuck = false → s'.st.errKind = s.st.errKind → s'.st.refReason = s.st.refReason →
    s'.srcLen = s.srcLen → (∀ a, a < s.srcLen → s'.srcByte a = s.srcByte a) →
    s'.cfg = s.cfg → s'.pal = s.pal → s'.params = s.params →
    (exec .g1Decode s = .next t → exec .g1Decode s' = .next t' →
      t'.st = t.st ∧
      (t.st.done = true → t'.rdByte = t.rdByte ∧ t'.rdBit = t.rdBit ∧ t'.g1Tw = t.g1Tw ∧ t'.g1Th = t.g1Th ∧
        t'.g1Primary = t.g1Primary ∧ t'.g1Mode = t.g1Mode ∧ t'.bufB = t.bufB ∧ t'.bufC = t.bufC ∧ t'.dlW = t.dlW ∧
        t'.dlH = t.dlH ∧ t'.phW = t.phW ∧ t'.phH = t.phH ∧ t'.colOff = t.colOff ∧ t'.rowOff = t.rowOff ∧ t'.p0 = t.p0 ∧
        t'.p1 = t.p1 ∧ t'.pix = t.pix ∧ t'.raster = t.raster)) ∧
    (exec .g2Decode s = .next t → exec .g2Decode s' = .next t' →
      t'.st = t.st ∧
      (t.st.done = true → t'.g2Ip = t.g2Ip ∧ t'.bufD = t.bufD ∧ t'.g2Pfx = t.g2Pfx ∧ t'.g2Tw = t.g2Tw ∧ t'.g2Th = t.g2Th ∧
        t'.pal = t.pal ∧ t'.dlW = t.dlW ∧ t'.dlH = t.dlH ∧ t'.phW = t.phW ∧ t'.phH = t.phH ∧ t'.colOff = t.colOff ∧
        t'.rowOff = t.rowOff ∧ t'.p0 = t.p0 ∧ t'.p1 = t.p1 ∧ t'.pix = t.pix ∧ t'.raster = t.raster))

/-- The host port (R42, R43, R46, R67, R250, R251). Between commands: reserved bits of `CFG` ignore a write and read as 0; what the host
writes it reads back; a load is seen whole, and no other byte of `SRC` changes (the MODEL'S CHOICE, log entry 31); the results of a decode are seen only
while `DONE` is 1; a write to `CMD` and the command it issues are one transition. While a command is issued or under way (a state of
the model's own, log entries 8, 9) the host sees nothing and its writes have no effect. -/
def Obligations.HostPortReadsAndWrites : Prop :=
  (∀ s : State, hostTurn s = true →
    (∀ v, hostRead .cfg (hostWriteCfg v s) = some (v &&& 0x0FF7#16).toNat) ∧
    (∀ n, hostRead .srcLen (hostWriteSrcLen n s) = some n) ∧
    (∀ i c, hostReadPal i (hostWritePal i c s) = some c) ∧
    (∀ a v, (hostWriteSrc a v s).srcByte a = v ∧ ∀ b, b ≠ a → (hostWriteSrc a v s).srcByte b = s.srcByte b) ∧
    (∀ bs a, (a < bs.length → hostReadSrc a (hostLoad bs s) = bs[a]?) ∧ (bs.length ≤ a → (hostLoad bs s).srcByte a = s.srcByte a)) ∧
    (∀ c, hostCommand c s = exec (decodeCommand c) { s with cmd := c }) ∧
    (s.st.done = false → ∀ a r, hostReadPix a s = none ∧ hostReadRaster a s = none ∧ hostReadP0 a s = none ∧
      hostReadP1 a s = none ∧ hostReadDone r s = none) ∧
    (s.st.done = true → ∀ a, hostReadPix a s = s.pix[a]? ∧ hostReadRaster a s = s.raster[a]? ∧ hostReadDone .phW s = some s.phW)) ∧
  (∀ s : State, hostTurn s = false →
    (∀ r d a i, hostRead r s = none ∧ hostReadDone d s = none ∧ hostReadPal i s = none ∧ hostReadSrc a s = none ∧ hostReadSnk a s = none ∧
      hostReadD a s = none ∧ hostReadP0 a s = none ∧ hostReadP1 a s = none ∧ hostReadPix a s = none ∧ hostReadRaster a s = none) ∧
    ∀ a v w y n i c k bs, hostWriteSrc a v s = s ∧ hostWriteSrcLen n s = s ∧ hostWriteCfg w s = s ∧ hostWritePal i c s = s ∧
      hostWriteArg0 w s = s ∧ hostWriteArg1 y s = s ∧ hostWriteCmd k s = s ∧ hostLoad bs s = s)

/-! ## Gen1 stream elements -/

/-- `G1.HDR` (R151 to R155): the dimensions by the zero-dimension rule, `G1_TOTAL`, both buffers sized and zero, the primary buffer
first; a zero dimension in strict mode is a malformed header. -/
def Obligations.HeaderSetsUpTheImage : Prop :=
  ∀ (w h : BitVec 4) (p : BitVec 1) (s : State),
    (∀ tw th, dimValue s.lenient w = some tw → dimValue s.lenient h = some th →
      exec (.g1Hdr w h p) s = .next
        { s.advance 9 with
          g1Tw := .ofNat 6 tw, g1Th := .ofNat 6 th, g1Total := tw * th * 32
          bufB := List.replicate (tw * th * 8) 0, bufC := List.replicate (tw * th * 8) 0
          g1Primary := p, g1Cur := p, phase := .g1Init }) ∧
    (dimValue s.lenient w = none ∨ dimValue s.lenient h = none → ∃ t, exec (.g1Hdr w h p) s = .next t ∧ Faulted 1 s t)

/-- A header that the source cuts short (R151, R152, R154, R279): malformed-header when both nibbles are there and one of them is a
zero that the policy rejects, else truncated-input. -/
def Obligations.HeaderCutShortFaults : Prop :=
  ∀ s : State, s.phase = .g1Header → 8 * s.srcLen < s.rdPos + 9 →
    ∃ t, step s = .next t ∧
      Faulted
        (if s.rdPos + 8 ≤ 8 * s.srcLen ∧ s.lenient = false ∧
            (bitsToNat (s.srcBits 4 s.rdPos) = 0 ∨ bitsToNat (s.srcBits 4 (s.rdPos + 4)) = 0)
          then 1 else 4) s t

/-- `G1.INIT` (R156, R157): the state of the new sub-stream, `G1_EMIT` 0; one bit is taken and nothing else changes. `G1.SWITCH`
(R163): state RLE, nothing emitted. -/
def Obligations.InitAndSwitchSetTheState : Prop :=
  ∀ s : State,
    exec .g1InitRle s = .next { s.advance 1 with g1State := 0, g1Emit := 0, phase := planePhase s 0 } ∧
    exec .g1InitData s = .next { s.advance 1 with g1State := 1, g1Emit := 0, phase := planePhase s 0 } ∧
    exec .g1Switch s = .next { s.advance 2 with g1State := 0, phase := planePhase s s.g1Emit }

/-- `G1.RUN` (R158, R159, R162): a run of `2^(k+1) - 1 + v` that fits moves the position by its length, changes no byte of the
planes, and leaves state DATA; the plane ends when it is full. -/
def Obligations.RunEmitsZeroPairs : Prop :=
  ∀ (i : Instr) (k v : Nat) (s : State), runParts i = some (k, v) → s.g1Emit + (2 ^ (k + 1) - 1 + v) ≤ s.g1Total →
    exec i s = .next
      { s.advance (2 * (k + 1)) with
        g1Emit := s.g1Emit + (2 ^ (k + 1) - 1 + v), g1State := 1, phase := planePhase s (s.g1Emit + (2 ^ (k + 1) - 1 + v)) }

/-- `G1.RUN` past the end of the plane (R160): an overrun in strict mode; in lenient mode cut to the rest of the plane, its bits
consumed all the same. -/
def Obligations.RunPastThePlane : Prop :=
  ∀ (i : Instr) (k v : Nat) (s : State), runParts i = some (k, v) → s.g1Emit ≤ s.g1Total → s.g1Total < s.g1Emit + (2 ^ (k + 1) - 1 + v) →
    (s.lenient = false → ∃ t, exec i s = .next t ∧ Faulted 2 s t) ∧
    (s.lenient = true →
      exec i s = .next { s.advance (2 * (k + 1)) with g1Emit := s.g1Total, g1State := 1, phase := planePhase s s.g1Total })

/-- `G1.PAIR` (R161): the pair is ORed into the byte and at the bits that the walk gives for its number; the other buffer and every
other byte stay. -/
def Obligations.PairIsOredAtItsPlace : Prop :=
  ∀ (i : Instr) (p : BitVec 2) (s : State), pairValue i = some p →
    let rows := s.g1Th.toNat * 8
    let at_ := s.g1Emit / rows / 4 * rows + s.g1Emit % rows
    let put (b : List Byte) := b.set at_ (b.getD at_ 0 ||| (p.setWidth 8 <<< (6 - 2 * (s.g1Emit / rows % 4))))
    exec i s = .next
      { s.advance 2 with
        bufB := if s.g1Cur = 0 then put s.bufB else s.bufB
        bufC := if s.g1Cur = 0 then s.bufC else put s.bufC
        g1Emit := s.g1Emit + 1, phase := planePhase s (s.g1Emit + 1) }

/-- Where a pair shows (R161, R68, R97): number `n` is at the two pixels `2 (n div rows)` and the next of pixel row `n mod rows`, its
high bit left; no other pixel of the plane changes. -/
def Obligations.PairLandsOnTwoPixels : Prop :=
  ∀ (w h n : Nat) (p : BitVec 2) (buf : List Byte) (x y : Nat), buf.length = w * h * 8 → n < w * h * 32 → x < 8 * w → y < 8 * h →
    planeBit (emitPair (h * 8) n p buf) (h * 8) x y =
      (planeBit buf (h * 8) x y || (decide (y = n % (h * 8) ∧ x / 2 = n / (h * 8)) && p.getLsbD (1 - x % 2)))

/-- `G1.MODE` (R164, R165): the mode; the second sub-stream fills the other buffer. -/
def Obligations.ModeIsTaken : Prop :=
  ∀ (i : Instr) (m : BitVec 2) (n : Nat) (s : State), modeParts i = some (m, n) →
    exec i s = .next { s.advance n with g1Mode := m, g1Cur := 1 - s.g1Primary, phase := .g1Init }

/-- Every Gen1 element takes exactly the bits of its encoding (R24, R108). -/
def Obligations.ElementsTakeTheirOwnBits : Prop :=
  ∀ (i : Instr) (s t : State), i.ctx = .header ∨ i.ctx = .init ∨ i.ctx = .rle ∨ i.ctx = .data ∨ i.ctx = .mode → exec i s = .next t →
    t.st.stuck = false → t.rdPos = s.rdPos + (encode i).length

/-- An element that the source cuts short (R131, R192, R190, R273): where no encoding of an element of the place begins the unread bits
(for the 14-byte block: where the source begins with `0xFF`, so that there must be one), the step is truncated-input. For every place
but the Gen1 header, which has its own statement. -/
def Obligations.ElementCutShortFaults : Prop :=
  ∀ (s : State) (c : Ctx), fetchCtx s = some c → c ≠ .header → (c = .pfx → 0 < s.srcLen ∧ s.srcByte 0 = 0xFF) →
    (∀ i : Instr, i.wf = true → i.ctx = c → ¬encode i <+: unread c s) →
    ∃ t, step s = .next t ∧ Faulted 4 s t

/-- `DeltaDecode` (R168), both values of `DELTA_SPAN`: each pixel becomes the parity of its row from the left edge of its span. -/
def Obligations.DeltaDecodeIsTheRunningParity : Prop :=
  ∀ (s : State) (buf : List Byte) (x y : Nat), buf.length = s.g1Tw.toNat * (s.g1Th.toNat * 8) → x < 8 * s.g1Tw.toNat → y < 8 * s.g1Th.toNat →
    planeBit (deltaDecode s buf).1 (s.g1Th.toNat * 8) x y =
      rowParity buf (s.g1Th.toNat * 8) (spanStart s.params.deltaSpan x) x y

/-- The closed form of the delta-decode of a byte (R168): the byte XORed with all its right shifts. -/
def Obligations.DeltaDecodesAByteByShifts : Prop :=
  ∀ (d : BitVec 1) (buf : List Byte), (deltaSpanByte d buf).1 = buf.map parityByte

/-- The two spans agree on an image one tile wide (R168). -/
def Obligations.SpansAgreeOnOneTileColumn : Prop :=
  ∀ (rows : Nat) (d : BitVec 1) (buf : List Byte), buf.length = rows → (deltaSpanByte d buf).1 = (deltaSpanRow 1 rows d buf).1

/-! ## LZ3 commands -/

/-- `LZ.COPY` (R195), short and long: the literal bytes are appended; fewer than `length` left is truncated-input. -/
def Obligations.CopyAppendsLiterals : Prop :=
  ∀ (i : Instr) (f : LzForm) (s : State), lzForm i = some f → f.cmd = 0 → room s f.len →
    let a := s.g2Ip + f.bytes
    (a + f.len ≤ s.srcLen →
      exec i s = .next { headed f s with g2Ip := a + f.len, bufD := s.bufD ++ srcBytes s a f.len }) ∧
    (s.srcLen < a + f.len → ∃ t, exec i s = .next t ∧ Faulted 4 s t)

/-- `LZ.FILL` (R196), short and long. -/
def Obligations.FillRepeatsAByte : Prop :=
  ∀ (i : Instr) (f : LzForm) (s : State), lzForm i = some f → f.cmd = 1 → room s f.len →
    let a := s.g2Ip + f.bytes
    (a < s.srcLen →
      exec i s = .next { headed f s with g2Ip := a + 1, bufD := s.bufD ++ List.replicate f.len (s.srcByte a) }) ∧
    (s.srcLen ≤ a → ∃ t, exec i s = .next t ∧ Faulted 4 s t)

/-- `LZ.WFILL` (R197), short and long: the two bytes alternate from the first, `length` bytes in all; both are always taken. -/
def Obligations.WordFillAlternates : Prop :=
  ∀ (i : Instr) (f : LzForm) (s : State), lzForm i = some f → f.cmd = 2 → room s f.len →
    let a := s.g2Ip + f.bytes
    (a + 1 < s.srcLen →
      exec i s = .next
        { headed f s with
          g2Ip := a + 2
          bufD := s.bufD ++ (List.range f.len).map (fun k => if k % 2 = 0 then s.srcByte a else s.srcByte (a + 1)) }) ∧
    (s.srcLen ≤ a + 1 → ∃ t, exec i s = .next t ∧ Faulted 4 s t)

/-- `LZ.ZERO` (R198), short and long: no operand, no fault of its own. -/
def Obligations.ZeroFillAppendsZeros : Prop :=
  ∀ (i : Instr) (f : LzForm) (s : State), lzForm i = some f → f.cmd = 3 → room s f.len →
    exec i s = .next { headed f s with g2Ip := s.g2Ip + f.bytes, bufD := s.bufD ++ List.replicate f.len 0 }

/-- `LZ.REP` (R203 to R206), short and long: the address operand, then `length` bytes forward from the start. -/
def Obligations.RepeatCopiesForward : Prop :=
  ∀ (i : Instr) (f : LzForm) (s : State), lzForm i = some f → f.cmd = 4 → room s f.len →
    let a := s.g2Ip + f.bytes
    let b := operandStart s a
    a + operandLen s a ≤ s.srcLen → 0 ≤ b → b + f.len ≤ s.bufD.length →
      exec i s = .next
        { headed f s with
          g2Ip := a + operandLen s a, g2Start := b
          bufD := s.bufD ++ (List.range f.len).map (fun k => s.bufD.getD (b.toNat + k) 0) }

/-- `LZ.BREV` (R203 to R205, R207, R209), short and long: as `LZ.REP`, each byte with its bits mirrored. -/
def Obligations.BitReverseRepeatMirrorsBytes : Prop :=
  ∀ (i : Instr) (f : LzForm) (s : State), lzForm i = some f → f.cmd = 5 → room s f.len →
    let a := s.g2Ip + f.bytes
    let b := operandStart s a
    a + operandLen s a ≤ s.srcLen → 0 ≤ b → b + f.len ≤ s.bufD.length →
      ∃ bs : List Byte, bs.length = f.len ∧
        (∀ k j, k < f.len → j < 8 → (bs.getD k 0).getLsbD j = (s.bufD.getD (b.toNat + k) 0).getLsbD (7 - j)) ∧
        exec i s = .next { headed f s with g2Ip := a + operandLen s a, g2Start := b, bufD := s.bufD ++ bs }

/-- `LZ.BACK` (R203 to R205, R208), short and long: `length` bytes walking down from the start. -/
def Obligations.BackwardsRepeatWalksDown : Prop :=
  ∀ (i : Instr) (f : LzForm) (s : State), lzForm i = some f → f.cmd = 6 → room s f.len →
    let a := s.g2Ip + f.bytes
    let b := operandStart s a
    a + operandLen s a ≤ s.srcLen → b < s.bufD.length → 0 ≤ b - (f.len - 1) →
      exec i s = .next
        { headed f s with
          g2Ip := a + operandLen s a, g2Start := b
          bufD := s.bufD ++ (List.range f.len).map (fun k => s.bufD.getD (b.toNat - k) 0) }

/-- The range checks (R204, R205) and the missing address byte (R192) of commands 4, 5, 6: the operand is fetched first, nothing is
appended before the checks. -/
def Obligations.BadBackReferencesFault : Prop :=
  ∀ (i : Instr) (f : LzForm) (s : State), lzForm i = some f → 4 ≤ f.cmd.toNat →
    let a := s.g2Ip + f.bytes
    let b := operandStart s a
    (s.srcLen < a + operandLen s a → ∃ t, exec i s = .next t ∧ Faulted 4 s t) ∧
    (a + operandLen s a ≤ s.srcLen →
      b < 0 ∨ (s.bufD.length : Int) ≤ b ∨ (f.cmd ≠ 6 ∧ (s.bufD.length : Int) < b + f.len) ∨ (f.cmd = 6 ∧ b - (f.len - 1) < 0) →
      ∃ t, exec i s = .next t ∧ Faulted 3 s t)

/-- A full `D` refuses the append that would pass its capacity (R201, R65, R285): `CAPACITY`, for a command whose operand bytes are
all there and whose range checks pass. -/
def Obligations.FullOutputRefuses : Prop :=
  ∀ (i : Instr) (f : LzForm) (s : State), lzForm i = some f → ¬room s f.len →
    let a := s.g2Ip + f.bytes
    let b := operandStart s a
    a + operandBytes f s a ≤ s.srcLen →
      (4 ≤ f.cmd.toNat → 0 ≤ b ∧ b < s.bufD.length) → (f.cmd = 4 ∨ f.cmd = 5 → b + f.len ≤ s.bufD.length) →
      (f.cmd = 6 → 0 ≤ b - (f.len - 1)) →
      ∃ t, exec i s = .next t ∧ Refused 6 s t

/-- `LZ.ILL` (R199, R111): a nested long header is a malformed header. -/
def Obligations.NestedLongHeadersFault : Prop :=
  ∀ (l : BitVec 9) (m : BitVec 8) (s : State),
    (∃ t, exec (.lzIll l) s = .next t ∧ Faulted 1 s t) ∧ (∃ t, exec (.lzIllFe m) s = .next t ∧ Faulted 1 s t)

/-- `LZ.END` (R210): the command loop ends just past the terminator, nothing is appended, the layout comes next (R193). The address
operand on its own (R203, R105): relative and absolute start; the transfer of its command comes next (the phase of its own is the
model's, log entry 8). -/
def Obligations.EndAndAddressOperandsMoveOn : Prop :=
  ∀ (y : BitVec 7) (a : BitVec 8) (s : State),
    exec (.lzAddrRel y) s = .next { s with g2Ip := s.g2Ip + 1, g2Start := (s.bufD.length : Int) - y.toNat - 1, phase := .lzCopy } ∧
    exec (.lzAddrAbs y a) s = .next { s with g2Ip := s.g2Ip + 2, g2Start := (y.toNat * 256 + a.toNat : Nat), phase := .lzCopy } ∧
    exec .lzEnd s = .next { s with g2Ip := s.g2Ip + 1, phase := .g2Layout }

/-- An address operand read as an element of its own and then the transfer do what the whole command does (log entry 8). -/
def Obligations.OperandThenTransferIsTheCommand : Prop :=
  ∀ (f : LzForm) (i : Instr) (s t u : State), lzForm i = some f → 4 ≤ f.cmd.toNat → s.phase = .lzHeader →
    step { headed f s with phase := .lzOperand } = .next t → t.st.stuck = false → s.st.stuck = false → step t = .next u → u.st.stuck = false →
    exec i s = .next u

/-- The output grows by exactly the length of a command that completes, and keeps every byte it had (R65, R216). -/
def Obligations.OutputGrowsByTheLength : Prop :=
  ∀ (i : Instr) (f : LzForm) (s t : State), lzForm i = some f → exec i s = .next t → t.st.stuck = false →
    s.bufD <+: t.bufD ∧ t.bufD.length = s.bufD.length + f.len ∧ t.g2Ip = s.g2Ip + f.bytes + operandBytes f s (s.g2Ip + f.bytes)

/-- `G2.PREFIX` (R190, R191): `G2_PFX`, the dimensions kept for the layout, the palette replaced, decoding at index 14; a zero nibble
in strict mode is a malformed header. -/
def Obligations.PrefixLoadsThePalette : Prop :=
  ∀ (w h : BitVec 4) (c0 c1 c2 c3 : Color) (s : State),
    (∀ pw ph, dimValue s.lenient w = some pw → dimValue s.lenient h = some ph →
      exec (.g2Prefix w h c0 c1 c2 c3) s = .next
        { s with g2Pfx := 1, g2Pw := .ofNat 6 pw, g2Ph := .ofNat 6 ph, pal := ⟨c0, c1, c2, c3⟩, g2Ip := 14, phase := .lzHeader }) ∧
    (dimValue s.lenient w = none ∨ dimValue s.lenient h = none →
      ∃ t, exec (.g2Prefix w h c0 c1 c2 c3) s = .next t ∧ Faulted 1 s t)

/-- The size check after the terminator (R212, R213, R272), for each source of the layout (override, 14-byte block, inference): no whole
tile to infer from and an output shorter than the layout are truncated-input in both policies; a longer one is an overrun in strict
mode. So is the partial last tile of an inferred layout, whose excess is `D_LEN mod 16` bytes (the shape table as R212 requires it). -/
def Obligations.LayoutChecksTheSize : Prop :=
  ∀ s : State, s.phase = .g2Layout →
    (s.ovrEn = false → s.g2Pfx = 0 → s.bufD.length < 16 → ∃ t, step s = .next t ∧ Faulted 4 s t) ∧
    (s.ovrEn = false → s.g2Pfx = 0 → 16 ≤ s.bufD.length → s.params.wf = true → s.bufD.length % 16 ≠ 0 → s.lenient = false →
      ∃ t, step s = .next t ∧ Faulted 2 s t) ∧
    ∀ w h, (s.ovrEn = true ∧ w = s.ovrW.toNat ∧ h = s.ovrH.toNat) ∨
        (s.ovrEn = false ∧ s.g2Pfx = 1 ∧ w = s.g2Pw.toNat ∧ h = s.g2Ph.toNat) ∨
        (s.ovrEn = false ∧ s.g2Pfx = 0 ∧ 16 ≤ s.bufD.length ∧
          (w, h) = (shapeOf s.params.shapeTable (s.bufD.length / 16)).getD (1, s.bufD.length / 16)) →
      (s.bufD.length < w * h * 16 → ∃ t, step s = .next t ∧ Faulted 4 s t) ∧
      (w * h * 16 < s.bufD.length → s.lenient = false → ∃ t, step s = .next t ∧ Faulted 2 s t)

/-! ## The TileAssembler -/

/-- Placement and assembly (R230 to R237, R240): what fits is shown at its place, index 0 elsewhere; what does not fit is refused. -/
def Obligations.PlacementShowsTheDeclaredImage : Prop :=
  ∀ (gen1 : Bool) (d0 d1 : List Byte) (s : State), d0.length = s.dlW * s.dlH * 8 → d1.length = s.dlW * s.dlH * 8 →
    (s.dlW ≤ (physicalSize gen1 s s.dlW s.dlH).1 → s.dlH ≤ (physicalSize gen1 s s.dlW s.dlH).2 →
      ∃ t, finish gen1 d0 d1 s = .ok t ∧ t.pal = s.pal ∧
        Shows gen1 s t s.dlW s.dlH
          (fun x y => BitVec.ofBool (planeBit d1 (s.dlH * 8) x y) ++ BitVec.ofBool (planeBit d0 (s.dlH * 8) x y))) ∧
    ((physicalSize gen1 s s.dlW s.dlH).1 < s.dlW ∨ (physicalSize gen1 s s.dlW s.dlH).2 < s.dlH →
      finish gen1 d0 d1 s = .error (.refuse .declaredExceedsPhysical))

/-! ## The sequencer and whole decodes -/

/-- A step runs the decoded instruction: inside a decode the element at the cursor (which is well-formed), between commands the
command the host wrote; with none to take, the block waits (R250, R301; log entries 8, 9). -/
def Obligations.StepRunsTheDecodedInstruction : Prop :=
  ∀ s : State,
    (∀ c i rest, fetchCtx s = some c → decode c (unread c s) = .ok (i, rest) → step s = exec i s) ∧
    (s.phase = .idle → s.issued = true → step s = exec (decodeCommand s.cmd) { s with issued := false }) ∧
    (s.phase = .idle → s.issued = false → step s = .next s)

/-- R251: every command ends, and the model never stops: a step answers a next state, whatever the state. -/
def Obligations.EveryStepAnswersANextState : Prop := ∀ s : State, ∃ t, step s = .next t

/-- THE MODEL'S OWN: the spec makes a decode command one transition (R251); that it can also be taken element by element is log
entry 8 (DESIGN CHOICE), and the bound of `8 * SRC_LEN + 4` steps is log entry 10 (DEDUCED; the spec bounds its two loops in its own
terms, R157, R194). The statement ties the two views: from the command's start state the steps reach an idle state within that
many, and it is the state the command answers. -/
def Obligations.DecodeIsTheRunOfItsElements : Prop :=
  ∀ s : State, decodeAccepted s →
    (∃ n t, n ≤ 8 * s.srcLen + 4 ∧ Sys2Proof.core.run n (g1Begin s) = .next t ∧ t.phase = .idle ∧ exec .g1Decode s = .next t) ∧
    (∃ n t, n ≤ 8 * s.srcLen + 4 ∧ Sys2Proof.core.run n (g2Begin s) = .next t ∧ t.phase = .idle ∧ exec .g2Decode s = .next t)

/-- The invariant holds in the reset state. -/
def Obligations.ResetStateHasTheInvariant : Prop := Inv State.reset

/-- The invariant is kept by every step, from every state that has it: memory canonical; `ST` legal; and, while no fault stands, the
cursors inside the source, the planes of the declared size, the pair count inside its budget, mode 1 never, the result of the
physical size. -/
def Obligations.StepKeepsTheInvariant : Prop := ∀ s t : State, Inv s → step s = .next t → Inv t

/-- `G1.DECODE` of a whole stream (R92, R150 to R174, R230 to R240): if the source begins with a header, two sub-streams that fill
their planes and a mode, whatever follows (R173), and the image fits, the command succeeds, `RD` stands just past the last bit,
and `PIX` shows the image that the pairs, the mode and the span give. -/
def Obligations.Gen1StreamIsDecoded : Prop :=
  ∀ (s : State) (g : Gen1Stream) (rest : Bits) (tw th : Nat) (m : BitVec 2) (n : Nat) (q1 q2 : List (BitVec 2)),
    decodeAccepted s → s.bitsFrom 0 = g.bits ++ rest → (∀ i ∈ g.plane1 ++ g.plane2, i.wf = true) →
    dimValue s.lenient g.w = some tw → dimValue s.lenient g.h = some th → modeParts g.mode = some (m, n) →
    planePairs s.lenient g.init1 (tw * th * 32) g.plane1 = some q1 → planePairs s.lenient g.init2 (tw * th * 32) g.plane2 = some q2 →
    tw ≤ (physicalSize true s tw th).1 → th ≤ (physicalSize true s tw th).2 →
    ∃ t, exec .g1Decode s = .next t ∧ t.rdPos = g.bits.length ∧ t.g1Tw.toNat = tw ∧ t.g1Th.toNat = th ∧ t.g1Primary = g.p ∧
      t.g1Mode = m ∧ t.pal = s.pal ∧ Shows true s t tw th (gen1Index s.params.deltaSpan m g.p (th * 8) q1 q2)

/-- `G2.DECODE` of a whole source (R100, R190 to R216, R230 to R240): if it begins with an optional 14-byte block, commands that
all apply, and the terminator, whatever follows (R211), and the output has the size of the layout and fits, the command
succeeds, `D` holds the output, `G2_IP` stands just past the terminator, and `PIX` shows the output as tiles. -/
def Obligations.Gen2StreamIsDecoded : Prop :=
  ∀ (s : State) (g : Gen2Stream) (rest : Bits) (out : List Byte) (w h : Nat),
    decodeAccepted s → s.bitsFrom 0 = g.bits ++ rest → lzRun g.items [] = some out →
    (∀ c, s.params.dCap = some c → out.length ≤ c) → declaredSize s g.block out.length = some (w, h) → 0 < out.length →
    w * h * 16 ≤ out.length → (out.length = w * h * 16 ∨ s.lenient = true) →
    w ≤ (physicalSize false s w h).1 → h ≤ (physicalSize false s w h).2 →
    ∃ t, exec .g2Decode s = .next t ∧ t.bufD = out ∧ 8 * t.g2Ip = g.bits.length ∧ t.g2Tw = w ∧ t.g2Th = h ∧
      t.g2Pfx = (if g.block.isSome then 1 else 0) ∧ t.pal = (g.block.map SizePalette.pal).getD s.pal ∧
      Shows false s t w h (gen2Index out h)
end

