-- ==== Sys2Proof/Laws/Bits.lean ====
section
/-! SUPPORT. Bit fields (30_encoding.md R91): the value of a field, writing and reading one back. -/

namespace Sys2Proof

@[simp] theorem natToBits_length (n v : Nat) : (natToBits n v).length = n := by
  induction n with
  | zero => rfl
  | succ n ih => simp [natToBits, ih]

@[simp] theorem bitsToNat_nil : bitsToNat [] = 0 := rfl

theorem foldl_bits (bs : Bits) (v : Nat) : bs.foldl (fun v b => 2 * v + b.toNat) v = v * 2 ^ bs.length + bitsToNat bs := by
  unfold bitsToNat
  induction bs generalizing v with
  | nil => simp
  | cons b bs ih =>
    simp only [List.foldl_cons, List.length_cons]
    rw [ih, ih (2 * 0 + b.toNat)]
    ring

/-- The first bit of a field is its most significant (R91). -/
theorem bitsToNat_cons (b : Bool) (bs : Bits) : bitsToNat (b :: bs) = b.toNat * 2 ^ bs.length + bitsToNat bs := by
  have := foldl_bits bs b.toNat
  simpa [bitsToNat] using this

theorem bitsToNat_append (xs ys : Bits) : bitsToNat (xs ++ ys) = bitsToNat xs * 2 ^ ys.length + bitsToNat ys := by
  simp only [bitsToNat, List.foldl_append]
  exact foldl_bits ys _

theorem bitsToNat_lt (bs : Bits) : bitsToNat bs < 2 ^ bs.length := by
  induction bs with
  | nil => simp
  | cons b bs ih =>
    rw [bitsToNat_cons, List.length_cons, pow_succ]
    cases b <;> simp <;> omega

/-- A field of `n` bits holds the low `n` bits of what is written into it (R91, D7). -/
theorem bitsToNat_natToBits (n v : Nat) : bitsToNat (natToBits n v) = v % 2 ^ n := by
  induction n with
  | zero => simp [natToBits, Nat.mod_one]
  | succ n ih =>
    rw [natToBits, bitsToNat_cons, natToBits_length, ih, Nat.mod_pow_succ, Nat.toNat_testBit, Nat.add_comm, Nat.mul_comm]

theorem takeBits_append (xs rest : Bits) : takeBits xs.length (xs ++ rest) = some (xs, rest) := by
  induction xs with
  | nil => rfl
  | cons x xs ih => simp [takeBits, ih]

/-- Reading a field back (R91). -/
theorem takeNum_natToBits (n v : Nat) (rest : Bits) : takeNum n (natToBits n v ++ rest) = some (v % 2 ^ n, rest) := by
  have h := takeBits_append (natToBits n v) rest
  rw [natToBits_length] at h
  simp [takeNum, h, bitsToNat_natToBits]

/-- What `takeBits` gives is the head of the bits, split off. -/
theorem takeBits_eq_some {n : Nat} {bs xs rest : Bits} (h : takeBits n bs = some (xs, rest)) : bs = xs ++ rest ∧ xs.length = n := by
  induction n generalizing bs xs rest with
  | zero => simp [takeBits] at h; obtain ⟨rfl, rfl⟩ := h; simp
  | succ n ih =>
    cases bs with
    | nil => simp [takeBits] at h
    | cons b bs =>
      simp only [takeBits, Option.map_eq_some_iff, Prod.exists, Prod.mk.injEq] at h
      obtain ⟨ys, r, h, rfl, rfl⟩ := h
      obtain ⟨rfl, rfl⟩ := ih h
      simp

/-- `takeBits` fails exactly when the bits are too few. -/
theorem takeBits_eq_none {n : Nat} {bs : Bits} : takeBits n bs = none ↔ bs.length < n := by
  induction n generalizing bs with
  | zero => simp [takeBits]
  | succ n ih =>
    cases bs with
    | nil => simp [takeBits]
    | cons b bs => simp [takeBits, ih]

theorem natToBits_bitsToNat (bs : Bits) : natToBits bs.length (bitsToNat bs) = bs := by
  have key : ∀ (n : Nat) (xs : Bits) (v : Nat), xs.length = n → natToBits n (v * 2 ^ n + bitsToNat xs) = xs := by
    intro n
    induction n with
    | zero => intro xs v h; simp [List.length_eq_zero_iff.mp h, natToBits]
    | succ n ih =>
      intro xs v h
      cases xs with
      | nil => simp at h
      | cons x xs =>
        simp only [List.length_cons, Nat.add_right_cancel_iff] at h
        have hv : v * 2 ^ (n + 1) + bitsToNat (x :: xs) = (2 * v + x.toNat) * 2 ^ n + bitsToNat xs := by
          rw [bitsToNat_cons, h]; ring
        rw [natToBits, hv, ih xs _ h]
        congr 1
        have hl : bitsToNat xs < 2 ^ n := h ▸ bitsToNat_lt xs
        rw [Nat.testBit_eq_decide_div_mod_eq, Nat.mul_comm, Nat.mul_add_div (by positivity), Nat.div_eq_of_lt hl]
        cases x <;> simp
  simpa using key bs.length bs 0 rfl

/-- What `takeNum` gives: the field's value, below `2^n`, its bits being the head of the bits. -/
theorem takeNum_eq_some {n v : Nat} {bs rest : Bits} (h : takeNum n bs = some (v, rest)) : bs = natToBits n v ++ rest ∧ v < 2 ^ n := by
  simp only [takeNum, Option.map_eq_some_iff, Prod.exists, Prod.mk.injEq] at h
  obtain ⟨xs, r, h, rfl, rfl⟩ := h
  obtain ⟨rfl, rfl⟩ := takeBits_eq_some h
  exact ⟨by rw [natToBits_bitsToNat], bitsToNat_lt xs⟩

/-- The prefix code's unary part (R96). -/
theorem takeOnes_replicate (k : Nat) (rest : Bits) : takeOnes (List.replicate k true ++ false :: rest) = some (k, rest) := by
  induction k with
  | zero => rfl
  | succ k ih => simp [List.replicate_succ, takeOnes, ih]

theorem takeOnes_eq_some {bs rest : Bits} {k : Nat} (h : takeOnes bs = some (k, rest)) : bs = List.replicate k true ++ false :: rest := by
  induction bs generalizing k with
  | nil => simp [takeOnes] at h
  | cons b bs ih =>
    cases b with
    | false => simp [takeOnes] at h; obtain ⟨rfl, rfl⟩ := h; rfl
    | true =>
      simp only [takeOnes, Option.map_eq_some_iff, Prod.exists, Prod.mk.injEq] at h
      obtain ⟨j, r, h, rfl, rfl⟩ := h
      rw [ih h, List.replicate_succ, List.cons_append]

/-- The encoding of a run row (R96) is the run code of its prefix length and suffix. -/
theorem mkRun_wf {k v : Nat} (h : v < 2 ^ (k + 1)) : (mkRun k v).wf = true := by
  unfold mkRun
  split <;> first | rfl | skip
  rename_i h0 h1 h2 h3 h4 h5 h6 h7 h8 h9 h10 h11 h12 h13 h14 h15
  simp only [Instr.wf, runOk, Bool.and_eq_true, decide_eq_true_eq]
  refine ⟨?_, h⟩
  rcases Nat.lt_or_ge k 16 with hk | hk
  · interval_cases k <;> simp_all
  · exact hk

end Sys2Proof
end

