-- ==== Sys2Proof/Laws/State.lean ====
section
/-! SUPPORT. One lemma for each field and each named update that leaves it alone, so that no proof unfolds a record
update. The fields an update writes have their lemma where the update's rule is stated. -/

namespace Sys2Proof.Machine

@[simp] theorem advance_src (n : Nat) (s : State) : (State.advance n s).src = s.src := rfl
@[simp] theorem advance_srcLen (n : Nat) (s : State) : (State.advance n s).srcLen = s.srcLen := rfl
@[simp] theorem advance_wrAcc (n : Nat) (s : State) : (State.advance n s).wrAcc = s.wrAcc := rfl
@[simp] theorem advance_wrCnt (n : Nat) (s : State) : (State.advance n s).wrCnt = s.wrCnt := rfl
@[simp] theorem advance_snk (n : Nat) (s : State) : (State.advance n s).snk = s.snk := rfl
@[simp] theorem advance_g1Tw (n : Nat) (s : State) : (State.advance n s).g1Tw = s.g1Tw := rfl
@[simp] theorem advance_g1Th (n : Nat) (s : State) : (State.advance n s).g1Th = s.g1Th := rfl
@[simp] theorem advance_g1Primary (n : Nat) (s : State) : (State.advance n s).g1Primary = s.g1Primary := rfl
@[simp] theorem advance_g1Mode (n : Nat) (s : State) : (State.advance n s).g1Mode = s.g1Mode := rfl
@[simp] theorem advance_g1State (n : Nat) (s : State) : (State.advance n s).g1State = s.g1State := rfl
@[simp] theorem advance_g1Emit (n : Nat) (s : State) : (State.advance n s).g1Emit = s.g1Emit := rfl
@[simp] theorem advance_g1Total (n : Nat) (s : State) : (State.advance n s).g1Total = s.g1Total := rfl
@[simp] theorem advance_g1Cur (n : Nat) (s : State) : (State.advance n s).g1Cur = s.g1Cur := rfl
@[simp] theorem advance_ds (n : Nat) (s : State) : (State.advance n s).ds = s.ds := rfl
@[simp] theorem advance_bufB (n : Nat) (s : State) : (State.advance n s).bufB = s.bufB := rfl
@[simp] theorem advance_bufC (n : Nat) (s : State) : (State.advance n s).bufC = s.bufC := rfl
@[simp] theorem advance_g2Ip (n : Nat) (s : State) : (State.advance n s).g2Ip = s.g2Ip := rfl
@[simp] theorem advance_bufD (n : Nat) (s : State) : (State.advance n s).bufD = s.bufD := rfl
@[simp] theorem advance_g2Cmd (n : Nat) (s : State) : (State.advance n s).g2Cmd = s.g2Cmd := rfl
@[simp] theorem advance_g2Len (n : Nat) (s : State) : (State.advance n s).g2Len = s.g2Len := rfl
@[simp] theorem advance_g2Start (n : Nat) (s : State) : (State.advance n s).g2Start = s.g2Start := rfl
@[simp] theorem advance_g2Long (n : Nat) (s : State) : (State.advance n s).g2Long = s.g2Long := rfl
@[simp] theorem advance_g2Pfx (n : Nat) (s : State) : (State.advance n s).g2Pfx = s.g2Pfx := rfl
@[simp] theorem advance_g2Pw (n : Nat) (s : State) : (State.advance n s).g2Pw = s.g2Pw := rfl
@[simp] theorem advance_g2Ph (n : Nat) (s : State) : (State.advance n s).g2Ph = s.g2Ph := rfl
@[simp] theorem advance_g2Tw (n : Nat) (s : State) : (State.advance n s).g2Tw = s.g2Tw := rfl
@[simp] theorem advance_g2Th (n : Nat) (s : State) : (State.advance n s).g2Th = s.g2Th := rfl
@[simp] theorem advance_dlW (n : Nat) (s : State) : (State.advance n s).dlW = s.dlW := rfl
@[simp] theorem advance_dlH (n : Nat) (s : State) : (State.advance n s).dlH = s.dlH := rfl
@[simp] theorem advance_phW (n : Nat) (s : State) : (State.advance n s).phW = s.phW := rfl
@[simp] theorem advance_phH (n : Nat) (s : State) : (State.advance n s).phH = s.phH := rfl
@[simp] theorem advance_colOff (n : Nat) (s : State) : (State.advance n s).colOff = s.colOff := rfl
@[simp] theorem advance_rowOff (n : Nat) (s : State) : (State.advance n s).rowOff = s.rowOff := rfl
@[simp] theorem advance_p0 (n : Nat) (s : State) : (State.advance n s).p0 = s.p0 := rfl
@[simp] theorem advance_p1 (n : Nat) (s : State) : (State.advance n s).p1 = s.p1 := rfl
@[simp] theorem advance_pix (n : Nat) (s : State) : (State.advance n s).pix = s.pix := rfl
@[simp] theorem advance_raster (n : Nat) (s : State) : (State.advance n s).raster = s.raster := rfl
@[simp] theorem advance_pal (n : Nat) (s : State) : (State.advance n s).pal = s.pal := rfl
@[simp] theorem advance_cfg (n : Nat) (s : State) : (State.advance n s).cfg = s.cfg := rfl
@[simp] theorem advance_cmd (n : Nat) (s : State) : (State.advance n s).cmd = s.cmd := rfl
@[simp] theorem advance_arg0 (n : Nat) (s : State) : (State.advance n s).arg0 = s.arg0 := rfl
@[simp] theorem advance_arg1 (n : Nat) (s : State) : (State.advance n s).arg1 = s.arg1 := rfl
@[simp] theorem advance_res (n : Nat) (s : State) : (State.advance n s).res = s.res := rfl
@[simp] theorem advance_st (n : Nat) (s : State) : (State.advance n s).st = s.st := rfl
@[simp] theorem advance_phase (n : Nat) (s : State) : (State.advance n s).phase = s.phase := rfl
@[simp] theorem advance_issued (n : Nat) (s : State) : (State.advance n s).issued = s.issued := rfl
@[simp] theorem advance_drawn (n : Nat) (s : State) : (State.advance n s).drawn = s.drawn := rfl
@[simp] theorem advance_srcDraw (n : Nat) (s : State) : (State.advance n s).srcDraw = s.srcDraw := rfl
@[simp] theorem advance_params (n : Nat) (s : State) : (State.advance n s).params = s.params := rfl

@[simp] theorem afterElement_src (s : State) : (afterElement s).src = s.src := rfl
@[simp] theorem afterElement_srcLen (s : State) : (afterElement s).srcLen = s.srcLen := rfl
@[simp] theorem afterElement_rdByte (s : State) : (afterElement s).rdByte = s.rdByte := rfl
@[simp] theorem afterElement_rdBit (s : State) : (afterElement s).rdBit = s.rdBit := rfl
@[simp] theorem afterElement_wrAcc (s : State) : (afterElement s).wrAcc = s.wrAcc := rfl
@[simp] theorem afterElement_wrCnt (s : State) : (afterElement s).wrCnt = s.wrCnt := rfl
@[simp] theorem afterElement_snk (s : State) : (afterElement s).snk = s.snk := rfl
@[simp] theorem afterElement_g1Tw (s : State) : (afterElement s).g1Tw = s.g1Tw := rfl
@[simp] theorem afterElement_g1Th (s : State) : (afterElement s).g1Th = s.g1Th := rfl
@[simp] theorem afterElement_g1Primary (s : State) : (afterElement s).g1Primary = s.g1Primary := rfl
@[simp] theorem afterElement_g1Mode (s : State) : (afterElement s).g1Mode = s.g1Mode := rfl
@[simp] theorem afterElement_g1State (s : State) : (afterElement s).g1State = s.g1State := rfl
@[simp] theorem afterElement_g1Emit (s : State) : (afterElement s).g1Emit = s.g1Emit := rfl
@[simp] theorem afterElement_g1Total (s : State) : (afterElement s).g1Total = s.g1Total := rfl
@[simp] theorem afterElement_g1Cur (s : State) : (afterElement s).g1Cur = s.g1Cur := rfl
@[simp] theorem afterElement_ds (s : State) : (afterElement s).ds = s.ds := rfl
@[simp] theorem afterElement_bufB (s : State) : (afterElement s).bufB = s.bufB := rfl
@[simp] theorem afterElement_bufC (s : State) : (afterElement s).bufC = s.bufC := rfl
@[simp] theorem afterElement_g2Ip (s : State) : (afterElement s).g2Ip = s.g2Ip := rfl
@[simp] theorem afterElement_bufD (s : State) : (afterElement s).bufD = s.bufD := rfl
@[simp] theorem afterElement_g2Cmd (s : State) : (afterElement s).g2Cmd = s.g2Cmd := rfl
@[simp] theorem afterElement_g2Len (s : State) : (afterElement s).g2Len = s.g2Len := rfl
@[simp] theorem afterElement_g2Start (s : State) : (afterElement s).g2Start = s.g2Start := rfl
@[simp] theorem afterElement_g2Long (s : State) : (afterElement s).g2Long = s.g2Long := rfl
@[simp] theorem afterElement_g2Pfx (s : State) : (afterElement s).g2Pfx = s.g2Pfx := rfl
@[simp] theorem afterElement_g2Pw (s : State) : (afterElement s).g2Pw = s.g2Pw := rfl
@[simp] theorem afterElement_g2Ph (s : State) : (afterElement s).g2Ph = s.g2Ph := rfl
@[simp] theorem afterElement_g2Tw (s : State) : (afterElement s).g2Tw = s.g2Tw := rfl
@[simp] theorem afterElement_g2Th (s : State) : (afterElement s).g2Th = s.g2Th := rfl
@[simp] theorem afterElement_dlW (s : State) : (afterElement s).dlW = s.dlW := rfl
@[simp] theorem afterElement_dlH (s : State) : (afterElement s).dlH = s.dlH := rfl
@[simp] theorem afterElement_phW (s : State) : (afterElement s).phW = s.phW := rfl
@[simp] theorem afterElement_phH (s : State) : (afterElement s).phH = s.phH := rfl
@[simp] theorem afterElement_colOff (s : State) : (afterElement s).colOff = s.colOff := rfl
@[simp] theorem afterElement_rowOff (s : State) : (afterElement s).rowOff = s.rowOff := rfl
@[simp] theorem afterElement_p0 (s : State) : (afterElement s).p0 = s.p0 := rfl
@[simp] theorem afterElement_p1 (s : State) : (afterElement s).p1 = s.p1 := rfl
@[simp] theorem afterElement_pix (s : State) : (afterElement s).pix = s.pix := rfl
@[simp] theorem afterElement_raster (s : State) : (afterElement s).raster = s.raster := rfl
@[simp] theorem afterElement_pal (s : State) : (afterElement s).pal = s.pal := rfl
@[simp] theorem afterElement_cfg (s : State) : (afterElement s).cfg = s.cfg := rfl
@[simp] theorem afterElement_cmd (s : State) : (afterElement s).cmd = s.cmd := rfl
@[simp] theorem afterElement_arg0 (s : State) : (afterElement s).arg0 = s.arg0 := rfl
@[simp] theorem afterElement_arg1 (s : State) : (afterElement s).arg1 = s.arg1 := rfl
@[simp] theorem afterElement_res (s : State) : (afterElement s).res = s.res := rfl
@[simp] theorem afterElement_st (s : State) : (afterElement s).st = s.st := rfl
@[simp] theorem afterElement_issued (s : State) : (afterElement s).issued = s.issued := rfl
@[simp] theorem afterElement_drawn (s : State) : (afterElement s).drawn = s.drawn := rfl
@[simp] theorem afterElement_srcDraw (s : State) : (afterElement s).srcDraw = s.srcDraw := rfl
@[simp] theorem afterElement_params (s : State) : (afterElement s).params = s.params := rfl

@[simp] theorem lzCommand_src (n : Nat) (c : BitVec 3) (l : Nat) (g : BitVec 1) (s : State) : (lzCommand n c l g s).src = s.src := rfl
@[simp] theorem lzCommand_srcLen (n : Nat) (c : BitVec 3) (l : Nat) (g : BitVec 1) (s : State) : (lzCommand n c l g s).srcLen = s.srcLen := rfl
@[simp] theorem lzCommand_rdByte (n : Nat) (c : BitVec 3) (l : Nat) (g : BitVec 1) (s : State) : (lzCommand n c l g s).rdByte = s.rdByte := rfl
@[simp] theorem lzCommand_rdBit (n : Nat) (c : BitVec 3) (l : Nat) (g : BitVec 1) (s : State) : (lzCommand n c l g s).rdBit = s.rdBit := rfl
@[simp] theorem lzCommand_wrAcc (n : Nat) (c : BitVec 3) (l : Nat) (g : BitVec 1) (s : State) : (lzCommand n c l g s).wrAcc = s.wrAcc := rfl
@[simp] theorem lzCommand_wrCnt (n : Nat) (c : BitVec 3) (l : Nat) (g : BitVec 1) (s : State) : (lzCommand n c l g s).wrCnt = s.wrCnt := rfl
@[simp] theorem lzCommand_snk (n : Nat) (c : BitVec 3) (l : Nat) (g : BitVec 1) (s : State) : (lzCommand n c l g s).snk = s.snk := rfl
@[simp] theorem lzCommand_g1Tw (n : Nat) (c : BitVec 3) (l : Nat) (g : BitVec 1) (s : State) : (lzCommand n c l g s).g1Tw = s.g1Tw := rfl
@[simp] theorem lzCommand_g1Th (n : Nat) (c : BitVec 3) (l : Nat) (g : BitVec 1) (s : State) : (lzCommand n c l g s).g1Th = s.g1Th := rfl
@[simp] theorem lzCommand_g1Primary (n : Nat) (c : BitVec 3) (l : Nat) (g : BitVec 1) (s : State) : (lzCommand n c l g s).g1Primary = s.g1Primary := rfl
@[simp] theorem lzCommand_g1Mode (n : Nat) (c : BitVec 3) (l : Nat) (g : BitVec 1) (s : State) : (lzCommand n c l g s).g1Mode = s.g1Mode := rfl
@[simp] theorem lzCommand_g1State (n : Nat) (c : BitVec 3) (l : Nat) (g : BitVec 1) (s : State) : (lzCommand n c l g s).g1State = s.g1State := rfl
@[simp] theorem lzCommand_g1Emit (n : Nat) (c : BitVec 3) (l : Nat) (g : BitVec 1) (s : State) : (lzCommand n c l g s).g1Emit = s.g1Emit := rfl
@[simp] theorem lzCommand_g1Total (n : Nat) (c : BitVec 3) (l : Nat) (g : BitVec 1) (s : State) : (lzCommand n c l g s).g1Total = s.g1Total := rfl
@[simp] theorem lzCommand_g1Cur (n : Nat) (c : BitVec 3) (l : Nat) (g : BitVec 1) (s : State) : (lzCommand n c l g s).g1Cur = s.g1Cur := rfl
@[simp] theorem lzCommand_ds (n : Nat) (c : BitVec 3) (l : Nat) (g : BitVec 1) (s : State) : (lzCommand n c l g s).ds = s.ds := rfl
@[simp] theorem lzCommand_bufB (n : Nat) (c : BitVec 3) (l : Nat) (g : BitVec 1) (s : State) : (lzCommand n c l g s).bufB = s.bufB := rfl
@[simp] theorem lzCommand_bufC (n : Nat) (c : BitVec 3) (l : Nat) (g : BitVec 1) (s : State) : (lzCommand n c l g s).bufC = s.bufC := rfl
@[simp] theorem lzCommand_bufD (n : Nat) (c : BitVec 3) (l : Nat) (g : BitVec 1) (s : State) : (lzCommand n c l g s).bufD = s.bufD := rfl
@[simp] theorem lzCommand_g2Start (n : Nat) (c : BitVec 3) (l : Nat) (g : BitVec 1) (s : State) : (lzCommand n c l g s).g2Start = s.g2Start := rfl
@[simp] theorem lzCommand_g2Pfx (n : Nat) (c : BitVec 3) (l : Nat) (g : BitVec 1) (s : State) : (lzCommand n c l g s).g2Pfx = s.g2Pfx := rfl
@[simp] theorem lzCommand_g2Pw (n : Nat) (c : BitVec 3) (l : Nat) (g : BitVec 1) (s : State) : (lzCommand n c l g s).g2Pw = s.g2Pw := rfl
@[simp] theorem lzCommand_g2Ph (n : Nat) (c : BitVec 3) (l : Nat) (g : BitVec 1) (s : State) : (lzCommand n c l g s).g2Ph = s.g2Ph := rfl
@[simp] theorem lzCommand_g2Tw (n : Nat) (c : BitVec 3) (l : Nat) (g : BitVec 1) (s : State) : (lzCommand n c l g s).g2Tw = s.g2Tw := rfl
@[simp] theorem lzCommand_g2Th (n : Nat) (c : BitVec 3) (l : Nat) (g : BitVec 1) (s : State) : (lzCommand n c l g s).g2Th = s.g2Th := rfl
@[simp] theorem lzCommand_dlW (n : Nat) (c : BitVec 3) (l : Nat) (g : BitVec 1) (s : State) : (lzCommand n c l g s).dlW = s.dlW := rfl
@[simp] theorem lzCommand_dlH (n : Nat) (c : BitVec 3) (l : Nat) (g : BitVec 1) (s : State) : (lzCommand n c l g s).dlH = s.dlH := rfl
@[simp] theorem lzCommand_phW (n : Nat) (c : BitVec 3) (l : Nat) (g : BitVec 1) (s : State) : (lzCommand n c l g s).phW = s.phW := rfl
@[simp] theorem lzCommand_phH (n : Nat) (c : BitVec 3) (l : Nat) (g : BitVec 1) (s : State) : (lzCommand n c l g s).phH = s.phH := rfl
@[simp] theorem lzCommand_colOff (n : Nat) (c : BitVec 3) (l : Nat) (g : BitVec 1) (s : State) : (lzCommand n c l g s).colOff = s.colOff := rfl
@[simp] theorem lzCommand_rowOff (n : Nat) (c : BitVec 3) (l : Nat) (g : BitVec 1) (s : State) : (lzCommand n c l g s).rowOff = s.rowOff := rfl
@[simp] theorem lzCommand_p0 (n : Nat) (c : BitVec 3) (l : Nat) (g : BitVec 1) (s : State) : (lzCommand n c l g s).p0 = s.p0 := rfl
@[simp] theorem lzCommand_p1 (n : Nat) (c : BitVec 3) (l : Nat) (g : BitVec 1) (s : State) : (lzCommand n c l g s).p1 = s.p1 := rfl
@[simp] theorem lzCommand_pix (n : Nat) (c : BitVec 3) (l : Nat) (g : BitVec 1) (s : State) : (lzCommand n c l g s).pix = s.pix := rfl
@[simp] theorem lzCommand_raster (n : Nat) (c : BitVec 3) (l : Nat) (g : BitVec 1) (s : State) : (lzCommand n c l g s).raster = s.raster := rfl
@[simp] theorem lzCommand_pal (n : Nat) (c : BitVec 3) (l : Nat) (g : BitVec 1) (s : State) : (lzCommand n c l g s).pal = s.pal := rfl
@[simp] theorem lzCommand_cfg (n : Nat) (c : BitVec 3) (l : Nat) (g : BitVec 1) (s : State) : (lzCommand n c l g s).cfg = s.cfg := rfl
@[simp] theorem lzCommand_cmd (n : Nat) (c : BitVec 3) (l : Nat) (g : BitVec 1) (s : State) : (lzCommand n c l g s).cmd = s.cmd := rfl
@[simp] theorem lzCommand_arg0 (n : Nat) (c : BitVec 3) (l : Nat) (g : BitVec 1) (s : State) : (lzCommand n c l g s).arg0 = s.arg0 := rfl
@[simp] theorem lzCommand_arg1 (n : Nat) (c : BitVec 3) (l : Nat) (g : BitVec 1) (s : State) : (lzCommand n c l g s).arg1 = s.arg1 := rfl
@[simp] theorem lzCommand_res (n : Nat) (c : BitVec 3) (l : Nat) (g : BitVec 1) (s : State) : (lzCommand n c l g s).res = s.res := rfl
@[simp] theorem lzCommand_st (n : Nat) (c : BitVec 3) (l : Nat) (g : BitVec 1) (s : State) : (lzCommand n c l g s).st = s.st := rfl
@[simp] theorem lzCommand_phase (n : Nat) (c : BitVec 3) (l : Nat) (g : BitVec 1) (s : State) : (lzCommand n c l g s).phase = s.phase := rfl
@[simp] theorem lzCommand_issued (n : Nat) (c : BitVec 3) (l : Nat) (g : BitVec 1) (s : State) : (lzCommand n c l g s).issued = s.issued := rfl
@[simp] theorem lzCommand_drawn (n : Nat) (c : BitVec 3) (l : Nat) (g : BitVec 1) (s : State) : (lzCommand n c l g s).drawn = s.drawn := rfl
@[simp] theorem lzCommand_srcDraw (n : Nat) (c : BitVec 3) (l : Nat) (g : BitVec 1) (s : State) : (lzCommand n c l g s).srcDraw = s.srcDraw := rfl
@[simp] theorem lzCommand_params (n : Nat) (c : BitVec 3) (l : Nat) (g : BitVec 1) (s : State) : (lzCommand n c l g s).params = s.params := rfl

@[simp] theorem startRel_src (y : BitVec 7) (s : State) : (startRel y s).src = s.src := rfl
@[simp] theorem startRel_srcLen (y : BitVec 7) (s : State) : (startRel y s).srcLen = s.srcLen := rfl
@[simp] theorem startRel_rdByte (y : BitVec 7) (s : State) : (startRel y s).rdByte = s.rdByte := rfl
@[simp] theorem startRel_rdBit (y : BitVec 7) (s : State) : (startRel y s).rdBit = s.rdBit := rfl
@[simp] theorem startRel_wrAcc (y : BitVec 7) (s : State) : (startRel y s).wrAcc = s.wrAcc := rfl
@[simp] theorem startRel_wrCnt (y : BitVec 7) (s : State) : (startRel y s).wrCnt = s.wrCnt := rfl
@[simp] theorem startRel_snk (y : BitVec 7) (s : State) : (startRel y s).snk = s.snk := rfl
@[simp] theorem startRel_g1Tw (y : BitVec 7) (s : State) : (startRel y s).g1Tw = s.g1Tw := rfl
@[simp] theorem startRel_g1Th (y : BitVec 7) (s : State) : (startRel y s).g1Th = s.g1Th := rfl
@[simp] theorem startRel_g1Primary (y : BitVec 7) (s : State) : (startRel y s).g1Primary = s.g1Primary := rfl
@[simp] theorem startRel_g1Mode (y : BitVec 7) (s : State) : (startRel y s).g1Mode = s.g1Mode := rfl
@[simp] theorem startRel_g1State (y : BitVec 7) (s : State) : (startRel y s).g1State = s.g1State := rfl
@[simp] theorem startRel_g1Emit (y : BitVec 7) (s : State) : (startRel y s).g1Emit = s.g1Emit := rfl
@[simp] theorem startRel_g1Total (y : BitVec 7) (s : State) : (startRel y s).g1Total = s.g1Total := rfl
@[simp] theorem startRel_g1Cur (y : BitVec 7) (s : State) : (startRel y s).g1Cur = s.g1Cur := rfl
@[simp] theorem startRel_ds (y : BitVec 7) (s : State) : (startRel y s).ds = s.ds := rfl
@[simp] theorem startRel_bufB (y : BitVec 7) (s : State) : (startRel y s).bufB = s.bufB := rfl
@[simp] theorem startRel_bufC (y : BitVec 7) (s : State) : (startRel y s).bufC = s.bufC := rfl
@[simp] theorem startRel_g2Ip (y : BitVec 7) (s : State) : (startRel y s).g2Ip = s.g2Ip := rfl
@[simp] theorem startRel_bufD (y : BitVec 7) (s : State) : (startRel y s).bufD = s.bufD := rfl
@[simp] theorem startRel_g2Cmd (y : BitVec 7) (s : State) : (startRel y s).g2Cmd = s.g2Cmd := rfl
@[simp] theorem startRel_g2Len (y : BitVec 7) (s : State) : (startRel y s).g2Len = s.g2Len := rfl
@[simp] theorem startRel_g2Long (y : BitVec 7) (s : State) : (startRel y s).g2Long = s.g2Long := rfl
@[simp] theorem startRel_g2Pfx (y : BitVec 7) (s : State) : (startRel y s).g2Pfx = s.g2Pfx := rfl
@[simp] theorem startRel_g2Pw (y : BitVec 7) (s : State) : (startRel y s).g2Pw = s.g2Pw := rfl
@[simp] theorem startRel_g2Ph (y : BitVec 7) (s : State) : (startRel y s).g2Ph = s.g2Ph := rfl
@[simp] theorem startRel_g2Tw (y : BitVec 7) (s : State) : (startRel y s).g2Tw = s.g2Tw := rfl
@[simp] theorem startRel_g2Th (y : BitVec 7) (s : State) : (startRel y s).g2Th = s.g2Th := rfl
@[simp] theorem startRel_dlW (y : BitVec 7) (s : State) : (startRel y s).dlW = s.dlW := rfl
@[simp] theorem startRel_dlH (y : BitVec 7) (s : State) : (startRel y s).dlH = s.dlH := rfl
@[simp] theorem startRel_phW (y : BitVec 7) (s : State) : (startRel y s).phW = s.phW := rfl
@[simp] theorem startRel_phH (y : BitVec 7) (s : State) : (startRel y s).phH = s.phH := rfl
@[simp] theorem startRel_colOff (y : BitVec 7) (s : State) : (startRel y s).colOff = s.colOff := rfl
@[simp] theorem startRel_rowOff (y : BitVec 7) (s : State) : (startRel y s).rowOff = s.rowOff := rfl
@[simp] theorem startRel_p0 (y : BitVec 7) (s : State) : (startRel y s).p0 = s.p0 := rfl
@[simp] theorem startRel_p1 (y : BitVec 7) (s : State) : (startRel y s).p1 = s.p1 := rfl
@[simp] theorem startRel_pix (y : BitVec 7) (s : State) : (startRel y s).pix = s.pix := rfl
@[simp] theorem startRel_raster (y : BitVec 7) (s : State) : (startRel y s).raster = s.raster := rfl
@[simp] theorem startRel_pal (y : BitVec 7) (s : State) : (startRel y s).pal = s.pal := rfl
@[simp] theorem startRel_cfg (y : BitVec 7) (s : State) : (startRel y s).cfg = s.cfg := rfl
@[simp] theorem startRel_cmd (y : BitVec 7) (s : State) : (startRel y s).cmd = s.cmd := rfl
@[simp] theorem startRel_arg0 (y : BitVec 7) (s : State) : (startRel y s).arg0 = s.arg0 := rfl
@[simp] theorem startRel_arg1 (y : BitVec 7) (s : State) : (startRel y s).arg1 = s.arg1 := rfl
@[simp] theorem startRel_res (y : BitVec 7) (s : State) : (startRel y s).res = s.res := rfl
@[simp] theorem startRel_st (y : BitVec 7) (s : State) : (startRel y s).st = s.st := rfl
@[simp] theorem startRel_phase (y : BitVec 7) (s : State) : (startRel y s).phase = s.phase := rfl
@[simp] theorem startRel_issued (y : BitVec 7) (s : State) : (startRel y s).issued = s.issued := rfl
@[simp] theorem startRel_drawn (y : BitVec 7) (s : State) : (startRel y s).drawn = s.drawn := rfl
@[simp] theorem startRel_srcDraw (y : BitVec 7) (s : State) : (startRel y s).srcDraw = s.srcDraw := rfl
@[simp] theorem startRel_params (y : BitVec 7) (s : State) : (startRel y s).params = s.params := rfl

@[simp] theorem startAbs_src (y : BitVec 7) (a : Byte) (s : State) : (startAbs y a s).src = s.src := rfl
@[simp] theorem startAbs_srcLen (y : BitVec 7) (a : Byte) (s : State) : (startAbs y a s).srcLen = s.srcLen := rfl
@[simp] theorem startAbs_rdByte (y : BitVec 7) (a : Byte) (s : State) : (startAbs y a s).rdByte = s.rdByte := rfl
@[simp] theorem startAbs_rdBit (y : BitVec 7) (a : Byte) (s : State) : (startAbs y a s).rdBit = s.rdBit := rfl
@[simp] theorem startAbs_wrAcc (y : BitVec 7) (a : Byte) (s : State) : (startAbs y a s).wrAcc = s.wrAcc := rfl
@[simp] theorem startAbs_wrCnt (y : BitVec 7) (a : Byte) (s : State) : (startAbs y a s).wrCnt = s.wrCnt := rfl
@[simp] theorem startAbs_snk (y : BitVec 7) (a : Byte) (s : State) : (startAbs y a s).snk = s.snk := rfl
@[simp] theorem startAbs_g1Tw (y : BitVec 7) (a : Byte) (s : State) : (startAbs y a s).g1Tw = s.g1Tw := rfl
@[simp] theorem startAbs_g1Th (y : BitVec 7) (a : Byte) (s : State) : (startAbs y a s).g1Th = s.g1Th := rfl
@[simp] theorem startAbs_g1Primary (y : BitVec 7) (a : Byte) (s : State) : (startAbs y a s).g1Primary = s.g1Primary := rfl
@[simp] theorem startAbs_g1Mode (y : BitVec 7) (a : Byte) (s : State) : (startAbs y a s).g1Mode = s.g1Mode := rfl
@[simp] theorem startAbs_g1State (y : BitVec 7) (a : Byte) (s : State) : (startAbs y a s).g1State = s.g1State := rfl
@[simp] theorem startAbs_g1Emit (y : BitVec 7) (a : Byte) (s : State) : (startAbs y a s).g1Emit = s.g1Emit := rfl
@[simp] theorem startAbs_g1Total (y : BitVec 7) (a : Byte) (s : State) : (startAbs y a s).g1Total = s.g1Total := rfl
@[simp] theorem startAbs_g1Cur (y : BitVec 7) (a : Byte) (s : State) : (startAbs y a s).g1Cur = s.g1Cur := rfl
@[simp] theorem startAbs_ds (y : BitVec 7) (a : Byte) (s : State) : (startAbs y a s).ds = s.ds := rfl
@[simp] theorem startAbs_bufB (y : BitVec 7) (a : Byte) (s : State) : (startAbs y a s).bufB = s.bufB := rfl
@[simp] theorem startAbs_bufC (y : BitVec 7) (a : Byte) (s : State) : (startAbs y a s).bufC = s.bufC := rfl
@[simp] theorem startAbs_g2Ip (y : BitVec 7) (a : Byte) (s : State) : (startAbs y a s).g2Ip = s.g2Ip := rfl
@[simp] theorem startAbs_bufD (y : BitVec 7) (a : Byte) (s : State) : (startAbs y a s).bufD = s.bufD := rfl
@[simp] theorem startAbs_g2Cmd (y : BitVec 7) (a : Byte) (s : State) : (startAbs y a s).g2Cmd = s.g2Cmd := rfl
@[simp] theorem startAbs_g2Len (y : BitVec 7) (a : Byte) (s : State) : (startAbs y a s).g2Len = s.g2Len := rfl
@[simp] theorem startAbs_g2Long (y : BitVec 7) (a : Byte) (s : State) : (startAbs y a s).g2Long = s.g2Long := rfl
@[simp] theorem startAbs_g2Pfx (y : BitVec 7) (a : Byte) (s : State) : (startAbs y a s).g2Pfx = s.g2Pfx := rfl
@[simp] theorem startAbs_g2Pw (y : BitVec 7) (a : Byte) (s : State) : (startAbs y a s).g2Pw = s.g2Pw := rfl
@[simp] theorem startAbs_g2Ph (y : BitVec 7) (a : Byte) (s : State) : (startAbs y a s).g2Ph = s.g2Ph := rfl
@[simp] theorem startAbs_g2Tw (y : BitVec 7) (a : Byte) (s : State) : (startAbs y a s).g2Tw = s.g2Tw := rfl
@[simp] theorem startAbs_g2Th (y : BitVec 7) (a : Byte) (s : State) : (startAbs y a s).g2Th = s.g2Th := rfl
@[simp] theorem startAbs_dlW (y : BitVec 7) (a : Byte) (s : State) : (startAbs y a s).dlW = s.dlW := rfl
@[simp] theorem startAbs_dlH (y : BitVec 7) (a : Byte) (s : State) : (startAbs y a s).dlH = s.dlH := rfl
@[simp] theorem startAbs_phW (y : BitVec 7) (a : Byte) (s : State) : (startAbs y a s).phW = s.phW := rfl
@[simp] theorem startAbs_phH (y : BitVec 7) (a : Byte) (s : State) : (startAbs y a s).phH = s.phH := rfl
@[simp] theorem startAbs_colOff (y : BitVec 7) (a : Byte) (s : State) : (startAbs y a s).colOff = s.colOff := rfl
@[simp] theorem startAbs_rowOff (y : BitVec 7) (a : Byte) (s : State) : (startAbs y a s).rowOff = s.rowOff := rfl
@[simp] theorem startAbs_p0 (y : BitVec 7) (a : Byte) (s : State) : (startAbs y a s).p0 = s.p0 := rfl
@[simp] theorem startAbs_p1 (y : BitVec 7) (a : Byte) (s : State) : (startAbs y a s).p1 = s.p1 := rfl
@[simp] theorem startAbs_pix (y : BitVec 7) (a : Byte) (s : State) : (startAbs y a s).pix = s.pix := rfl
@[simp] theorem startAbs_raster (y : BitVec 7) (a : Byte) (s : State) : (startAbs y a s).raster = s.raster := rfl
@[simp] theorem startAbs_pal (y : BitVec 7) (a : Byte) (s : State) : (startAbs y a s).pal = s.pal := rfl
@[simp] theorem startAbs_cfg (y : BitVec 7) (a : Byte) (s : State) : (startAbs y a s).cfg = s.cfg := rfl
@[simp] theorem startAbs_cmd (y : BitVec 7) (a : Byte) (s : State) : (startAbs y a s).cmd = s.cmd := rfl
@[simp] theorem startAbs_arg0 (y : BitVec 7) (a : Byte) (s : State) : (startAbs y a s).arg0 = s.arg0 := rfl
@[simp] theorem startAbs_arg1 (y : BitVec 7) (a : Byte) (s : State) : (startAbs y a s).arg1 = s.arg1 := rfl
@[simp] theorem startAbs_res (y : BitVec 7) (a : Byte) (s : State) : (startAbs y a s).res = s.res := rfl
@[simp] theorem startAbs_st (y : BitVec 7) (a : Byte) (s : State) : (startAbs y a s).st = s.st := rfl
@[simp] theorem startAbs_phase (y : BitVec 7) (a : Byte) (s : State) : (startAbs y a s).phase = s.phase := rfl
@[simp] theorem startAbs_issued (y : BitVec 7) (a : Byte) (s : State) : (startAbs y a s).issued = s.issued := rfl
@[simp] theorem startAbs_drawn (y : BitVec 7) (a : Byte) (s : State) : (startAbs y a s).drawn = s.drawn := rfl
@[simp] theorem startAbs_srcDraw (y : BitVec 7) (a : Byte) (s : State) : (startAbs y a s).srcDraw = s.srcDraw := rfl
@[simp] theorem startAbs_params (y : BitVec 7) (a : Byte) (s : State) : (startAbs y a s).params = s.params := rfl

@[simp] theorem openCursors_src (s : State) : (openCursors s).src = s.src := rfl
@[simp] theorem openCursors_srcLen (s : State) : (openCursors s).srcLen = s.srcLen := rfl
@[simp] theorem openCursors_g1Tw (s : State) : (openCursors s).g1Tw = s.g1Tw := rfl
@[simp] theorem openCursors_g1Th (s : State) : (openCursors s).g1Th = s.g1Th := rfl
@[simp] theorem openCursors_g1Primary (s : State) : (openCursors s).g1Primary = s.g1Primary := rfl
@[simp] theorem openCursors_g1Mode (s : State) : (openCursors s).g1Mode = s.g1Mode := rfl
@[simp] theorem openCursors_g1State (s : State) : (openCursors s).g1State = s.g1State := rfl
@[simp] theorem openCursors_g1Emit (s : State) : (openCursors s).g1Emit = s.g1Emit := rfl
@[simp] theorem openCursors_g1Total (s : State) : (openCursors s).g1Total = s.g1Total := rfl
@[simp] theorem openCursors_g1Cur (s : State) : (openCursors s).g1Cur = s.g1Cur := rfl
@[simp] theorem openCursors_ds (s : State) : (openCursors s).ds = s.ds := rfl
@[simp] theorem openCursors_bufB (s : State) : (openCursors s).bufB = s.bufB := rfl
@[simp] theorem openCursors_bufC (s : State) : (openCursors s).bufC = s.bufC := rfl
@[simp] theorem openCursors_g2Ip (s : State) : (openCursors s).g2Ip = s.g2Ip := rfl
@[simp] theorem openCursors_bufD (s : State) : (openCursors s).bufD = s.bufD := rfl
@[simp] theorem openCursors_g2Cmd (s : State) : (openCursors s).g2Cmd = s.g2Cmd := rfl
@[simp] theorem openCursors_g2Len (s : State) : (openCursors s).g2Len = s.g2Len := rfl
@[simp] theorem openCursors_g2Start (s : State) : (openCursors s).g2Start = s.g2Start := rfl
@[simp] theorem openCursors_g2Long (s : State) : (openCursors s).g2Long = s.g2Long := rfl
@[simp] theorem openCursors_g2Pfx (s : State) : (openCursors s).g2Pfx = s.g2Pfx := rfl
@[simp] theorem openCursors_g2Pw (s : State) : (openCursors s).g2Pw = s.g2Pw := rfl
@[simp] theorem openCursors_g2Ph (s : State) : (openCursors s).g2Ph = s.g2Ph := rfl
@[simp] theorem openCursors_g2Tw (s : State) : (openCursors s).g2Tw = s.g2Tw := rfl
@[simp] theorem openCursors_g2Th (s : State) : (openCursors s).g2Th = s.g2Th := rfl
@[simp] theorem openCursors_dlW (s : State) : (openCursors s).dlW = s.dlW := rfl
@[simp] theorem openCursors_dlH (s : State) : (openCursors s).dlH = s.dlH := rfl
@[simp] theorem openCursors_phW (s : State) : (openCursors s).phW = s.phW := rfl
@[simp] theorem openCursors_phH (s : State) : (openCursors s).phH = s.phH := rfl
@[simp] theorem openCursors_colOff (s : State) : (openCursors s).colOff = s.colOff := rfl
@[simp] theorem openCursors_rowOff (s : State) : (openCursors s).rowOff = s.rowOff := rfl
@[simp] theorem openCursors_p0 (s : State) : (openCursors s).p0 = s.p0 := rfl
@[simp] theorem openCursors_p1 (s : State) : (openCursors s).p1 = s.p1 := rfl
@[simp] theorem openCursors_pix (s : State) : (openCursors s).pix = s.pix := rfl
@[simp] theorem openCursors_raster (s : State) : (openCursors s).raster = s.raster := rfl
@[simp] theorem openCursors_pal (s : State) : (openCursors s).pal = s.pal := rfl
@[simp] theorem openCursors_cfg (s : State) : (openCursors s).cfg = s.cfg := rfl
@[simp] theorem openCursors_cmd (s : State) : (openCursors s).cmd = s.cmd := rfl
@[simp] theorem openCursors_arg0 (s : State) : (openCursors s).arg0 = s.arg0 := rfl
@[simp] theorem openCursors_arg1 (s : State) : (openCursors s).arg1 = s.arg1 := rfl
@[simp] theorem openCursors_res (s : State) : (openCursors s).res = s.res := rfl
@[simp] theorem openCursors_st (s : State) : (openCursors s).st = s.st := rfl
@[simp] theorem openCursors_phase (s : State) : (openCursors s).phase = s.phase := rfl
@[simp] theorem openCursors_issued (s : State) : (openCursors s).issued = s.issued := rfl
@[simp] theorem openCursors_drawn (s : State) : (openCursors s).drawn = s.drawn := rfl
@[simp] theorem openCursors_srcDraw (s : State) : (openCursors s).srcDraw = s.srcDraw := rfl
@[simp] theorem openCursors_params (s : State) : (openCursors s).params = s.params := rfl

@[simp] theorem assemble_src (s : State) : (assemble s).src = s.src := rfl
@[simp] theorem assemble_srcLen (s : State) : (assemble s).srcLen = s.srcLen := rfl
@[simp] theorem assemble_rdByte (s : State) : (assemble s).rdByte = s.rdByte := rfl
@[simp] theorem assemble_rdBit (s : State) : (assemble s).rdBit = s.rdBit := rfl
@[simp] theorem assemble_wrAcc (s : State) : (assemble s).wrAcc = s.wrAcc := rfl
@[simp] theorem assemble_wrCnt (s : State) : (assemble s).wrCnt = s.wrCnt := rfl
@[simp] theorem assemble_snk (s : State) : (assemble s).snk = s.snk := rfl
@[simp] theorem assemble_g1Tw (s : State) : (assemble s).g1Tw = s.g1Tw := rfl
@[simp] theorem assemble_g1Th (s : State) : (assemble s).g1Th = s.g1Th := rfl
@[simp] theorem assemble_g1Primary (s : State) : (assemble s).g1Primary = s.g1Primary := rfl
@[simp] theorem assemble_g1Mode (s : State) : (assemble s).g1Mode = s.g1Mode := rfl
@[simp] theorem assemble_g1State (s : State) : (assemble s).g1State = s.g1State := rfl
@[simp] theorem assemble_g1Emit (s : State) : (assemble s).g1Emit = s.g1Emit := rfl
@[simp] theorem assemble_g1Total (s : State) : (assemble s).g1Total = s.g1Total := rfl
@[simp] theorem assemble_g1Cur (s : State) : (assemble s).g1Cur = s.g1Cur := rfl
@[simp] theorem assemble_ds (s : State) : (assemble s).ds = s.ds := rfl
@[simp] theorem assemble_bufB (s : State) : (assemble s).bufB = s.bufB := rfl
@[simp] theorem assemble_bufC (s : State) : (assemble s).bufC = s.bufC := rfl
@[simp] theorem assemble_g2Ip (s : State) : (assemble s).g2Ip = s.g2Ip := rfl
@[simp] theorem assemble_bufD (s : State) : (assemble s).bufD = s.bufD := rfl
@[simp] theorem assemble_g2Cmd (s : State) : (assemble s).g2Cmd = s.g2Cmd := rfl
@[simp] theorem assemble_g2Len (s : State) : (assemble s).g2Len = s.g2Len := rfl
@[simp] theorem assemble_g2Start (s : State) : (assemble s).g2Start = s.g2Start := rfl
@[simp] theorem assemble_g2Long (s : State) : (assemble s).g2Long = s.g2Long := rfl
@[simp] theorem assemble_g2Pfx (s : State) : (assemble s).g2Pfx = s.g2Pfx := rfl
@[simp] theorem assemble_g2Pw (s : State) : (assemble s).g2Pw = s.g2Pw := rfl
@[simp] theorem assemble_g2Ph (s : State) : (assemble s).g2Ph = s.g2Ph := rfl
@[simp] theorem assemble_g2Tw (s : State) : (assemble s).g2Tw = s.g2Tw := rfl
@[simp] theorem assemble_g2Th (s : State) : (assemble s).g2Th = s.g2Th := rfl
@[simp] theorem assemble_dlW (s : State) : (assemble s).dlW = s.dlW := rfl
@[simp] theorem assemble_dlH (s : State) : (assemble s).dlH = s.dlH := rfl
@[simp] theorem assemble_phW (s : State) : (assemble s).phW = s.phW := rfl
@[simp] theorem assemble_phH (s : State) : (assemble s).phH = s.phH := rfl
@[simp] theorem assemble_colOff (s : State) : (assemble s).colOff = s.colOff := rfl
@[simp] theorem assemble_rowOff (s : State) : (assemble s).rowOff = s.rowOff := rfl
@[simp] theorem assemble_p0 (s : State) : (assemble s).p0 = s.p0 := rfl
@[simp] theorem assemble_p1 (s : State) : (assemble s).p1 = s.p1 := rfl
@[simp] theorem assemble_pal (s : State) : (assemble s).pal = s.pal := rfl
@[simp] theorem assemble_cfg (s : State) : (assemble s).cfg = s.cfg := rfl
@[simp] theorem assemble_cmd (s : State) : (assemble s).cmd = s.cmd := rfl
@[simp] theorem assemble_arg0 (s : State) : (assemble s).arg0 = s.arg0 := rfl
@[simp] theorem assemble_arg1 (s : State) : (assemble s).arg1 = s.arg1 := rfl
@[simp] theorem assemble_res (s : State) : (assemble s).res = s.res := rfl
@[simp] theorem assemble_st (s : State) : (assemble s).st = s.st := rfl
@[simp] theorem assemble_phase (s : State) : (assemble s).phase = s.phase := rfl
@[simp] theorem assemble_issued (s : State) : (assemble s).issued = s.issued := rfl
@[simp] theorem assemble_drawn (s : State) : (assemble s).drawn = s.drawn := rfl
@[simp] theorem assemble_srcDraw (s : State) : (assemble s).srcDraw = s.srcDraw := rfl
@[simp] theorem assemble_params (s : State) : (assemble s).params = s.params := rfl

@[simp] theorem unspecified_src (s : State) : (State.unspecified s).src = s.src := rfl
@[simp] theorem unspecified_srcLen (s : State) : (State.unspecified s).srcLen = s.srcLen := rfl
@[simp] theorem unspecified_pal (s : State) : (State.unspecified s).pal = s.pal := rfl
@[simp] theorem unspecified_cfg (s : State) : (State.unspecified s).cfg = s.cfg := rfl
@[simp] theorem unspecified_cmd (s : State) : (State.unspecified s).cmd = s.cmd := rfl
@[simp] theorem unspecified_arg0 (s : State) : (State.unspecified s).arg0 = s.arg0 := rfl
@[simp] theorem unspecified_arg1 (s : State) : (State.unspecified s).arg1 = s.arg1 := rfl
@[simp] theorem unspecified_st (s : State) : (State.unspecified s).st = s.st := rfl
@[simp] theorem unspecified_phase (s : State) : (State.unspecified s).phase = s.phase := rfl
@[simp] theorem unspecified_issued (s : State) : (State.unspecified s).issued = s.issued := rfl
@[simp] theorem unspecified_srcDraw (s : State) : (State.unspecified s).srcDraw = s.srcDraw := rfl
@[simp] theorem unspecified_params (s : State) : (State.unspecified s).params = s.params := rfl

@[simp] theorem lzCommand_g2Ip_eq (n : Nat) (c : BitVec 3) (l : Nat) (g : BitVec 1) (s : State) : (lzCommand n c l g s).g2Ip = s.g2Ip + n := rfl
@[simp] theorem lzCommand_g2Cmd_eq (n : Nat) (c : BitVec 3) (l : Nat) (g : BitVec 1) (s : State) : (lzCommand n c l g s).g2Cmd = c := rfl
@[simp] theorem lzCommand_g2Len_eq (n : Nat) (c : BitVec 3) (l : Nat) (g : BitVec 1) (s : State) : (lzCommand n c l g s).g2Len = l := rfl
@[simp] theorem lzCommand_g2Long_eq (n : Nat) (c : BitVec 3) (l : Nat) (g : BitVec 1) (s : State) : (lzCommand n c l g s).g2Long = g := rfl

@[simp] theorem stop_raise_src (k : ErrKind) (s : State) : (State.stop (.raise k) s).src = s.src := rfl
@[simp] theorem stop_raise_srcLen (k : ErrKind) (s : State) : (State.stop (.raise k) s).srcLen = s.srcLen := rfl
@[simp] theorem stop_raise_cfg (k : ErrKind) (s : State) : (State.stop (.raise k) s).cfg = s.cfg := rfl
@[simp] theorem stop_raise_cmd (k : ErrKind) (s : State) : (State.stop (.raise k) s).cmd = s.cmd := rfl
@[simp] theorem stop_raise_arg0 (k : ErrKind) (s : State) : (State.stop (.raise k) s).arg0 = s.arg0 := rfl
@[simp] theorem stop_raise_arg1 (k : ErrKind) (s : State) : (State.stop (.raise k) s).arg1 = s.arg1 := rfl
@[simp] theorem stop_raise_issued (k : ErrKind) (s : State) : (State.stop (.raise k) s).issued = s.issued := rfl
@[simp] theorem stop_raise_srcDraw (k : ErrKind) (s : State) : (State.stop (.raise k) s).srcDraw = s.srcDraw := rfl
@[simp] theorem stop_raise_params (k : ErrKind) (s : State) : (State.stop (.raise k) s).params = s.params := rfl
@[simp] theorem stop_raise_st (k : ErrKind) (s : State) : (State.stop (.raise k) s).st = s.st.raise k := rfl
@[simp] theorem stop_refuse_src (r : RefReason) (s : State) : (State.stop (.refuse r) s).src = s.src := by cases r <;> rfl
@[simp] theorem stop_refuse_srcLen (r : RefReason) (s : State) : (State.stop (.refuse r) s).srcLen = s.srcLen := by cases r <;> rfl
@[simp] theorem stop_refuse_cfg (r : RefReason) (s : State) : (State.stop (.refuse r) s).cfg = s.cfg := by cases r <;> rfl
@[simp] theorem stop_refuse_cmd (r : RefReason) (s : State) : (State.stop (.refuse r) s).cmd = s.cmd := by cases r <;> rfl
@[simp] theorem stop_refuse_arg0 (r : RefReason) (s : State) : (State.stop (.refuse r) s).arg0 = s.arg0 := by cases r <;> rfl
@[simp] theorem stop_refuse_arg1 (r : RefReason) (s : State) : (State.stop (.refuse r) s).arg1 = s.arg1 := by cases r <;> rfl
@[simp] theorem stop_refuse_issued (r : RefReason) (s : State) : (State.stop (.refuse r) s).issued = s.issued := by cases r <;> rfl
@[simp] theorem stop_refuse_srcDraw (r : RefReason) (s : State) : (State.stop (.refuse r) s).srcDraw = s.srcDraw := by cases r <;> rfl
@[simp] theorem stop_refuse_params (r : RefReason) (s : State) : (State.stop (.refuse r) s).params = s.params := by cases r <;> rfl
@[simp] theorem stop_refuse_st (r : RefReason) (s : State) : (State.stop (.refuse r) s).st = s.st.refuse r := by cases r <;> rfl

@[simp] theorem stop_raise_snk (k : ErrKind) (s : State) : (State.stop (.raise k) s).snk = s.snkAfterFault := rfl
@[simp] theorem stop_raise_pal (k : ErrKind) (s : State) : (State.stop (.raise k) s).pal = s.palAfterStop := rfl

/-- A fault keeps the bytes emitted before it (R63). -/
theorem snk_prefix_afterFault (s : State) : s.snk <+: s.snkAfterFault := List.prefix_append _ _

/-- A stop leaves `PAL` alone unless a `G2.DECODE` has written it (R41). -/
theorem stop_pal {s : State} (e : Stop) (h : s.palWritten = false) : (State.stop e s).pal = s.pal := by
  have hp : s.palAfterStop = s.pal := by simp [State.palAfterStop, h]
  rcases e with _ | r
  · exact hp
  · cases r <;> first | rfl | exact hp

@[simp] theorem stop_raise_phase (k : ErrKind) (s : State) : (State.stop (.raise k) s).phase = .idle := rfl

end Sys2Proof.Machine
end

