-- ==== Sys2Proof/Laws/Ops.lean ====
section
/-! SUPPORT. For each shared operation, one lemma that says what it can do: if it ends with a value, that value; if it
stops, how. Proofs cite these and leave the operations folded. -/

namespace Sys2Proof.Machine

/-! ## Stopping -/

/-- Whatever an operation ends with, the block answers a next state. -/
theorem settle_next (s : State) (r : Op State) : ∃ t, settle s r = .next t := by
  cases r <;> exact ⟨_, rfl⟩

@[simp] theorem settle_ok (s t : State) : settle s (.ok t) = .next t := rfl

@[simp] theorem settle_error (s : State) (e : Stop) : settle s (.error e) = .next (s.stop e) := rfl

/-- The two ways an operation settles. -/
theorem settle_cases {s t : State} {r : Op State} (h : settle s r = .next t) : r = .ok t ∨ ∃ e, r = .error e ∧ t = s.stop e := by
  cases r with
  | ok u => left; cases h; rfl
  | error e => right; cases h; exact ⟨e, rfl, rfl⟩

theorem stop_stuck (e : Stop) (s : State) : (s.stop e).st.stuck = true := by
  rcases e with k | r
  · simp [Status.stuck, Status.raise]
  · cases r <;> simp [State.stop, Status.stuck, Status.refuse]

theorem stop_not_done (e : Stop) (s : State) : (s.stop e).st.done = false := by
  rcases e with k | r
  · rfl
  · cases r <;> rfl

/-! ## The reader -/

theorem rdPos_div (s : State) : s.rdPos / 8 = s.rdByte := by
  have := s.rdBit.isLt
  unfold State.rdPos; omega

theorem rdPos_mod (s : State) : s.rdPos % 8 = s.rdBit.toNat := by
  have := s.rdBit.isLt
  unfold State.rdPos; omega

@[simp] theorem rdPos_advance (n : Nat) (s : State) : (s.advance n).rdPos = s.rdPos + n := by
  unfold State.advance State.rdPos
  simp only [BitVec.toNat_ofNat]
  omega

@[simp] theorem advance_zero (s : State) : s.advance 0 = s := by
  have h : BitVec.ofNat 3 s.rdBit.toNat = s.rdBit := by simp
  unfold State.advance
  rw [Nat.add_zero, rdPos_div, rdPos_mod, h]

@[simp] theorem advance_advance (a b : Nat) (s : State) : (s.advance a).advance b = s.advance (a + b) := by
  unfold State.advance
  have h : ∀ x : State, ({ x with rdByte := (s.rdPos + a) / 8, rdBit := BitVec.ofNat 3 ((s.rdPos + a) % 8) } : State).rdPos = s.rdPos + a := by
    intro x
    simp only [State.rdPos, BitVec.toNat_ofNat]
    omega
  simp only [h, Nat.add_assoc]

@[simp] theorem advance_srcBits (a n p : Nat) (s : State) : (s.advance a).srcBits n p = s.srcBits n p := by
  induction n generalizing p with
  | zero => rfl
  | succ n ih => simp only [State.srcBits, ih]; rfl

@[simp] theorem srcBits_length (s : State) (n p : Nat) : (s.srcBits n p).length = n := by
  induction n generalizing p with
  | zero => rfl
  | succ n ih => simp [State.srcBits, ih]

theorem srcBits_append (s : State) (a b p : Nat) : s.srcBits (a + b) p = s.srcBits a p ++ s.srcBits b (p + a) := by
  induction a generalizing p with
  | zero => simp [State.srcBits]
  | succ a ih =>
    rw [Nat.succ_add, State.srcBits, ih, State.srcBits, List.cons_append]
    congr 3; omega

@[simp] theorem bitsFrom_length (s : State) (p : Nat) : (s.bitsFrom p).length = 8 * s.srcLen - p := by simp [State.bitsFrom]

/-- `ReadBit()` in one line (R131): the bit at `RD_POS`, and the reader one bit on; or truncated-input at the end. -/
theorem readBit_eq (s : State) :
    readBit s = if s.srcLen ≤ s.rdByte then .error (.raise .truncatedInput) else .ok (s.srcBit s.rdPos, s.advance 1) := by
  unfold readBit State.srcBit
  rw [rdPos_div, rdPos_mod]
  split
  · rfl
  · have hb : s.advance 1 = if s.rdBit = 7 then { s with rdByte := s.rdByte + 1, rdBit := 0 } else { s with rdBit := s.rdBit + 1 } := by
      have hlt := s.rdBit.isLt
      have e : s.rdPos + 1 = 8 * s.rdByte + (s.rdBit.toNat + 1) := by unfold State.rdPos; omega
      unfold State.advance
      rw [e]
      split
      · next h =>
        have h7 : s.rdBit.toNat = 7 := by rw [h]; rfl
        have h1 : (8 * s.rdByte + (s.rdBit.toNat + 1)) / 8 = s.rdByte + 1 := by omega
        have h2 : (8 * s.rdByte + (s.rdBit.toNat + 1)) % 8 = 0 := by omega
        rw [h1, h2]; rfl
      · next h =>
        have h7 : s.rdBit.toNat ≠ 7 := fun hh => h (BitVec.eq_of_toNat_eq (by simpa using hh))
        have h1 : (8 * s.rdByte + (s.rdBit.toNat + 1)) / 8 = s.rdByte := by omega
        have h2 : BitVec.ofNat 3 ((8 * s.rdByte + (s.rdBit.toNat + 1)) % 8) = s.rdBit + 1 := by
          apply BitVec.eq_of_toNat_eq
          have h1' : (1 : BitVec 3).toNat = 1 := rfl
          simp only [BitVec.toNat_ofNat, BitVec.toNat_add, h1']
          omega
        rw [h1, h2]
    rw [hb]
    split <;> rfl

/-! ## Emission and append -/

/-- `Emit` (R136). -/
theorem emit_eq_ok {v : Byte} {s t : State} (h : emit v s = .ok t) : full s.params.snkCap s.snkLen = false ∧ t = { s with snk := s.snk ++ [v] } := by
  unfold emit at h
  split at h
  · cases h
  · next hf => cases h; exact ⟨by simpa using hf, rfl⟩

theorem emit_error {v : Byte} {s : State} {e : Stop} (h : emit v s = .error e) : full s.params.snkCap s.snkLen = true ∧ e = .refuse .capacity := by
  unfold emit at h
  split at h
  · next hf => cases h; exact ⟨hf, rfl⟩
  · cases h

/-- `Append` (R201). -/
theorem append_eq_ok {v : Byte} {s t : State} (h : append v s = .ok t) : full s.params.dCap s.dLen = false ∧ t = { s with bufD := s.bufD ++ [v] } := by
  unfold append at h
  split at h
  · cases h
  · next hf => cases h; exact ⟨by simpa using hf, rfl⟩

/-- A run of appends that completes appends exactly its bytes (R201, R65). -/
theorem appendAll_eq_ok {vs : List Byte} {s t : State} (h : appendAll vs s = .ok t) : t = { s with bufD := s.bufD ++ vs } := by
  induction vs generalizing s with
  | nil => cases h; simp
  | cons v vs ih =>
    unfold appendAll at h
    split at h
    · cases h
    · next u hu =>
      obtain ⟨-, rfl⟩ := append_eq_ok hu
      rw [ih h]
      simp

/-- A run of appends stops only at the capacity of `D` (R201). -/
theorem appendAll_error {vs : List Byte} {s : State} {e : Stop} (h : appendAll vs s = .error e) : e = .refuse .capacity := by
  induction vs generalizing s with
  | nil => cases h
  | cons v vs ih =>
    unfold appendAll at h
    split at h
    · next e' hu =>
      cases h
      unfold append at hu
      split at hu <;> cases hu
      rfl
    · exact ih h

/-- With room for all its bytes, a run of appends completes. -/
theorem appendAll_fits {vs : List Byte} {s : State} (h : ∀ c, s.params.dCap = some c → s.bufD.length + vs.length ≤ c) :
    appendAll vs s = .ok { s with bufD := s.bufD ++ vs } := by
  induction vs generalizing s with
  | nil => simp [appendAll]
  | cons v vs ih =>
    have hf : full s.params.dCap s.dLen = false := by
      unfold full State.dLen
      split
      · rfl
      · next c hc => have := h c hc; simp at this ⊢; omega
    have hv : append v s = .ok { s with bufD := s.bufD ++ [v] } := by simp [append, hf]
    unfold appendAll
    rw [hv]
    simp only
    rw [ih (s := { s with bufD := s.bufD ++ [v] }) (fun c hc => by have := h c hc; simp at this ⊢; omega)]
    simp

/-- `NextByte()` (R192). -/
theorem nextByte_eq_ok {s t : State} {v : Byte} (h : nextByte s = .ok (v, t)) :
    s.g2Ip < s.srcLen ∧ v = s.srcByte s.g2Ip ∧ t = { s with g2Ip := s.g2Ip + 1 } := by
  unfold nextByte at h
  split at h
  · cases h
  · next hl => cases h; exact ⟨by omega, rfl, rfl⟩

theorem nextByte_error {s : State} {e : Stop} (h : nextByte s = .error e) : s.srcLen ≤ s.g2Ip ∧ e = .raise .truncatedInput := by
  unfold nextByte at h
  split at h
  · next hl => cases h; exact ⟨hl, rfl⟩
  · cases h

theorem nextByte_of_lt {s : State} (h : s.g2Ip < s.srcLen) : nextByte s = .ok (s.srcByte s.g2Ip, { s with g2Ip := s.g2Ip + 1 }) := by
  unfold nextByte
  rw [if_neg (by omega)]

/-- `ReadStart()` (R203): one address byte, or two, and the start they give. -/
theorem readStart_eq_ok {s t : State} (h : readStart s = .ok t) :
    (s.g2Ip < s.srcLen ∧ (s.srcByte s.g2Ip).getLsbD 7 = true ∧
      t = { s with g2Ip := s.g2Ip + 1, g2Start := (s.dLen : Int) - ((s.srcByte s.g2Ip).setWidth 7).toNat - 1 }) ∨
    (s.g2Ip + 1 < s.srcLen ∧ (s.srcByte s.g2Ip).getLsbD 7 = false ∧
      t = { s with g2Ip := s.g2Ip + 2
                   g2Start := (((s.srcByte s.g2Ip).setWidth 7).toNat * 256 + (s.srcByte (s.g2Ip + 1)).toNat : Nat) }) := by
  unfold readStart at h
  split at h
  · cases h
  · next ay u hu =>
    obtain ⟨hl, rfl, rfl⟩ := nextByte_eq_ok hu
    split at h
    · next hb => left; cases h; exact ⟨hl, hb, rfl⟩
    · next hb =>
      split at h
      · cases h
      · next lo u' hu' =>
        obtain ⟨hl', rfl, rfl⟩ := nextByte_eq_ok hu'
        right; cases h; exact ⟨hl', by simpa using hb, rfl⟩

/-! ## Dimensions and headers -/

/-- The zero-dimension rule (R152): 1 to 15, or 32 in lenient mode. -/
theorem dimension_eq_ok {n : BitVec 4} {s : State} {d : BitVec 6} (h : dimension n s = .ok d) :
    (n ≠ 0 ∧ d = n.setWidth 6) ∨ (n = 0 ∧ s.lenient = true ∧ d = 32) := by
  unfold dimension at h
  split at h
  · next h0 =>
    split at h
    · next hl => cases h; exact .inr ⟨h0, hl, rfl⟩
    · cases h
  · next h0 => cases h; exact .inl ⟨h0, rfl⟩

theorem dimension_error {n : BitVec 4} {s : State} {e : Stop} (h : dimension n s = .error e) :
    n = 0 ∧ s.lenient = false ∧ e = .raise .malformedHeader := by
  unfold dimension at h
  split at h
  · next h0 =>
    split at h
    · cases h
    · next hl => cases h; exact ⟨h0, by simpa using hl, rfl⟩
  · cases h

/-- The header (R151 to R154). -/
theorem header_eq_ok {w h : BitVec 4} {p : BitVec 1} {s t : State} (e : header w h p s = .ok t) :
    ∃ tw th, dimension w s = .ok tw ∧ dimension h s = .ok th ∧
      t = { s.advance 9 with
            g1Tw := tw, g1Th := th, g1Total := tw.toNat * th.toNat * 32
            bufB := List.replicate (tw.toNat * th.toNat * 8) 0#8
            bufC := List.replicate (tw.toNat * th.toNat * 8) 0#8
            g1Primary := p, g1Cur := p, phase := .g1Init } := by
  unfold header at e
  split at e
  · cases e
  · next tw hw =>
    split at e
    · cases e
    · next th hh => cases e; exact ⟨tw, th, hw, hh, rfl⟩

/-- The 14-byte block (R190, R191). -/
theorem loadPfx_eq_ok {w h : BitVec 4} {p : Palette} {s t : State} (e : loadPfx w h p s = .ok t) :
    ∃ pw ph, dimension w s = .ok pw ∧ dimension h s = .ok ph ∧
      t = { s with g2Pfx := 1, g2Pw := pw, g2Ph := ph, pal := p, g2Ip := Config.pfxLen, phase := .lzHeader } := by
  unfold loadPfx at e
  split at e
  · cases e
  · next pw hw =>
    split at e
    · cases e
    · next ph hh => cases e; exact ⟨pw, ph, hw, hh, rfl⟩

/-- Zero pairs (R159, R160): in budget, or cut to the budget in lenient mode. -/
theorem emitRun_eq_ok {r : Nat} {s t : State} (h : emitRun r s = .ok t) :
    (s.g1Emit + r ≤ s.g1Total ∧ t = afterElement { s with g1Emit := s.g1Emit + r, g1State := 1 }) ∨
    (s.g1Total < s.g1Emit + r ∧ s.lenient = true ∧
      t = afterElement { s with g1Emit := s.g1Emit + (s.g1Total - s.g1Emit), g1State := 1 }) := by
  unfold emitRun at h
  split at h
  · next hl =>
    split at h
    · next hh => cases h; exact .inr ⟨hl, hh, rfl⟩
    · cases h
  · next hl => cases h; exact .inl ⟨by omega, rfl⟩

theorem emitRun_error {r : Nat} {s : State} {e : Stop} (h : emitRun r s = .error e) :
    s.g1Total < s.g1Emit + r ∧ s.lenient = false ∧ e = .raise .overrun := by
  unfold emitRun at h
  split at h
  · next hl =>
    split at h
    · cases h
    · next hh => cases h; exact ⟨hl, by simpa using hh, rfl⟩
  · cases h

/-! ## Transfers -/

/-- A forward transfer (R204 to R206). -/
theorem repTransfer_eq_ok {s t : State} (h : repTransfer s = .ok t) :
    0 ≤ s.g2Start ∧ s.g2Start < s.dLen ∧ s.g2Start + s.g2Len ≤ s.dLen ∧ t = { s with bufD := s.bufD ++ forwardRange s } := by
  unfold repTransfer at h
  split at h
  · cases h
  · next hc =>
    simp only [startOutside, endOutside, Bool.or_eq_true, decide_eq_true_eq, not_or, not_lt, not_le] at hc
    exact ⟨hc.1.1, hc.1.2, hc.2, appendAll_eq_ok h⟩

/-- A bit-reversed transfer (R204, R205, R207). -/
theorem brevTransfer_eq_ok {s t : State} (h : brevTransfer s = .ok t) :
    0 ≤ s.g2Start ∧ s.g2Start < s.dLen ∧ s.g2Start + s.g2Len ≤ s.dLen ∧
      t = { s with bufD := s.bufD ++ (forwardRange s).map bitReverse } := by
  unfold brevTransfer at h
  split at h
  · cases h
  · next hc =>
    simp only [startOutside, endOutside, Bool.or_eq_true, decide_eq_true_eq, not_or, not_lt, not_le] at hc
    exact ⟨hc.1.1, hc.1.2, hc.2, appendAll_eq_ok h⟩

/-- A backward transfer (R204, R205, R208). -/
theorem backTransfer_eq_ok {s t : State} (h : backTransfer s = .ok t) :
    0 ≤ s.g2Start ∧ s.g2Start < s.dLen ∧ 0 ≤ s.g2Start - (s.g2Len - 1) ∧ t = { s with bufD := s.bufD ++ backwardRange s } := by
  unfold backTransfer at h
  split at h
  · cases h
  · next hc =>
    simp only [startOutside, walkOutside, Bool.or_eq_true, decide_eq_true_eq, not_or, not_lt, not_le] at hc
    exact ⟨hc.1.1, hc.1.2, hc.2, appendAll_eq_ok h⟩

/-! ## The TileAssembler -/

/-- `Place` (R230 to R233). -/
theorem place_eq_ok {g : Bool} {d0 d1 : List Byte} {s t : State} (h : place g d0 d1 s = .ok t) :
    s.dlW ≤ (choosePhysical g s).1 ∧ s.dlH ≤ (choosePhysical g s).2 ∧
    ∃ u, u = { s with phW := (choosePhysical g s).1, phH := (choosePhysical g s).2
                      colOff := ((choosePhysical g s).1 - s.dlW + 1) / 2, rowOff := (choosePhysical g s).2 - s.dlH } ∧
      t = { u with p0 := placedPlane d0 u, p1 := placedPlane d1 u } := by
  unfold place at h
  simp only at h
  split at h
  · cases h
  · next hc => cases h; exact ⟨by omega, by omega, _, rfl, rfl⟩

/-- `Place` refuses what does not fit, and stops in no other way (R231). -/
theorem place_error {g : Bool} {d0 d1 : List Byte} {s : State} {e : Stop} (h : place g d0 d1 s = .error e) :
    ((choosePhysical g s).1 < s.dlW ∨ (choosePhysical g s).2 < s.dlH) ∧ e = .refuse .declaredExceedsPhysical := by
  unfold place at h
  simp only at h
  split at h
  · next hc => cases h; exact ⟨hc, rfl⟩
  · cases h

/-- The end of a decode (R150, R193). -/
theorem finish_eq_ok {g : Bool} {d0 d1 : List Byte} {s t : State} (h : finish g d0 d1 s = .ok t) :
    ∃ u, place g d0 d1 s = .ok u ∧ t = { assemble u with st := (assemble u).st.finish, phase := .idle } := by
  unfold finish at h
  split at h
  · cases h
  · next u hu => cases h; exact ⟨u, hu, rfl⟩

theorem finish_error {g : Bool} {d0 d1 : List Byte} {s : State} {e : Stop} (h : finish g d0 d1 s = .error e) :
    place g d0 d1 s = .error e := by
  unfold finish at h
  split at h
  · next e' he => cases h; exact he
  · cases h

/-- The three sources of the layout, in their order of precedence (R212). -/
theorem chooseDims_override {s : State} (h : s.ovrEn = true) : chooseDims s = .ok (s.ovrW.toNat, s.ovrH.toNat) := if_pos h

theorem chooseDims_block {s : State} (h : s.ovrEn = false) (hp : s.g2Pfx = 1) : chooseDims s = .ok (s.g2Pw.toNat, s.g2Ph.toNat) :=
  (if_neg (by rw [h]; decide)).trans (if_pos hp)

theorem chooseDims_inferred {s : State} (h : s.ovrEn = false) (hp : s.g2Pfx = 0) : chooseDims s =
    if s.bufD.length < 16 then .error (.raise .truncatedInput)
    else .ok ((shapeOf s.params.shapeTable (s.bufD.length / 16)).getD (1, s.bufD.length / 16)) := by
  have e : s.dLen / Config.tileBytes = s.bufD.length / 16 := rfl
  unfold chooseDims
  rw [if_neg (by rw [h]; decide), if_neg (by rw [hp]; decide)]
  simp only [e]
  by_cases hl : s.bufD.length < 16
  · rw [if_pos hl, if_pos (by omega)]
  · rw [if_neg hl, if_neg (by omega)]

/-- The size check (R213). -/
theorem checkSize_eq (s : State) : checkSize s =
    if s.bufD.length < s.g2Tw * s.g2Th * 16 then .error (.raise .truncatedInput)
    else if s.g2Tw * s.g2Th * 16 < s.bufD.length ∧ s.lenient = false then .error (.raise .overrun)
    else .ok s := by
  have e : s.g2Tw * s.g2Th * Config.tileBytes = s.g2Tw * s.g2Th * 16 := rfl
  unfold checkSize
  simp only [e, State.dLen, Bool.and_eq_true, decide_eq_true_eq, Bool.not_eq_true']
/-- `CheckSize()` (R213). -/
theorem checkSize_eq_ok {s t : State} (h : checkSize s = .ok t) :
    t = s ∧ s.g2Tw * s.g2Th * Config.tileBytes ≤ s.dLen ∧ (s.dLen = s.g2Tw * s.g2Th * Config.tileBytes ∨ s.lenient = true) := by
  unfold checkSize at h
  simp only at h
  split at h
  · cases h
  · next h1 =>
    split at h
    · cases h
    · next h2 =>
      cases h
      refine ⟨rfl, by omega, ?_⟩
      simp only [Bool.and_eq_true, decide_eq_true_eq, Bool.not_eq_true', not_and, Bool.not_eq_false] at h2
      rcases Nat.lt_or_ge (s.g2Tw * s.g2Th * Config.tileBytes) s.dLen with hl | hl
      · exact .inr (h2 hl)
      · left; omega

/-- The end of a Gen2 decode (R193). -/
theorem g2Finish_eq_ok {s t : State} (h : g2Finish s = .ok t) :
    ∃ w hh u, chooseDims s = .ok (w, hh) ∧ u = { s with g2Tw := w, g2Th := hh } ∧ checkSize u = .ok u ∧
      finish false (g2Plane 0 u) (g2Plane 1 u) { u with dlW := w, dlH := hh } = .ok t := by
  unfold g2Finish at h
  split at h
  · cases h
  · next w hh hd =>
    split at h
    · cases h
    · next u hu =>
      obtain ⟨rfl, -⟩ := checkSize_eq_ok hu
      exact ⟨w, hh, _, hd, rfl, hu, h⟩

/-! ## Commands -/

/-- A command whose prologue passes runs its body (R253). -/
theorem command_of_none {c : BitVec 4} {body : State → Result} {s : State} (h : prologue c s = none) : command c body s = body s := by
  unfold command; rw [h]

/-- A command whose prologue fires is refused (R253). -/
theorem command_of_some {c : BitVec 4} {body : State → Result} {s : State} {r : RefReason} (h : prologue c s = some r) :
    command c body s = .next (s.stop (.refuse r)) := by
  unfold command; rw [h]

end Sys2Proof.Machine
end

