-- ==== Sys2Proof/Laws/Bytes.lean ====
section
/-! SUPPORT. The byte fetches of Gen2 that run over several bytes, each said once: the literal bytes of `LZ.COPY`, the address
operand, the range checks as one condition (42_gen2_lz3.md). -/

namespace Sys2Proof.Machine

theorem append_fits {v : Byte} {s : State} {n : Nat} (h : room s (n + 1)) : append v s = .ok { s with bufD := s.bufD ++ [v] } := by
  have hf : full s.params.dCap s.dLen = false := by
    unfold full State.dLen
    split
    · rfl
    · next c hc => have := h c hc; simp; omega
  simp [append, hf]

/-- The literal bytes of `LZ.COPY` with room in `D` (R195). -/
theorem copyLiterals_fits (n : Nat) (s : State) (hr : room s n) : copyLiterals n s =
    if n = 0 ∨ s.g2Ip + n ≤ s.srcLen then .ok { s with g2Ip := s.g2Ip + n, bufD := s.bufD ++ srcBytes s s.g2Ip n }
    else .error (.raise .truncatedInput) := by
  induction n generalizing s with
  | zero => simp [copyLiterals, srcBytes]
  | succ n ih =>
    rw [copyLiterals]
    by_cases h : s.g2Ip < s.srcLen
    · rw [nextByte_of_lt h]
      simp only
      rw [append_fits (n := n) (show room { s with g2Ip := s.g2Ip + 1 } (n+1) from hr)]
      simp only
      rw [ih _ (by intro c hc; have := hr c hc; simp; omega)]
      by_cases h2 : s.g2Ip + (n + 1) ≤ s.srcLen
      · rw [if_pos (.inr (by simp only; omega)), if_pos (.inr h2)]
        simp only [List.append_assoc, Except.ok.injEq]
        have e1 : s.g2Ip + 1 + n = s.g2Ip + (n + 1) := by omega
        rw [e1]
        have e2 : [s.srcByte s.g2Ip] ++ srcBytes { s with g2Ip := s.g2Ip + 1, bufD := s.bufD ++ [s.srcByte s.g2Ip] } (s.g2Ip + 1) n = srcBytes s s.g2Ip (n + 1) := by
          rw [srcBytes, srcBytes, List.range_succ_eq_map, List.map_cons, List.map_map]
          simp only [List.singleton_append, Nat.add_zero]
          congr 1
          apply List.map_congr_left
          intro a _
          simp only [Function.comp]
          rw [show s.g2Ip + 1 + a = s.g2Ip + a.succ by omega]
          rfl
        rw [e2]
      · rw [if_neg (by show ¬ (n = 0 ∨ s.g2Ip + 1 + n ≤ s.srcLen); omega), if_neg (by omega)]
    · rw [if_neg (by omega)]
      have : nextByte s = .error (.raise .truncatedInput) := by unfold nextByte; rw [if_pos (by omega)]
      rw [this]

theorem nextByte_trunc {s : State} (h : s.srcLen ≤ s.g2Ip) : nextByte s = .error (.raise .truncatedInput) := by
  unfold nextByte; rw [if_pos h]

theorem msb_iff (b : Byte) : b.getLsbD 7 = true ↔ 128 ≤ b.toNat := by revert b; decide
theorem low7 (b : Byte) : 128 ≤ b.toNat → (b.setWidth 7).toNat = b.toNat - 128 := by
  intro h; have := b.isLt; simp; omega
theorem low7' (b : Byte) : ¬ 128 ≤ b.toNat → (b.setWidth 7).toNat = b.toNat := by
  intro h; have := b.isLt; simp; omega

/-- `ReadStart()` after a command's header (R203). -/
theorem readStart_spec (f : LzForm) (s : State) : readStart (headed f s) =
    if s.g2Ip + f.bytes + operandLen s (s.g2Ip + f.bytes) ≤ s.srcLen then
      .ok { headed f s with g2Ip := s.g2Ip + f.bytes + operandLen s (s.g2Ip + f.bytes), g2Start := operandStart s (s.g2Ip + f.bytes) }
    else .error (.raise .truncatedInput) := by
  unfold readStart operandLen operandStart
  by_cases h : s.g2Ip + f.bytes < s.srcLen
  · rw [nextByte_of_lt (show (headed f s).g2Ip < s.srcLen from h)]
    simp only
    have e : (headed f s).srcByte (headed f s).g2Ip = s.srcByte (s.g2Ip + f.bytes) := rfl
    rw [e]
    by_cases h7 : 128 ≤ (s.srcByte (s.g2Ip + f.bytes)).toNat
    · rw [if_pos ((msb_iff _).mpr h7), if_pos h7, if_pos (by omega), if_pos h7]
      unfold startRel
      rw [low7 _ h7]
      rfl
    · rw [if_neg (fun hh => h7 ((msb_iff _).mp hh)), if_neg h7, if_neg h7]
      by_cases h2 : s.g2Ip + f.bytes + 1 < s.srcLen
      · rw [nextByte_of_lt (show (headed f s).g2Ip + 1 < s.srcLen from h2)]
        simp only
        rw [if_pos (by omega)]
        unfold startAbs
        rw [low7' _ h7]
        rfl
      · rw [nextByte_trunc (show s.srcLen ≤ (headed f s).g2Ip + 1 from by show _ ≤ s.g2Ip + f.bytes + 1; omega)]
        rw [if_neg (by omega)]
  · rw [nextByte_trunc (show s.srcLen ≤ (headed f s).g2Ip from by show _ ≤ s.g2Ip + f.bytes; omega)]
    rw [if_neg (by split <;> omega)]

/-- The range checks of commands 4 and 5 (R204, R205). -/
theorem rangeOutside_eq (t : State) : (startOutside t || endOutside t) = decide (t.g2Start < 0 ∨ (t.bufD.length:Int) ≤ t.g2Start ∨ (t.bufD.length:Int) < t.g2Start + t.g2Len) := by
  rw [Bool.eq_iff_iff]; simp only [startOutside, endOutside, Bool.or_eq_true, decide_eq_true_eq, or_assoc]; exact Iff.rfl

/-- The range checks of command 6 (R204, R205). -/
theorem walkOutside_eq (t : State) : (startOutside t || walkOutside t) = decide (t.g2Start < 0 ∨ (t.bufD.length:Int) ≤ t.g2Start ∨ t.g2Start - (t.g2Len - 1) < 0) := by
  rw [Bool.eq_iff_iff]; simp only [startOutside, walkOutside, Bool.or_eq_true, decide_eq_true_eq, or_assoc]; exact Iff.rfl

end Sys2Proof.Machine
end

