-- ==== Sys2Proof/Laws/Memory.lean ====
section
/-! SUPPORT. The source memory (20_memory.md R60, R62): a read after a write, and the canonical form that every memory
operation keeps. -/

namespace Sys2Proof.Machine

/-- Every index listed in a memory lies above `a`. -/
def Memory.above (a : Nat) (m : Memory) : Prop := ∀ x ∈ m, a < x.1

theorem Memory.wf_cons (a : Nat) (v : Byte) (m : Memory) : Memory.wf ((a, v) :: m) = true ↔ Memory.above a m ∧ Memory.wf m = true := by
  induction m generalizing a v with
  | nil => simp [Memory.wf, Memory.above]
  | cons c m ih =>
    obtain ⟨y, b⟩ := c
    have hy := ih y b
    simp only [Memory.wf, Bool.and_eq_true, decide_eq_true_eq, Memory.above] at *
    rw [hy]
    constructor
    · rintro ⟨h1, h2, h3⟩
      refine ⟨fun x hx => ?_, h2, h3⟩
      rcases List.mem_cons.mp hx with rfl | hx
      · exact h1
      · exact lt_trans h1 (h2 x hx)
    · rintro ⟨h1, h2, h3⟩
      exact ⟨h1 (y, b) (by simp), h2, h3⟩

theorem Memory.write_above {a x : Nat} {v : Byte} {m : Memory} (hx : x < a) (h : Memory.above x m) : Memory.above x (Memory.write m a v) := by
  induction m with
  | nil => simpa [Memory.write, Memory.above] using hx
  | cons c m ih =>
    obtain ⟨y, b⟩ := c
    have hm : Memory.above x m := fun z hz => h z (List.mem_cons_of_mem _ hz)
    have hy : x < y := h (y, b) (by simp)
    have ih := ih hm
    unfold Memory.write
    split_ifs <;> intro z hz <;> rcases List.mem_cons.mp hz with rfl | hz
    · exact hx
    · exact h z hz
    · exact hx
    · exact hm z hz
    · exact hy
    · exact ih z hz

/-- A write keeps the canonical form. -/
theorem Memory.write_wf {m : Memory} (a : Nat) (v : Byte) (h : Memory.wf m = true) : Memory.wf (Memory.write m a v) = true := by
  induction m with
  | nil => rfl
  | cons c m ih =>
    obtain ⟨y, b⟩ := c
    have hc := (Memory.wf_cons y b m).mp h
    unfold Memory.write
    split_ifs with h1 h2
    · refine (Memory.wf_cons _ _ _).mpr ⟨fun z hz => ?_, h⟩
      rcases List.mem_cons.mp hz with rfl | hz
      · exact h1
      · exact lt_trans h1 (hc.1 z hz)
    · exact (Memory.wf_cons _ _ _).mpr ⟨h2 ▸ hc.1, hc.2⟩
    · exact (Memory.wf_cons _ _ _).mpr ⟨Memory.write_above (by omega) hc.1, ih hc.2⟩

/-- Memory built from bytes has the canonical form, and every index in it is at or above the first. -/
theorem Memory.ofBytes_wf (a : Nat) (bs : List Byte) : Memory.wf (Memory.ofBytes a bs) = true ∧ ∀ x ∈ Memory.ofBytes a bs, a ≤ x.1 := by
  induction bs generalizing a with
  | nil => exact ⟨rfl, by simp [Memory.ofBytes]⟩
  | cons b bs ih =>
    have ih := ih (a + 1)
    refine ⟨(Memory.wf_cons _ _ _).mpr ⟨fun x hx => ih.2 x hx, ih.1⟩, fun x hx => ?_⟩
    rcases List.mem_cons.mp hx with rfl | hx
    · exact le_refl _
    · exact le_trans (Nat.le_succ a) (ih.2 x hx)

/-- A read at the index just written gives the byte written. -/
theorem Memory.read_write_same (m : Memory) (a : Nat) (v : Byte) : Memory.read (Memory.write m a v) a = some v := by
  induction m with
  | nil => simp [Memory.write, Memory.read]
  | cons c m ih =>
    obtain ⟨y, b⟩ := c
    unfold Memory.write
    split_ifs with h1 h2
    · simp [Memory.read]
    · simp [Memory.read]
    · simpa [Memory.read, Ne.symm h2] using ih

/-- A write leaves every other index alone. -/
theorem Memory.read_write_other (m : Memory) {a x : Nat} (v : Byte) (h : x ≠ a) : Memory.read (Memory.write m a v) x = Memory.read m x := by
  induction m with
  | nil => simp [Memory.write, Memory.read, Ne.symm h]
  | cons c m ih =>
    obtain ⟨y, b⟩ := c
    unfold Memory.write
    split_ifs with h1 h2
    · simp [Memory.read, Ne.symm h]
    · subst h2; simp [Memory.read, Ne.symm h]
    · simp [Memory.read, ih]

/-- What memory built from bytes reads as. -/
theorem Memory.read_ofBytes (a : Nat) (bs : List Byte) (i : Nat) : Memory.read (Memory.ofBytes a bs) (a + i) = bs[i]? := by
  induction bs generalizing a i with
  | nil => simp [Memory.ofBytes, Memory.read]
  | cons b bs ih =>
    cases i with
    | zero => simp [Memory.ofBytes, Memory.read]
    | succ i =>
      have := ih (a + 1) i
      rw [show a + 1 + i = a + (i + 1) by omega] at this
      simpa [Memory.ofBytes, Memory.read] using this

/-- Loading bytes keeps the canonical form. -/
theorem Memory.load_wf {m : Memory} (a : Nat) (bs : List Byte) (h : Memory.wf m = true) : Memory.wf (Memory.load m a bs) = true := by
  induction bs generalizing m a with
  | nil => exact h
  | cons b bs ih => exact ih (a + 1) (Memory.write_wf a b h)

/-- What a memory reads as after a load: the bytes loaded at their indices, and what it held everywhere else. -/
theorem Memory.read_load (m : Memory) (a : Nat) (bs : List Byte) (x : Nat) :
    Memory.read (Memory.load m a bs) x = if a ≤ x ∧ x < a + bs.length then bs[x - a]? else Memory.read m x := by
  induction bs generalizing m a with
  | nil => rw [if_neg (by simp only [List.length_nil]; omega)]; rfl
  | cons b bs ih =>
    rw [Memory.load, ih]
    simp only [List.length_cons]
    by_cases hx : x = a
    · subst hx
      rw [if_neg (by omega), if_pos (by omega), Memory.read_write_same]
      simp
    · rw [Memory.read_write_other _ _ hx]
      by_cases hr : a + 1 ≤ x ∧ x < a + 1 + bs.length
      · rw [if_pos hr, if_pos (by omega), show x - a = (x - (a + 1)) + 1 by omega, List.getElem?_cons_succ]
      · rw [if_neg hr, if_neg (by omega)]

theorem reset_src_wf : Memory.wf State.reset.src = true := rfl

/-- The host's writes keep the source memory canonical. -/
theorem hostWriteSrc_wf {s : State} (a : Nat) (v : Byte) (h : Memory.wf s.src = true) : Memory.wf (hostWriteSrc a v s).src = true := by
  unfold hostWriteSrc hostWrite
  split
  · exact Memory.write_wf a v h
  · exact h

theorem hostLoad_wf {s : State} (bs : List Byte) (h : Memory.wf s.src = true) : Memory.wf (hostLoad bs s).src = true := by
  unfold hostLoad hostWrite
  split
  · exact Memory.load_wf 0 bs h
  · exact h

end Sys2Proof.Machine
end

