-- ==== Sys2Proof/Laws/Fields.lean ====
section
/-! SUPPORT. Fields of bits: how they split and join, what the source bits are, and one lemma for each of `ReadBit`, `ReadBits`,
`WriteBits` that says everything it can do (40_bitcursor.md). -/

namespace Sys2Proof

/-! ## Fields -/

/-- A field splits into its high and its low part (R132). -/
theorem natToBits_add (a b v : Nat) : natToBits (a + b) v = natToBits a (v / 2 ^ b) ++ natToBits b v := by
  induction a with
  | zero => simp [natToBits]
  | succ a ih =>
    rw [Nat.succ_add, natToBits, ih, natToBits, List.cons_append]
    congr 1
    rw [Nat.testBit_div_two_pow]

/-- Bits above the width are dropped (D7). -/
theorem natToBits_mod (n v : Nat) : natToBits n (v % 2 ^ n) = natToBits n v := by
  have h := natToBits_bitsToNat (natToBits n v)
  rwa [natToBits_length, bitsToNat_natToBits] at h

/-- Two fields side by side are one field (R132). -/
theorem natToBits_concat (a b x y : Nat) (hy : y < 2 ^ b) : natToBits a x ++ natToBits b y = natToBits (a + b) (x * 2 ^ b + y) := by
  have e := natToBits_add a b (x * 2 ^ b + y)
  have h1 : (x * 2 ^ b + y) / 2 ^ b = x := by rw [Nat.mul_comm, Nat.mul_add_div (by positivity), Nat.div_eq_of_lt hy, Nat.add_zero]
  have h2 := natToBits_mod b (x * 2 ^ b + y)
  have h3 : (x * 2 ^ b + y) % 2 ^ b = y := by rw [Nat.add_comm, Nat.add_mul_mod_self_right, Nat.mod_eq_of_lt hy]
  rw [h3] at h2; rw [e, h1, h2]

theorem natToBits_snoc (n v : Nat) : natToBits (n+1) v = natToBits n (v / 2) ++ [v.testBit 0] := by
  have := natToBits_add n 1 v
  simpa [natToBits] using this

/-- Bit `i` of a field, counted from its first bit (R91). -/
theorem getElem_natToBits (n v i : Nat) (h : i < n) : (natToBits n v)[i]? = some (v.testBit (n - 1 - i)) := by
  induction n generalizing i with
  | zero => omega
  | succ n ih =>
    rw [natToBits]
    cases i with
    | zero => simp
    | succ i => rw [List.getElem?_cons_succ, ih i (by omega)]; congr 2; omega

@[simp] theorem bytesToBits_length (bs : List Byte) : (bytesToBits bs).length = 8 * bs.length := by
  induction bs with
  | nil => rfl
  | cons b bs ih => simp only [bytesToBits, List.flatMap_cons, List.length_append, natToBits_length, List.length_cons] at *; omega

/-- Bit `p` of a byte sequence (R91). -/
theorem bytesToBits_get (bs : List Byte) (p : Nat) (h : p < 8 * bs.length) : (bytesToBits bs)[p]? = some ((bs.getD (p / 8) 0).getLsbD (7 - p % 8)) := by
  induction bs generalizing p with
  | nil => simp at h
  | cons b bs ih =>
    simp only [bytesToBits, List.flatMap_cons]
    by_cases hp : p < 8
    · rw [List.getElem?_append_left (by simp; omega), getElem_natToBits _ _ _ hp]
      have e1 : p / 8 = 0 := by omega
      have e2 : p % 8 = p := by omega
      rw [e1, e2]; rfl
    · rw [List.getElem?_append_right (by simp; omega)]
      simp only [natToBits_length]
      have := ih (p - 8) (by simp at h; omega)
      rw [show bytesToBits bs = bs.flatMap fun b => natToBits 8 b.toNat from rfl] at this
      rw [this]
      have e1 : p / 8 = (p - 8) / 8 + 1 := by omega
      have e2 : p % 8 = (p - 8) % 8 := by omega
      rw [e1, e2]; rfl

/-- `takeNum` in closed form. -/
theorem takeNum_eq (n : Nat) (bs : Bits) : takeNum n bs = if bs.length < n then none else some (bitsToNat (bs.take n), bs.drop n) := by
  split
  · next h => unfold takeNum; rw [takeBits_eq_none.2 h]; rfl
  · next h =>
    have : takeBits n bs = some (bs.take n, bs.drop n) := by
      have := takeBits_append (bs.take n) (bs.drop n)
      rwa [List.take_append_drop, List.length_take_of_le (by omega)] at this
    unfold takeNum; rw [this]; rfl

namespace Machine

/-! ## The source -/

theorem srcBits_get (s : State) (n p i : Nat) (h : i < n) : (s.srcBits n p)[i]? = some (s.srcBit (p + i)) := by
  induction n generalizing p i with
  | zero => omega
  | succ n ih =>
    rw [State.srcBits]
    cases i with
    | zero => rfl
    | succ i => rw [List.getElem?_cons_succ, ih (p+1) i (by omega)]; congr 2; omega

/-- The eight source bits of a byte, bit 7 first (R69, R91). -/
theorem srcBits_byte (s : State) (a : Nat) : s.srcBits 8 (8 * a) = natToBits 8 (s.srcByte a).toNat := by
  apply List.ext_getElem?
  intro i
  by_cases hi : i < 8
  · rw [srcBits_get _ _ _ _ hi, getElem_natToBits _ _ _ hi]
    unfold State.srcBit
    rw [show (8 * a + i) / 8 = a by omega, show (8 * a + i) % 8 = i by omega, ← BitVec.testBit_toNat]
  · rw [List.getElem?_eq_none (by simp; omega), List.getElem?_eq_none (by simp; omega)]

/-- Taking a byte of the unread source at a byte boundary. -/
theorem takeNum_byte (s : State) (a : Nat) : takeNum 8 (s.bitsFrom (8 * a)) =
    if a < s.srcLen then some ((s.srcByte a).toNat, s.bitsFrom (8 * (a + 1))) else none := by
  split
  · next h =>
    have e : s.bitsFrom (8 * a) = natToBits 8 (s.srcByte a).toNat ++ s.bitsFrom (8 * (a + 1)) := by
      unfold State.bitsFrom
      rw [show 8 * s.srcLen - 8 * a = 8 + (8 * s.srcLen - 8 * (a + 1)) by omega, srcBits_append, srcBits_byte]
      rfl
    rw [e, takeNum_natToBits, Nat.mod_eq_of_lt (s.srcByte a).isLt]
  · next h => rw [takeNum_eq, if_pos (by simp; omega)]

/-- The value of a field of the source is the sum of its bits by weight (R132). -/
theorem bitsToNat_srcBits (s : State) (n p : Nat) : bitsToNat (s.srcBits n p) = ∑ i ∈ Finset.range n, (s.srcBit (p + i)).toNat * 2 ^ (n - 1 - i) := by
  induction n generalizing p with
  | zero => rfl
  | succ n ih =>
    rw [State.srcBits, bitsToNat_cons, srcBits_length, Finset.sum_range_succ', ih, Nat.add_comm]
    congr 1
    apply Finset.sum_congr rfl
    intro i hi
    have := Finset.mem_range.mp hi
    congr 2
    · congr 1; omega
    · omega

theorem reading_srcByte (bs : List Byte) (s : State) (a : Nat) (h : a < bs.length) : (reading bs s).srcByte a = bs.getD a 0 := by
  unfold State.srcByte reading
  have := Memory.read_ofBytes 0 bs a
  rw [Nat.zero_add] at this
  simp only [this]
  rw [List.getElem?_eq_getElem h, List.getD_eq_getElem?_getD, List.getElem?_eq_getElem h]; rfl

theorem reading_srcBit (bs : List Byte) (s : State) (p : Nat) (h : p < 8 * bs.length) : some ((reading bs s).srcBit p) = (bytesToBits bs)[p]? := by
  rw [bytesToBits_get _ _ h, State.srcBit, reading_srcByte _ _ _ (by omega)]

theorem srcBits_reading (bs : List Byte) (s : State) (n p : Nat) (h : p + n ≤ 8 * bs.length) :
   (reading bs s).srcBits n p = ((bytesToBits bs).drop p).take n := by
  apply List.ext_getElem?
  intro i
  by_cases hi : i < n
  · rw [srcBits_get _ _ _ _ hi, List.getElem?_take, if_pos hi, List.getElem?_drop, reading_srcBit _ _ _ (by omega)]
  · rw [List.getElem?_eq_none (by simp; omega), List.getElem?_take, if_neg hi]

/-! ## The reader -/

/-- `ReadBit()` by the bit position (R131). -/
theorem readBit_spec (s : State) : readBit s = if 8 * s.srcLen ≤ s.rdPos then .error (.raise .truncatedInput) else .ok (s.srcBit s.rdPos, s.advance 1) := by
  rw [readBit_eq]
  have := rdPos_div s
  by_cases h : s.srcLen ≤ s.rdByte
  · rw [if_pos h, if_pos (by omega)]
  · rw [if_neg h, if_neg (by omega)]

theorem readBitsFrom_spec (n v : Nat) (s : State) : readBitsFrom n v s =
    if n = 0 ∨ s.rdPos + n ≤ 8 * s.srcLen then .ok (v * 2 ^ n + bitsToNat (s.srcBits n s.rdPos), s.advance n)
    else .error (.raise .truncatedInput) := by
  induction n generalizing v s with
  | zero => simp [readBitsFrom, State.srcBits, bitsToNat]
  | succ n ih =>
    rw [readBitsFrom, readBit_spec]
    by_cases h : 8 * s.srcLen ≤ s.rdPos
    · rw [if_pos h, if_neg (by omega)]
    · rw [if_neg h]
      simp only
      rw [ih]
      simp only [rdPos_advance, advance_srcLen, advance_advance, advance_srcBits]
      have e : (2 * v + (s.srcBit s.rdPos).toNat) * 2 ^ n + bitsToNat (s.srcBits n (s.rdPos + 1)) = v * 2 ^ (n+1) + bitsToNat (s.srcBits (n+1) s.rdPos) := by
        rw [State.srcBits, bitsToNat_cons, srcBits_length]; ring
      rw [e, Nat.add_comm 1 n]
      by_cases h2 : s.rdPos + (n + 1) ≤ 8 * s.srcLen
      · rw [if_pos (by omega), if_pos (by omega)]
      · by_cases h3 : n = 0
        · omega
        · rw [if_neg (by omega), if_neg (by omega)]

/-- `ReadBits(n)` (R132, R133): the field, and the reader past it; or truncated-input. -/
theorem readBits_spec (n : Nat) (s : State) : readBits n s =
    if n = 0 ∨ s.rdPos + n ≤ 8 * s.srcLen then .ok (bitsToNat (s.srcBits n s.rdPos), s.advance n)
    else .error (.raise .truncatedInput) := by
  rw [readBits, readBitsFrom_spec]; simp

/-! ## The writer -/

theorem accWith_bit (s : State) (b : Bool) (i : Nat) : (s.accWith b).getLsbD i = (s.wrAcc.getLsbD i || (decide (i = 7 - s.wrCnt.toNat) && b)) := by
  have hc := s.wrCnt.isLt
  unfold State.accWith
  rw [BitVec.getLsbD_or, BitVec.getLsbD_shiftLeft]
  congr 1
  simp only [BitVec.getLsbD_setWidth, BitVec.getLsbD_ofBool]
  by_cases h : i = 7 - s.wrCnt.toNat
  · subst h; simp; omega
  · simp only [h, decide_false, Bool.false_and]
    by_cases h2 : i < 7 - s.wrCnt.toNat
    · simp [h2]
    · have : i - (7 - s.wrCnt.toNat) ≠ 0 := by omega
      simp [this]

theorem pendingBits_ext (acc : Byte) (n : Nat) (hn : n ≤ 8) (xs : Bits) (hl : xs.length = n) (h : ∀ i, i < n → xs[i]? = some (acc.getLsbD (7 - i))) : pendingBits acc n = xs := by
  apply List.ext_getElem?
  intro i
  unfold pendingBits
  by_cases hi : i < n
  · rw [List.getElem?_take, if_pos hi, getElem_natToBits _ _ _ (by omega), h i hi]; rfl
  · rw [List.getElem?_take, if_neg hi, List.getElem?_eq_none (by omega)]

theorem pendingBits_get (acc : Byte) (n i : Nat) (hn : n ≤ 8) (hi : i < n) : (pendingBits acc n)[i]? = some (acc.getLsbD (7 - i)) := by
  unfold pendingBits
  rw [List.getElem?_take, if_pos hi, getElem_natToBits _ _ _ (by omega)]; rfl

theorem pendingBits_len (acc : Byte) (n : Nat) (hn : n ≤ 8) : (pendingBits acc n).length = n := by
  unfold pendingBits; simp; omega

theorem pendingBits_snoc (s : State) (b : Bool) (hc : writerClean s) : pendingBits (s.accWith b) (s.wrCnt.toNat + 1) = pendingBits s.wrAcc s.wrCnt.toNat ++ [b] := by
  have hl := s.wrCnt.isLt
  apply pendingBits_ext _ _ (by omega)
  · simp [pendingBits_len _ _ (show s.wrCnt.toNat ≤ 8 by omega)]
  · intro i hi
    rw [accWith_bit]
    by_cases h : i < s.wrCnt.toNat
    · rw [List.getElem?_append_left (by rw [pendingBits_len _ _ (by omega)]; exact h), pendingBits_get _ _ _ (by omega) h]
      have : ¬ (7 - i = 7 - s.wrCnt.toNat) := by omega
      simp [this]
    · have e : i = s.wrCnt.toNat := by omega
      rw [List.getElem?_append_right (by rw [pendingBits_len _ _ (by omega)]; omega), pendingBits_len _ _ (by omega), e]
      simp [hc (7 - s.wrCnt.toNat) (by omega)]

theorem pendingBits_full (acc : Byte) : pendingBits acc 8 = natToBits 8 acc.toNat := by
  unfold pendingBits; rw [List.take_of_length_le (by simp)]

/-- One bit written (R135). -/
theorem writeBit_spec {b : Bool} {s : State} (hc : writerClean s) (hr : sinkRoom s ((s.wrCnt.toNat + 1) / 8)) :
    ∃ t, writeBit b s = .ok t ∧ t = { s with snk := t.snk, wrAcc := t.wrAcc, wrCnt := t.wrCnt } ∧ writtenBits t = writtenBits s ++ [b] ∧
      t.snkLen = s.snkLen + (s.wrCnt.toNat + 1) / 8 ∧ t.wrCnt.toNat = (s.wrCnt.toNat + 1) % 8 ∧ s.snk <+: t.snk ∧ writerClean t := by
  have hl := s.wrCnt.isLt
  unfold writeBit
  by_cases h : s.wrCnt = 7
  · have h7 : s.wrCnt.toNat = 7 := by rw [h]; rfl
    have hf : full s.params.snkCap s.snkLen = false := by
      unfold full State.snkLen
      split
      · rfl
      · next c hcap => have := hr c hcap; rw [h7] at this; simp; omega
    rw [if_pos h]
    have he : emit (s.accWith b) s = .ok { s with snk := s.snk ++ [s.accWith b] } := by simp [emit, hf]
    rw [he]
    refine ⟨_, rfl, rfl, ?_, ?_, ?_, ?_, ?_⟩
    · have := pendingBits_snoc s b hc
      rw [h7, pendingBits_full] at this
      simp only [writtenBits, h7]
      rw [List.append_assoc, ← this]
      simp [bytesToBits, pendingBits]
    · simp [State.snkLen, h7]
    · rw [h7]; rfl
    · exact List.prefix_append _ _
    · intro i hi; simp
  · rw [if_neg h]
    have h7 : s.wrCnt.toNat ≠ 7 := fun hh => h (BitVec.eq_of_toNat_eq (by simpa using hh))
    have e : (s.wrCnt + 1).toNat = s.wrCnt.toNat + 1 := by
      have h1' : (1 : BitVec 3).toNat = 1 := rfl
      rw [BitVec.toNat_add, h1']; omega
    refine ⟨_, rfl, rfl, ?_, ?_, ?_, ?_, ?_⟩
    · simp only [writtenBits, e, pendingBits_snoc s b hc, List.append_assoc]
    · have : (s.wrCnt.toNat + 1) / 8 = 0 := by omega
      rw [this]; rfl
    · simp only [e]; omega
    · exact List.prefix_refl _
    · intro i hi
      simp only [e] at hi
      simp only [accWith_bit]
      have : ¬ (i = 7 - s.wrCnt.toNat) := by omega
      simp [this, hc i (by omega)]

/-- `WriteBits(v, n)` with room in the sink (R135). -/
theorem writeBits_spec (v n : Nat) (s : State) (hc : writerClean s) (hr : sinkRoom s ((s.wrCnt.toNat + n) / 8)) :
    ∃ t, writeBits v n s = .ok t ∧ t = { s with snk := t.snk, wrAcc := t.wrAcc, wrCnt := t.wrCnt } ∧ writtenBits t = writtenBits s ++ natToBits n v ∧
      t.snkLen = s.snkLen + (s.wrCnt.toNat + n) / 8 ∧ t.wrCnt.toNat = (s.wrCnt.toNat + n) % 8 ∧ s.snk <+: t.snk ∧ writerClean t := by
  induction n generalizing s with
  | zero =>
    have hl := s.wrCnt.isLt
    refine ⟨s, rfl, rfl, by simp [natToBits], ?_, ?_, List.prefix_refl _, hc⟩
    · have : (s.wrCnt.toNat + 0) / 8 = 0 := by omega
      omega
    · omega
  | succ n ih =>
    obtain ⟨t, ht, h1, h2, h3, h4, h5, h6⟩ := writeBit_spec (b := v.testBit n) hc (fun c hcap => by have := hr c hcap; omega)
    have hp : t.params = s.params := by rw [h1]
    have h3' : t.snk.length = s.snk.length + (s.wrCnt.toNat + 1) / 8 := h3
    obtain ⟨u, hu, g1, g2, g3, g4, g5, g6⟩ := ih t h6 (fun c hcap => by
      rw [hp] at hcap
      have := hr c hcap
      rw [h3', h4]; omega)
    refine ⟨u, ?_, ?_, ?_, ?_, ?_, ?_, g6⟩
    · rw [writeBits, ht]; exact hu
    · rw [g1, h1]
    · rw [g2, h2, natToBits]; simp
    · rw [g3, h3, h4]; omega
    · rw [g4, h4]; omega
    · exact h5.trans g5

end Machine

end Sys2Proof
end

