-- ==== Sys2Proof/Laws/PerInstr.lean ====
section
/-! SUPPORT. The family `EncodingLength`, stated instruction by instruction: the encoding of every well-formed instruction has at
least one bit, so a decode always gets on (41_gen1_decode.md R157, 42_gen2_lz3.md R194), and where a stream is byte-granular
it is a whole number of bytes (20_memory.md R71). -/

namespace Sys2Proof

/-- The places of a stream that are byte-granular (R71). -/
def Ctx.byteGranular (c : Ctx) : Bool :=
  match c with
  | .pfx | .lz | .addr => true
  | .header | .init | .rle | .data | .mode | .command => false

namespace Laws

/-- The length of an instruction's encoding. -/
def EncodingLength.Statement (i : Instr) : Prop :=
  i.wf = true → 0 < (encode i).length ∧ (i.ctx.byteGranular = true → 8 ∣ (encode i).length)

/-- From the length itself. -/
theorem of_length {i : Instr} (n : Nat) (h : (encode i).length = n + 1)
    (hb : (i.ctx.byteGranular && (n + 1) % 8 != 0) = false) : EncodingLength.Statement i := by
  refine fun _ => ⟨by omega, fun hg => ?_⟩
  rw [hg] at hb
  simp at hb
  omega

/-- A run of `k` prefix ones takes `2 (k + 1)` bits (R96). -/
theorem encodeRun_length (k v : Nat) : (encodeRun k v).length = 2 * k + 1 + 1 := by
  simp [encodeRun]; omega

theorem EncodingLength.g1Hdr (w : BitVec 4) (h : BitVec 4) (p : BitVec 1) : EncodingLength.Statement (.g1Hdr w h p) :=
  of_length 8 rfl rfl

theorem EncodingLength.g1InitRle : EncodingLength.Statement .g1InitRle :=
  of_length 0 rfl rfl

theorem EncodingLength.g1InitData : EncodingLength.Statement .g1InitData :=
  of_length 0 rfl rfl

theorem EncodingLength.g1Run0 (v : BitVec 1) : EncodingLength.Statement (.g1Run0 v) :=
  of_length 1 (encodeRun_length 0 v.toNat) rfl

theorem EncodingLength.g1Run1 (v : BitVec 2) : EncodingLength.Statement (.g1Run1 v) :=
  of_length 3 (encodeRun_length 1 v.toNat) rfl

theorem EncodingLength.g1Run2 (v : BitVec 3) : EncodingLength.Statement (.g1Run2 v) :=
  of_length 5 (encodeRun_length 2 v.toNat) rfl

theorem EncodingLength.g1Run3 (v : BitVec 4) : EncodingLength.Statement (.g1Run3 v) :=
  of_length 7 (encodeRun_length 3 v.toNat) rfl

theorem EncodingLength.g1Run4 (v : BitVec 5) : EncodingLength.Statement (.g1Run4 v) :=
  of_length 9 (encodeRun_length 4 v.toNat) rfl

theorem EncodingLength.g1Run5 (v : BitVec 6) : EncodingLength.Statement (.g1Run5 v) :=
  of_length 11 (encodeRun_length 5 v.toNat) rfl

theorem EncodingLength.g1Run6 (v : BitVec 7) : EncodingLength.Statement (.g1Run6 v) :=
  of_length 13 (encodeRun_length 6 v.toNat) rfl

theorem EncodingLength.g1Run7 (v : BitVec 8) : EncodingLength.Statement (.g1Run7 v) :=
  of_length 15 (encodeRun_length 7 v.toNat) rfl

theorem EncodingLength.g1Run8 (v : BitVec 9) : EncodingLength.Statement (.g1Run8 v) :=
  of_length 17 (encodeRun_length 8 v.toNat) rfl

theorem EncodingLength.g1Run9 (v : BitVec 10) : EncodingLength.Statement (.g1Run9 v) :=
  of_length 19 (encodeRun_length 9 v.toNat) rfl

theorem EncodingLength.g1Run10 (v : BitVec 11) : EncodingLength.Statement (.g1Run10 v) :=
  of_length 21 (encodeRun_length 10 v.toNat) rfl

theorem EncodingLength.g1Run11 (v : BitVec 12) : EncodingLength.Statement (.g1Run11 v) :=
  of_length 23 (encodeRun_length 11 v.toNat) rfl

theorem EncodingLength.g1Run12 (v : BitVec 13) : EncodingLength.Statement (.g1Run12 v) :=
  of_length 25 (encodeRun_length 12 v.toNat) rfl

theorem EncodingLength.g1Run13 (v : BitVec 14) : EncodingLength.Statement (.g1Run13 v) :=
  of_length 27 (encodeRun_length 13 v.toNat) rfl

theorem EncodingLength.g1Run14 (v : BitVec 15) : EncodingLength.Statement (.g1Run14 v) :=
  of_length 29 (encodeRun_length 14 v.toNat) rfl

theorem EncodingLength.g1Run15 (v : BitVec 16) : EncodingLength.Statement (.g1Run15 v) :=
  of_length 31 (encodeRun_length 15 v.toNat) rfl

theorem EncodingLength.g1RunN (k : Nat) (v : Nat) : EncodingLength.Statement (.g1RunN k v) :=
  of_length (2 * k + 1) (encodeRun_length k v) rfl

theorem EncodingLength.g1Pair1 : EncodingLength.Statement .g1Pair1 :=
  of_length 1 rfl rfl

theorem EncodingLength.g1Pair2 : EncodingLength.Statement .g1Pair2 :=
  of_length 1 rfl rfl

theorem EncodingLength.g1Pair3 : EncodingLength.Statement .g1Pair3 :=
  of_length 1 rfl rfl

theorem EncodingLength.g1Switch : EncodingLength.Statement .g1Switch :=
  of_length 1 rfl rfl

theorem EncodingLength.g1Mode0 : EncodingLength.Statement .g1Mode0 :=
  of_length 0 rfl rfl

theorem EncodingLength.g1Mode2 : EncodingLength.Statement .g1Mode2 :=
  of_length 1 rfl rfl

theorem EncodingLength.g1Mode3 : EncodingLength.Statement .g1Mode3 :=
  of_length 1 rfl rfl

theorem EncodingLength.lzCopy (l : BitVec 5) : EncodingLength.Statement (.lzCopy l) :=
  of_length 7 rfl rfl

theorem EncodingLength.lzFill (l : BitVec 5) : EncodingLength.Statement (.lzFill l) :=
  of_length 7 rfl rfl

theorem EncodingLength.lzWFill (l : BitVec 5) : EncodingLength.Statement (.lzWFill l) :=
  of_length 7 rfl rfl

theorem EncodingLength.lzZero (l : BitVec 5) : EncodingLength.Statement (.lzZero l) :=
  of_length 7 rfl rfl

theorem EncodingLength.lzRep (l : BitVec 5) : EncodingLength.Statement (.lzRep l) :=
  of_length 7 rfl rfl

theorem EncodingLength.lzBRev (l : BitVec 5) : EncodingLength.Statement (.lzBRev l) :=
  of_length 7 rfl rfl

theorem EncodingLength.lzBack (l : BitVec 5) : EncodingLength.Statement (.lzBack l) :=
  of_length 7 rfl rfl

theorem EncodingLength.lzCopyL (l : BitVec 10) : EncodingLength.Statement (.lzCopyL l) :=
  of_length 15 rfl rfl

theorem EncodingLength.lzFillL (l : BitVec 10) : EncodingLength.Statement (.lzFillL l) :=
  of_length 15 rfl rfl

theorem EncodingLength.lzWFillL (l : BitVec 10) : EncodingLength.Statement (.lzWFillL l) :=
  of_length 15 rfl rfl

theorem EncodingLength.lzZeroL (l : BitVec 10) : EncodingLength.Statement (.lzZeroL l) :=
  of_length 15 rfl rfl

theorem EncodingLength.lzRepL (l : BitVec 10) : EncodingLength.Statement (.lzRepL l) :=
  of_length 15 rfl rfl

theorem EncodingLength.lzBRevL (l : BitVec 10) : EncodingLength.Statement (.lzBRevL l) :=
  of_length 15 rfl rfl

theorem EncodingLength.lzBackL (l : BitVec 10) : EncodingLength.Statement (.lzBackL l) :=
  of_length 15 rfl rfl

theorem EncodingLength.lzIll (l : BitVec 9) : EncodingLength.Statement (.lzIll l) :=
  of_length 15 rfl rfl

theorem EncodingLength.lzIllFe (l : BitVec 8) : EncodingLength.Statement (.lzIllFe l) :=
  of_length 15 rfl rfl

theorem EncodingLength.lzEnd : EncodingLength.Statement .lzEnd :=
  of_length 7 rfl rfl

theorem EncodingLength.lzAddrRel (y : BitVec 7) : EncodingLength.Statement (.lzAddrRel y) :=
  of_length 7 rfl rfl

theorem EncodingLength.lzAddrAbs (y : BitVec 7) (a : BitVec 8) : EncodingLength.Statement (.lzAddrAbs y a) :=
  of_length 15 rfl rfl

theorem EncodingLength.g2Prefix (w : BitVec 4) (h : BitVec 4) (c0 : Color) (c1 : Color) (c2 : Color) (c3 : Color) : EncodingLength.Statement (.g2Prefix w h c0 c1 c2 c3) :=
  of_length 111 rfl rfl

theorem EncodingLength.reset : EncodingLength.Statement .reset :=
  of_length 3 rfl rfl

theorem EncodingLength.bcOpen : EncodingLength.Statement .bcOpen :=
  of_length 3 rfl rfl

theorem EncodingLength.bcRead : EncodingLength.Statement .bcRead :=
  of_length 3 rfl rfl

theorem EncodingLength.bcWrite : EncodingLength.Statement .bcWrite :=
  of_length 3 rfl rfl

theorem EncodingLength.bcFlush : EncodingLength.Statement .bcFlush :=
  of_length 3 rfl rfl

theorem EncodingLength.g1Decode : EncodingLength.Statement .g1Decode :=
  of_length 3 rfl rfl

theorem EncodingLength.g2Decode : EncodingLength.Statement .g2Decode :=
  of_length 3 rfl rfl

theorem EncodingLength.cmdReserved0 : EncodingLength.Statement .cmdReserved0 :=
  of_length 3 rfl rfl

theorem EncodingLength.cmdReserved6 : EncodingLength.Statement .cmdReserved6 :=
  of_length 3 rfl rfl

theorem EncodingLength.cmdReserved7 : EncodingLength.Statement .cmdReserved7 :=
  of_length 3 rfl rfl

theorem EncodingLength.cmdReservedA : EncodingLength.Statement .cmdReservedA :=
  of_length 3 rfl rfl

theorem EncodingLength.cmdReservedB : EncodingLength.Statement .cmdReservedB :=
  of_length 3 rfl rfl

theorem EncodingLength.cmdReservedC : EncodingLength.Statement .cmdReservedC :=
  of_length 3 rfl rfl

theorem EncodingLength.cmdReservedD : EncodingLength.Statement .cmdReservedD :=
  of_length 3 rfl rfl

theorem EncodingLength.cmdReservedE : EncodingLength.Statement .cmdReservedE :=
  of_length 3 rfl rfl

theorem EncodingLength.cmdReservedF : EncodingLength.Statement .cmdReservedF :=
  of_length 3 rfl rfl

end Laws

end Sys2Proof
end

