-- ==== Sys2Proof/Laws/Planes.lean ====
section
/-! SUPPORT. The planes: the delta-decode byte by byte, the sizes that post-processing, placement and assembly keep, and the elements
of a placed plane and of the raster (41_gen1_decode.md R161 to R172, 43_tile_assembler.md R233, R236). -/

namespace Sys2Proof.Machine

/-! ## The delta-decode of a byte -/

theorem deltaBits_bit (b : Byte) (k : Nat) (hk : k ≤ 8) (ds : BitVec 1) (out : Byte) (ho : ∀ i, i < k → out.getLsbD i = false) (i : Nat) :
    (deltaBits b k ds out).1.getLsbD i =
      if i < k then (List.range (k - i)).foldl (fun p j => p ^^ b.getLsbD (k - 1 - j)) (ds.getLsbD 0) else out.getLsbD i := by
  induction k generalizing ds out with
  | zero => simp [deltaBits]
  | succ k ih =>
    have hd : (ds ^^^ BitVec.ofBool (b.getLsbD k)).getLsbD 0 = (ds.getLsbD 0 ^^ b.getLsbD k) := by simp
    have hs : ∀ (d : BitVec 1) (j : Nat), j < 8 → ((d.setWidth 8 : Byte) <<< k).getLsbD j = (decide (j = k) && d.getLsbD 0) := by
      intro d j hj
      rw [BitVec.getLsbD_shiftLeft, BitVec.getLsbD_setWidth]
      by_cases h : j = k
      · subst h; simp [hj]
      · by_cases h2 : j < k
        · simp [h, h2]
        · have : d.getLsbD (j - k) = false := BitVec.getLsbD_of_ge _ _ (by omega)
          simp [h, this]
    rw [deltaBits]
    rw [ih (by omega)]
    · by_cases hik : i < k
      · rw [if_pos hik, if_pos (by omega), show k + 1 - i = (k - i) + 1 by omega, List.range_succ_eq_map, List.foldl_cons, List.foldl_map, hd]
        congr 1
        funext p j
        congr 2; omega
      · rw [if_neg hik]
        by_cases hi8 : i < 8
        · rw [BitVec.getLsbD_or, hs _ _ hi8, hd]
          by_cases hik' : i = k
          · subst hik'; simp [ho i (by omega)]
          · rw [if_neg (by omega)]; simp [hik']
        · rw [BitVec.getLsbD_of_ge _ _ (by omega), if_neg (by omega), BitVec.getLsbD_of_ge _ _ (by omega)]
    · intro j hj
      rw [BitVec.getLsbD_or, ho j (by omega), hs _ _ (by omega)]
      simp; omega

theorem deltaBits_state (b : Byte) (k : Nat) (ds : BitVec 1) (out : Byte) :
    (deltaBits b k ds out).2.getLsbD 0 = (List.range k).foldl (fun p j => p ^^ b.getLsbD (k - 1 - j)) (ds.getLsbD 0) := by
  induction k generalizing ds out with
  | zero => rfl
  | succ k ih =>
    rw [deltaBits]
    rw [ih, List.range_succ_eq_map, List.foldl_cons, List.foldl_map]
    congr 1
    · funext p j; congr 2; omega
    · simp

/-- One byte of the delta-decode (R168): pixel `x` of the byte is the state XOR the parity of its pixels up to `x`. -/
theorem deltaByte_bit (ds : BitVec 1) (b : Byte) (x : Nat) (h : x < 8) :
    (deltaByte ds b).1.getLsbD (7 - x) = (List.range (x + 1)).foldl (fun p j => p ^^ b.getLsbD (7 - j)) (ds.getLsbD 0) := by
  unfold deltaByte
  rw [deltaBits_bit b 8 (le_refl _) ds 0 (by simp), if_pos (by omega)]
  congr 2; omega

/-- The state after the byte (R168). -/
theorem deltaByte_state (ds : BitVec 1) (b : Byte) :
    (deltaByte ds b).2.getLsbD 0 = (List.range 8).foldl (fun p j => p ^^ b.getLsbD (7 - j)) (ds.getLsbD 0) :=
  deltaBits_state b 8 ds 0

/-! ## Placement and assembly -/

/-- A byte of a placed plane (R233). -/
theorem placedPlane_get (d : List Byte) (s : State) (k : Nat) (h : k < s.phW * s.phH * 8) : (placedPlane d s)[k]? = some (placedByte d s k) := by
  simp [placedPlane, h]

/-- A pixel of the raster of indices (R236). -/
theorem pixels_get (s : State) (x y : Nat) (hx : x < s.phW * 8) (hy : y < s.phH * 8) : (pixels s)[y * (s.phW * 8) + x]? = some (pixelAt s x y) := by
  have h : y * (s.phW * 8) + x < s.phH * 8 * (s.phW * 8) := by
    calc y * (s.phW * 8) + x < y * (s.phW * 8) + s.phW * 8 := by omega
      _ = (y + 1) * (s.phW * 8) := by ring
      _ ≤ _ := Nat.mul_le_mul_right _ (by omega)
  have e1 : (y * (s.phW * 8) + x) % (s.phW * 8) = x := by rw [Nat.mul_comm, Nat.mul_add_mod, Nat.mod_eq_of_lt hx]
  have e2 : (y * (s.phW * 8) + x) / (s.phW * 8) = y := by
    rw [Nat.mul_comm, Nat.mul_add_div (by omega), Nat.div_eq_of_lt hx, Nat.add_zero]
  simp only [pixels, List.getElem?_map]
  rw [List.getElem?_range h]
  simp [e1, e2]

/-! ## Sizes -/

/-- A pair keeps the size of its buffer (R161). -/
@[simp] theorem emitPair_length (r n : Nat) (p : BitVec 2) (b : List Byte) : (emitPair r n p b).length = b.length := by
  unfold emitPair; simp

theorem deltaAt_length (rows y : Nat) (acc) (t : Nat) : (deltaAt rows y acc t).1.length = acc.1.length := by
  unfold deltaAt; simp

theorem foldl_keep {α β : Type} (f : α → β → α) (g : α → Nat) (h : ∀ a b, g (f a b) = g a) (l : List β) (a : α) : g (l.foldl f a) = g a := by
  induction l generalizing a with
  | nil => rfl
  | cons x l ih => rw [List.foldl_cons, ih, h]

/-- The delta-decode keeps the size of its buffer (R168). -/
@[simp] theorem deltaDecode_length (s : State) (b : List Byte) : (deltaDecode s b).1.length = b.length := by
  unfold deltaDecode
  split
  · simp [deltaSpanByte]
  · unfold deltaSpanRow
    refine (foldl_keep (g := fun a : List Byte × BitVec 1 => a.1.length) _ ?_ _ _).trans rfl
    intro a y
    exact (foldl_keep (g := fun a : List Byte × BitVec 1 => a.1.length) _ (fun a b => deltaAt_length _ _ _ _) _ _).trans rfl

/-- Post-processing changes `B`, `C`, `DS` only, and no size (R166). -/
theorem postProcess_eq (s : State) : ∃ b c d, postProcess s = { s with bufB := b, bufC := c, ds := d } ∧
    (s.bufB.length = s.bufC.length → b.length = s.bufB.length ∧ c.length = s.bufC.length) := by
  have hx : ∀ a b : List Byte, a.length = b.length → (xorInto a b).length = a.length := by
    intro a b h; simp [xorInto, h]
  unfold postProcess
  split
  · refine ⟨_, _, _, rfl, fun h => ⟨?_, ?_⟩⟩
    · exact deltaDecode_length _ _
    · exact deltaDecode_length _ _
  · unfold xorPrimary deltaOther
    by_cases hp : s.g1Primary = 0
    · have e : (deltaC s).g1Primary = 0 := hp
      rw [if_pos hp, if_pos e]
      refine ⟨_, _, _, rfl, fun h => ⟨?_, ?_⟩⟩
      · refine hx _ _ ?_; rw [show (deltaC s).bufC.length = s.bufC.length from deltaDecode_length _ _]; exact h
      · exact deltaDecode_length _ _
    · have e : ¬ (deltaB s).g1Primary = 0 := hp
      rw [if_neg hp, if_neg e]
      refine ⟨_, _, _, rfl, fun h => ⟨?_, ?_⟩⟩
      · exact deltaDecode_length _ _
      · refine hx _ _ ?_; rw [show (deltaB s).bufB.length = s.bufB.length from deltaDecode_length _ _]; exact h.symm
  · have l1 : (deltaC (deltaB s)).bufB.length = s.bufB.length := deltaDecode_length s _
    have l2 : (deltaC (deltaB s)).bufC.length = s.bufC.length := deltaDecode_length (deltaB s) _
    unfold xorPrimary
    by_cases hp : s.g1Primary = 0
    · have e : (deltaC (deltaB s)).g1Primary = 0 := hp
      rw [if_pos e]
      exact ⟨_, _, _, rfl, fun h => ⟨(hx _ _ (by rw [l1, l2]; exact h)).trans l1, l2⟩⟩
    · have e : ¬ (deltaC (deltaB s)).g1Primary = 0 := hp
      rw [if_neg e]
      exact ⟨_, _, _, rfl, fun h => ⟨l1, (hx _ _ (by rw [l1, l2]; exact h.symm)).trans l2⟩⟩
  · exact ⟨_, _, _, rfl, fun h => ⟨rfl, rfl⟩⟩

/-- The end of a decode writes the result registers, the result spaces and `ST` only; the sizes are those of R60. -/
theorem finish_sizes {g : Bool} {d0 d1 : List Byte} {s t : State} (h : finish g d0 d1 s = .ok t) :
    ∃ w h c r p0 p1 px ra, t = { s with phW := w, phH := h, colOff := c, rowOff := r, p0 := p0, p1 := p1, pix := px, raster := ra, st := s.st.finish, phase := .idle } ∧
      t.dlW ≤ t.phW ∧ t.dlH ≤ t.phH ∧ t.p0.length = t.phW * t.phH * 8 ∧ t.p1.length = t.phW * t.phH * 8 ∧
      t.pix.length = t.phH * 8 * (t.phW * 8) ∧ t.raster.length = t.pix.length := by
  obtain ⟨u, hu, rfl⟩ := finish_eq_ok h
  obtain ⟨h1, h2, v, rfl, rfl⟩ := place_eq_ok hu
  refine ⟨_, _, _, _, _, _, _, _, rfl, h1, h2, ?_, ?_, ?_, ?_⟩
  · simp [assemble, placedPlane]
  · simp [assemble, placedPlane]
  · simp [assemble, pixels]
  · simp [assemble]

end Sys2Proof.Machine
end

