-- ==== Sys2Proof/Laws/Sequencer.lean ====
section
/-! SUPPORT. The sequencer: what a place of a stream decodes to, the two dispatches agree on it, and the element loop one
pass at a time. -/

namespace Sys2Proof

/-- A run of the decoder reads an instruction of the place it stands at (R108). -/
theorem mkRun_ctx (k v : Nat) : (mkRun k v).ctx = .rle := by
  unfold mkRun
  split <;> rfl

theorem mkShort_ctx (c l : Nat) : (mkShort c l).ctx = .lz := by
  unfold mkShort
  split <;> rfl

theorem mkLong_ctx (h n : Nat) : (mkLong h n).ctx = .lz := by
  unfold mkLong
  split <;> first | rfl | skip
  split <;> rfl

theorem decodeCommand_ctx (c : BitVec 4) : (decodeCommand c).ctx = .command := by
  unfold decodeCommand
  split <;> rfl

theorem decode_ctx {c : Ctx} {bs rest : Bits} {i : Instr} (h : decode c bs = .ok (i, rest)) : i.ctx = c := by
  cases c <;> simp only [decode] at h
  · unfold decodeHeader at h
    repeat' (split at h <;> try cases h)
    rfl
  · unfold decodeInit at h
    split at h <;> cases h <;> rfl
  · unfold decodeRun at h
    repeat' (split at h <;> try cases h)
    exact mkRun_ctx _ _
  · unfold decodeData at h
    split at h <;> cases h <;> rfl
  · unfold decodeMode at h
    split at h <;> cases h <;> rfl
  · unfold decodePfx at h
    repeat' (split at h <;> try cases h)
    rfl
  · unfold decodeLz at h
    repeat' (split at h <;> try cases h)
    · rfl
    · exact mkLong_ctx _ _
    · exact mkShort_ctx _ _
  · unfold decodeAddr at h
    repeat' (split at h <;> try cases h)
    · rfl
    · rfl
  · split at h <;> cases h
    exact decodeCommand_ctx _

namespace Machine

/-- On stream elements the meaning inside a decode is the meaning of `exec`. -/
theorem streamMeaning_eq_exec {i : Instr} (h : i.ctx ≠ .command) (s : State) : streamMeaning i s = exec i s := by
  cases i <;> first | rfl | exact absurd rfl h

/-- What the block fetches is never a host command. -/
theorem fetchCtx_ne_command {s : State} {c : Ctx} (h : fetchCtx s = some c) : c ≠ .command := by
  unfold fetchCtx at h
  split at h <;> first | cases h | (split at h <;> cases h)
  all_goals decide

/-- One pass of a decode is one step of the block (R251). -/
theorem elementStep_exec (s : State) : elementStep exec s = elementStep streamMeaning s := by
  unfold elementStep
  split
  · rfl
  · next c hc =>
    split
    · next i r hi =>
      unfold fetch at hi
      rw [streamMeaning_eq_exec]
      rw [decode_ctx hi]
      exact fetchCtx_ne_command hc
    · rfl

/-- Inside a decode a step is one pass of its loop. -/
theorem step_eq_elementStep {s : State} (h : s.phase ≠ .idle) : step s = elementStep streamMeaning s := by
  unfold step
  rw [if_neg h, elementStep_exec]

theorem decodeLoop_idle {s : State} (n : Nat) (h : s.phase = .idle) : decodeLoop n s = .next s := by
  cases n <;> simp [decodeLoop, h]

theorem decodeLoop_step {s t : State} (n : Nat) (h : s.phase ≠ .idle) (ht : step s = .next t) : decodeLoop (n + 1) s = decodeLoop n t := by
  rw [step_eq_elementStep h] at ht
  simp [decodeLoop, h, ht]

end Machine

end Sys2Proof
end

