-- ==== Sys2Proof/Laws/Steps.lean ====
section
/-! SUPPORT. What one step of a decode can do, said once, phase by phase: a fault or a refusal, or one of the updates below with
the conditions under which it is taken. Invariants, frames and bounds are derived from this and unfold no meaning. -/

namespace Sys2Proof

/-- Decoding takes the bits of the encoding. -/
theorem decode_length {c : Ctx} {bs rest : Bits} {i : Instr} (h : decode c bs = .ok (i, rest)) : bs.length = (encode i).length + rest.length := by
  have num : ∀ {n v : Nat} {xs r : Bits}, takeNum n xs = some (v, r) → xs.length = n + r.length := by
    intro n v xs r h; obtain ⟨rfl, -⟩ := takeNum_eq_some h; simp
  have ones : ∀ {k : Nat} {xs r : Bits}, takeOnes xs = some (k, r) → xs.length = k + 1 + r.length := by
    intro k xs r h; rw [takeOnes_eq_some h]; simp; omega
  have run : ∀ k v : Nat, (encode (mkRun k v)).length = 2 * k + 2 := by
    intro k v; unfold mkRun; split <;> simp [encode, encodeRun] <;> omega
  have short : ∀ c l : Nat, (encode (mkShort c l)).length = 8 := by
    intro c l; unfold mkShort; split <;> simp [encode, encodeShort]
  have long : ∀ x n : Nat, (encode (mkLong x n)).length = 16 := by
    intro x n; unfold mkLong
    split <;> first | (simp [encode, encodeLong]; done) | (split <;> simp [encode])
  have cmd : ∀ c : BitVec 4, (encode (decodeCommand c)).length = 4 := by
    intro c; unfold decodeCommand; split <;> simp [encode]
  cases c <;> simp only [decode] at h
  · unfold decodeHeader at h
    split at h; · cases h
    next h1 => split at h; · cases h
               next h2 => split at h; · cases h
                          next h3 => cases h; have := num h1; have := num h2; have := num h3; simp [encode]; omega
  · unfold decodeInit at h
    split at h <;> cases h <;> simp [encode] <;> omega
  · unfold decodeRun at h
    split at h; · cases h
    next h1 => split at h; · cases h
               next h2 => cases h; have := ones h1; have := num h2; rw [run]; omega
  · unfold decodeData at h
    split at h <;> cases h <;> simp [encode] <;> omega
  · unfold decodeMode at h
    split at h <;> cases h <;> simp [encode] <;> omega
  · unfold decodePfx at h
    split at h; · cases h
    next h0 =>
      split at h; · cases h
      split at h; · cases h
      next h1 =>
        split at h; · cases h
        next h2 =>
          split at h; · cases h
          next h3 =>
            split at h; · cases h
            next h4 =>
              split at h; · cases h
              next h5 =>
                cases h
                have := num h0; have := num h1; have := num h2; have := num h3; have := num h4; have := num h5
                simp [encode]; omega
  · unfold decodeLz at h
    split at h; · cases h
    next h0 =>
      have := num h0
      split at h
      · cases h; simp [encode]; omega
      · split at h
        · split at h; · cases h
          next h1 => cases h; have := num h1; rw [long]; omega
        · cases h; rw [short]; omega
  · unfold decodeAddr at h
    split at h; · cases h
    next h0 =>
      have := num h0
      split at h
      · cases h; simp [encode]; omega
      · split at h; · cases h
        next h1 => cases h; have := num h1; simp [encode]; omega
  · split at h; · cases h
    next h0 => cases h; have := num h0; rw [cmd]; omega

namespace Machine

/-! ## The body of an LZ3 command -/

/-- The literal bytes of `LZ.COPY` (R195): what is appended has the command's length, and each byte was there to be taken. -/
theorem copyLiterals_eq_ok {n : Nat} {s t : State} (h : copyLiterals n s = .ok t) (hi : s.g2Ip ≤ s.srcLen) :
    ∃ bs, bs.length = n ∧ s.g2Ip + n ≤ s.srcLen ∧ t = { s with g2Ip := s.g2Ip + n, bufD := s.bufD ++ bs } := by
  induction n generalizing s with
  | zero => cases h; exact ⟨[], rfl, hi, by simp⟩
  | succ n ih =>
    unfold copyLiterals at h
    split at h; · cases h
    next v u hu =>
      obtain ⟨hl, rfl, rfl⟩ := nextByte_eq_ok hu
      split at h; · cases h
      next u' hu' =>
        obtain ⟨-, rfl⟩ := append_eq_ok hu'
        obtain ⟨bs, hbs, hle, rfl⟩ := ih h (by simp only; omega)
        refine ⟨s.srcByte s.g2Ip :: bs, by simp [hbs], by simp only at hle; omega, ?_⟩
        simp [Nat.add_assoc, Nat.add_comm 1 n]

/-- The literal bytes stop by truncated-input or by the capacity of `D`. -/
theorem copyLiterals_error {n : Nat} {s : State} {e : Stop} (h : copyLiterals n s = .error e) : e = .raise .truncatedInput ∨ e = .refuse .capacity := by
  induction n generalizing s with
  | zero => cases h
  | succ n ih =>
    unfold copyLiterals at h
    split at h
    · next hu => cases h; exact .inl (nextByte_error hu).2
    · split at h
      · next hu => cases h; unfold append at hu; split at hu <;> cases hu; exact .inr rfl
      · exact ih h

/-- `ReadStart()` fetches inside the source. -/
theorem readStart_bounds {s t : State} (h : readStart s = .ok t) :
    ∃ n b, 1 ≤ n ∧ n ≤ 2 ∧ s.g2Ip + n ≤ s.srcLen ∧ t = { s with g2Ip := s.g2Ip + n, g2Start := b } := by
  rcases readStart_eq_ok h with ⟨hl, -, rfl⟩ | ⟨hl, -, rfl⟩
  · exact ⟨1, _, by omega, by omega, by omega, rfl⟩
  · exact ⟨2, _, by omega, by omega, by omega, rfl⟩

/-- The body of each of the fourteen command rows, after its header (R195 to R208). -/
def lzBody (c : Nat) : State → Op State :=
  match c with
  | 0 => copyBody
  | 1 => fillBody
  | 2 => wfillBody
  | 3 => zeroBody
  | 4 => backReference repTransfer
  | 5 => backReference brevTransfer
  | _ => backReference backTransfer

/-- A command row takes its header and runs its body. -/
theorem exec_lzForm {i : Instr} {f : LzForm} (h : lzForm i = some f) (s : State) :
    exec i s = settle s (lzBody f.cmd.toNat (headed f s)) ∧ 1 ≤ f.len ∧ f.len ≤ 1024 ∧ 1 ≤ f.bytes ∧ 8 * f.bytes = (encode i).length ∧ f.cmd.toNat ≤ 6 := by
  cases i <;> simp only [lzForm, Option.some.injEq, reduceCtorEq] at h <;> subst h
  all_goals
    refine ⟨rfl, ?_, ?_, by simp, ?_, ?_⟩
    · simp
    · rename_i l; have := l.isLt; simp only; omega
    · rfl
    · exact by simp

/-- A body that completes has taken its operand bytes from the source and appended `G2_LEN` bytes (R216). -/
theorem lzBody_eq_ok {c : Nat} {s t : State} (h : lzBody c s = .ok t) (hi : s.g2Ip ≤ s.srcLen) :
    ∃ ip b bs, s.g2Ip ≤ ip ∧ ip ≤ s.srcLen ∧ bs.length = s.g2Len ∧ t = { s with g2Ip := ip, g2Start := b, bufD := s.bufD ++ bs } := by
  unfold lzBody at h
  split at h
  · obtain ⟨bs, hb, hl, rfl⟩ := copyLiterals_eq_ok h hi
    exact ⟨_, _, bs, by omega, hl, hb, rfl⟩
  · unfold fillBody at h
    split at h; · cases h
    next hu =>
      obtain ⟨hl, rfl, rfl⟩ := nextByte_eq_ok hu
      rw [appendAll_eq_ok h]
      exact ⟨s.g2Ip + 1, s.g2Start, _, by omega, by omega, by simp, rfl⟩
  · unfold wfillBody at h
    split at h; · cases h
    next hu =>
      obtain ⟨hl, rfl, rfl⟩ := nextByte_eq_ok hu
      split at h; · cases h
      next hu' =>
        obtain ⟨hl', rfl, rfl⟩ := nextByte_eq_ok hu'
        rw [appendAll_eq_ok h]
        simp only at hl'
        exact ⟨s.g2Ip + 1 + 1, s.g2Start, _, by omega, by omega, by simp [alternate], rfl⟩
  · unfold zeroBody at h
    rw [appendAll_eq_ok h]
    exact ⟨_, _, _, le_refl _, hi, by simp, rfl⟩
  · unfold backReference at h
    split at h; · cases h
    next hu =>
      obtain ⟨n, b, -, -, hn, rfl⟩ := readStart_bounds hu
      obtain ⟨-, -, -, rfl⟩ := repTransfer_eq_ok h
      exact ⟨_, _, _, by omega, hn, by simp [forwardRange], rfl⟩
  · unfold backReference at h
    split at h; · cases h
    next hu =>
      obtain ⟨n, b, -, -, hn, rfl⟩ := readStart_bounds hu
      obtain ⟨-, -, -, rfl⟩ := brevTransfer_eq_ok h
      exact ⟨_, _, _, by omega, hn, by simp [forwardRange], rfl⟩
  · unfold backReference at h
    split at h; · cases h
    next hu =>
      obtain ⟨n, b, -, -, hn, rfl⟩ := readStart_bounds hu
      obtain ⟨-, -, -, rfl⟩ := backTransfer_eq_ok h
      exact ⟨_, _, _, by omega, hn, by simp [backwardRange], rfl⟩

/-! ## Gen1 elements -/

/-- Every run row is a run element (R158). -/
theorem exec_runParts {i : Instr} {k v : Nat} (h : runParts i = some (k, v)) (s : State) : exec i s = settle s (runElement k v s) := by
  cases i <;> simp only [runParts, Option.some.injEq, Prod.mk.injEq, reduceCtorEq] at h
  all_goals
    obtain ⟨rfl, rfl⟩ := h
    rfl

/-- In state RLE only a run is read (R94). -/
theorem rle_is_run {i : Instr} (h : i.ctx = .rle) : ∃ k v, runParts i = some (k, v) ∧ (encode i).length = 2 * (k + 1) := by
  cases i <;> first | (exfalso; simp [Instr.ctx] at h; done) | skip
  all_goals exact ⟨_, _, rfl, by simp [encode, encodeRun]; try omega⟩

/-- In state DATA a pair or the switch is read (R94). -/
theorem data_is_pair {i : Instr} (h : i.ctx = .data) : (encode i).length = 2 ∧ ((∃ p, ∀ s, exec i s = .next (pairElement p s)) ∨ ∀ s, exec i s = .next (switchElement s)) := by
  cases i <;> first | (exfalso; simp [Instr.ctx] at h; done) | skip
  · exact ⟨rfl, .inl ⟨1, fun _ => rfl⟩⟩
  · exact ⟨rfl, .inl ⟨2, fun _ => rfl⟩⟩
  · exact ⟨rfl, .inl ⟨3, fun _ => rfl⟩⟩
  · exact ⟨rfl, .inr fun _ => rfl⟩

/-- The mode field (R98). -/
theorem mode_is_mode {i : Instr} (h : i.ctx = .mode) :
    ∃ m n, m ≠ 1 ∧ 1 ≤ n ∧ (encode i).length = n ∧ ∀ s, exec i s = .next (modeElement m n s) := by
  cases i <;> first | (exfalso; simp [Instr.ctx] at h; done) | skip
  · exact ⟨0, 1, by decide, by omega, rfl, fun _ => rfl⟩
  · exact ⟨2, 2, by decide, by omega, rfl, fun _ => rfl⟩
  · exact ⟨3, 2, by decide, by omega, rfl, fun _ => rfl⟩

/-- Header position of LZ3 (R114): a command, the terminator, or a nested long header. -/
theorem lz_is_command {i : Instr} (h : i.ctx = .lz) : (∃ f, lzForm i = some f) ∨ i = .lzEnd ∨ ∀ s, exec i s = .next (s.stop (.raise .malformedHeader)) := by
  cases i <;> first | (exfalso; simp [Instr.ctx] at h; done) | skip
  case lzEnd => exact .inr (.inl rfl)
  case lzIll => exact .inr (.inr fun _ => rfl)
  case lzIllFe => exact .inr (.inr fun _ => rfl)
  all_goals exact .inl ⟨_, rfl⟩

/-! ## One step -/

/-- The block of a source is read only where the source begins with `0xFF` (R190). -/
theorem fetch_pfx_ok {s : State} {i : Instr} {rest : Bits} (h : fetch .pfx s = .ok (i, rest)) : 0 < s.srcLen ∧ s.srcByte 0 = 0xFF := by
  have hb := takeNum_byte s 0
  unfold fetch decode unread decodePfx at h
  rw [Nat.mul_zero] at hb
  simp only [hb] at h
  by_cases h0 : 0 < s.srcLen
  · rw [if_pos h0] at h
    simp only at h
    split at h
    · cases h
    · next hm => exact ⟨h0, BitVec.eq_of_toNat_eq (by simpa [Config.lzTerm] using hm)⟩
  · rw [if_neg h0] at h; cases h

/-- A source that does not begin with `0xFF` has no block, and only such a source has none (R190). -/
theorem fetch_pfx_notPrefix {s : State} : fetch .pfx s = .error .notPrefix ↔ s.srcLen = 0 ∨ s.srcByte 0 ≠ 0xFF := by
  have hb := takeNum_byte s 0
  unfold fetch decode unread decodePfx
  rw [Nat.mul_zero] at hb
  simp only [hb]
  by_cases h0 : 0 < s.srcLen
  · rw [if_pos h0]
    simp only
    have e : (s.srcByte 0).toNat = Config.lzTerm ↔ s.srcByte 0 = 0xFF := by rw [← BitVec.toNat_inj]; rfl
    by_cases hm : s.srcByte 0 = 0xFF
    · rw [if_neg (fun h => h (e.mpr hm))]
      constructor
      · intro h; exfalso; revert h; repeat' split
        all_goals simp
      · rintro (h | h)
        · omega
        · exact absurd hm h
    · rw [if_pos (fun h => hm (e.mp h))]; simpa using Or.inr hm
  · rw [if_neg h0]; simp; left; omega

/-- What one step of a decode can do, phase by phase, when it does not stop. -/
inductive Moves (s : State) : State → Prop where
  | header (w h : BitVec 4) (p : BitVec 1) (tw th : BitVec 6) : s.phase = .g1Header → s.rdPos + 9 ≤ 8 * s.srcLen →
      dimension w s = .ok tw → dimension h s = .ok th →
      Moves s { s.advance 9 with
                g1Tw := tw, g1Th := th, g1Total := tw.toNat * th.toNat * 32
                bufB := List.replicate (tw.toNat * th.toNat * 8) 0#8
                bufC := List.replicate (tw.toNat * th.toNat * 8) 0#8
                g1Primary := p, g1Cur := p, phase := .g1Init }
  | init (b : BitVec 1) : s.phase = .g1Init → s.rdPos + 1 ≤ 8 * s.srcLen → Moves s (initState b s)
  | run (k e : Nat) : s.phase = .g1Packet → s.rdPos + 2 * (k + 1) ≤ 8 * s.srcLen → s.g1Emit ≤ e → (e ≤ s.g1Total ∨ e = s.g1Emit) →
      Moves s (afterElement { s.advance (2 * (k + 1)) with g1Emit := e, g1State := 1 })
  | pair (p : BitVec 2) : s.phase = .g1Packet → s.rdPos + 2 ≤ 8 * s.srcLen → Moves s (pairElement p s)
  | switch : s.phase = .g1Packet → s.rdPos + 2 ≤ 8 * s.srcLen → Moves s (switchElement s)
  | mode (m : BitVec 2) (n : Nat) : s.phase = .g1Mode → m ≠ 1 → 1 ≤ n → s.rdPos + n ≤ 8 * s.srcLen → Moves s (modeElement m n s)
  | post (t : State) : s.phase = .g1Post → g1Finish s = .ok t → Moves s t
  | plain : s.phase = .g2Prefix → (s.srcLen = 0 ∨ s.srcByte 0 ≠ 0xFF) → Moves s { s with g2Pfx := 0, g2Ip := 0, phase := .lzHeader }
  | block (pw ph : BitVec 6) (pal : Palette) : s.phase = .g2Prefix → 14 ≤ s.srcLen → s.srcByte 0 = 0xFF →
      Moves s { s with g2Pfx := 1, g2Pw := pw, g2Ph := ph, pal := pal, g2Ip := 14, phase := .lzHeader }
  | command (f : LzForm) (ip : Nat) (b : Int) (bs : List Byte) : s.phase = .lzHeader → 1 ≤ f.bytes → s.g2Ip + f.bytes ≤ ip → ip ≤ s.srcLen →
      bs.length = f.len → Moves s { headed f s with g2Ip := ip, g2Start := b, bufD := s.bufD ++ bs }
  | stop : s.phase = .lzHeader → s.g2Ip + 1 ≤ s.srcLen → Moves s { s with g2Ip := s.g2Ip + 1, phase := .g2Layout }
  | operand (n : Nat) (b : Int) : s.phase = .lzOperand → 1 ≤ n → s.g2Ip + n ≤ s.srcLen →
      Moves s { s with g2Ip := s.g2Ip + n, g2Start := b, phase := .lzCopy }
  | transfer (bs : List Byte) : s.phase = .lzCopy → Moves s { s with bufD := s.bufD ++ bs, phase := .lzHeader }
  | layout (t : State) : s.phase = .g2Layout → g2Finish s = .ok t → Moves s t

/-- ONE STEP OF A DECODE: it answers a next state; either a fault or a refusal other than `AFTER_FAULT` is taken, or one of the
moves is made. -/
theorem step_moves {s : State} (h : s.phase ≠ .idle) :
    ∃ t, step s = .next t ∧ ((∃ e, e ≠ .refuse .afterFault ∧ t = s.stop e) ∨ Moves s t) := by
  rw [step_eq_elementStep h, ← elementStep_exec]
  have stopped : ∀ e, e ≠ Stop.refuse .afterFault → ∃ t, Host.Outcome.next (s.stop e) = (Host.Outcome.next t : Result) ∧
      ((∃ e, e ≠ Stop.refuse .afterFault ∧ t = s.stop e) ∨ Moves s t) := fun e he => ⟨_, rfl, .inl ⟨e, he, rfl⟩⟩
  have settled : ∀ r : Op State, (∀ e, r = .error e → e ≠ Stop.refuse .afterFault) → (∀ t, r = .ok t → Moves s t) →
      ∃ t, settle s r = .next t ∧ ((∃ e, e ≠ Stop.refuse .afterFault ∧ t = s.stop e) ∨ Moves s t) := by
    intro r he ht
    cases r with
    | ok t => exact ⟨t, rfl, .inr (ht t rfl)⟩
    | error e => exact ⟨_, rfl, .inl ⟨e, he e rfl, rfl⟩⟩
  have moved : ∀ t, Moves s t → ∃ t', Host.Outcome.next t = (Host.Outcome.next t' : Result) ∧
      ((∃ e, e ≠ Stop.refuse .afterFault ∧ t' = s.stop e) ∨ Moves s t') := fun t ht => ⟨t, rfl, .inr ht⟩
  have bits : ∀ p, (s.bitsFrom p).length = 8 * s.srcLen - p := bitsFrom_length s
  unfold elementStep
  cases hp : s.phase with
  | idle => exact absurd hp h
  | g1Post =>
    simp only [fetchCtx, hp, quietStep]
    refine settled _ (fun e he => ?_) (fun t ht => .post t hp ht)
    rw [(place_error (finish_error he)).2]; decide
  | lzCopy =>
    simp only [fetchCtx, hp, quietStep]
    refine settled _ (fun e he => ?_) (fun t ht => ?_)
    · unfold pendingTransfer at he
      simp only at he
      split at he
      · next hr =>
        cases he
        split at hr
        · unfold repTransfer at hr; split at hr; · cases hr; decide
          rw [appendAll_error hr]; decide
        · unfold brevTransfer at hr; split at hr; · cases hr; decide
          rw [appendAll_error hr]; decide
        · unfold backTransfer at hr; split at hr; · cases hr; decide
          rw [appendAll_error hr]; decide
        · cases hr
      · cases he
    · unfold pendingTransfer at ht
      simp only at ht
      split at ht
      · cases ht
      · next hr =>
        cases ht
        split at hr
        · obtain ⟨-, -, -, rfl⟩ := repTransfer_eq_ok hr; exact .transfer _ hp
        · obtain ⟨-, -, -, rfl⟩ := brevTransfer_eq_ok hr; exact .transfer _ hp
        · obtain ⟨-, -, -, rfl⟩ := backTransfer_eq_ok hr; exact .transfer _ hp
        · cases hr; have := Moves.transfer (s := s) [] hp; simpa using this
  | g2Layout =>
    simp only [fetchCtx, hp, quietStep]
    refine settled _ (fun e he => ?_) (fun t ht => .layout t hp ht)
    unfold g2Finish at he
    split at he
    · next hd =>
      cases he; unfold chooseDims at hd
      split at hd; · cases hd
      split at hd; · cases hd
      simp only at hd
      split at hd <;> cases hd; decide
    · split at he
      · next hc =>
        cases he; unfold checkSize at hc; simp only at hc
        split at hc; · cases hc; decide
        split at hc <;> cases hc; decide
      · rw [(place_error (finish_error he)).2]; decide
  | g1Header =>
    simp only [fetchCtx, hp]
    split
    · next i r hi =>
      have hl := decode_length hi
      have hc := decode_ctx hi
      cases i <;> first | (exfalso; simp [Instr.ctx] at hc; done) | skip
      next w hh p =>
      refine settled _ (fun e he => ?_) (fun t ht => ?_)
      · unfold header at he
        split at he
        · next hd => cases he; rw [(dimension_error hd).2.2]; decide
        · split at he
          · next hd => cases he; rw [(dimension_error hd).2.2]; decide
          · cases he
      · obtain ⟨tw, th, h1, h2, rfl⟩ := header_eq_ok ht
        refine .header w hh p tw th hp ?_ h1 h2
        simp only [unread, bits, encode, List.length_append, natToBits_length] at hl; omega
    · next e he =>
      cases e with
      | truncated => exact stopped _ (by unfold shortHeaderFault; split; · decide
                                         split; · decide
                                         split <;> decide)
      | notPrefix =>
        exfalso
        simp only [fetch, decode, decodeHeader] at he
        repeat' (split at he <;> try cases he)
  | g1Init =>
    simp only [fetchCtx, hp]
    split
    · next i r hi =>
      have hl := decode_length hi
      have hc := decode_ctx hi
      simp only [unread, bits] at hl
      cases i <;> first | (exfalso; simp [Instr.ctx] at hc; done) | skip
      · exact moved _ (.init 0 hp (by simp only [encode, List.length_singleton] at hl; omega))
      · exact moved _ (.init 1 hp (by simp only [encode, List.length_singleton] at hl; omega))
    · next e he =>
      cases e with
      | truncated => exact stopped _ (by decide)
      | notPrefix => exfalso; simp only [fetch, decode, decodeInit] at he; split at he <;> cases he
  | g1Packet =>
    simp only [fetchCtx, hp]
    by_cases hst : s.g1State = 0
    · simp only [hst, if_true]
      split
      · next i r hi =>
        have hl := decode_length hi
        obtain ⟨k, v, hr, he⟩ := rle_is_run (decode_ctx hi)
        simp only [unread, bits] at hl
        rw [exec_runParts hr]
        refine settled _ (fun e hh => ?_) (fun t ht => ?_)
        · rw [(emitRun_error hh).2.2]; decide
        · unfold runElement at ht
          rcases emitRun_eq_ok ht with ⟨hle, rfl⟩ | ⟨hlt, -, rfl⟩
          · exact .run k _ hp (by omega) (by simp) (.inl hle)
          · refine .run k _ hp (by omega) (by simp) ?_
            simp only [advance_g1Total, advance_g1Emit]; omega
      · next e he =>
        cases e with
        | truncated => exact stopped _ (by decide)
        | notPrefix =>
          exfalso; simp only [fetch, decode, decodeRun] at he
          repeat' (split at he <;> try cases he)
    · simp only [hst, if_false]
      split
      · next i r hi =>
        have hl := decode_length hi
        obtain ⟨he, hh⟩ := data_is_pair (decode_ctx hi)
        simp only [unread, bits] at hl
        rcases hh with ⟨p, hx⟩ | hx
        · rw [hx]; exact moved _ (.pair p hp (by omega))
        · rw [hx]; exact moved _ (.switch hp (by omega))
      · next e he =>
        cases e with
        | truncated => exact stopped _ (by decide)
        | notPrefix => exfalso; simp only [fetch, decode, decodeData] at he; split at he <;> cases he
  | g1Mode =>
    simp only [fetchCtx, hp]
    split
    · next i r hi =>
      have hl := decode_length hi
      obtain ⟨m, n, hm, hn, he, hx⟩ := mode_is_mode (decode_ctx hi)
      simp only [unread, bits] at hl
      rw [hx]; exact moved _ (.mode m n hp hm hn (by omega))
    · next e he =>
      cases e with
      | truncated => exact stopped _ (by decide)
      | notPrefix => exfalso; simp only [fetch, decode, decodeMode] at he; split at he <;> cases he
  | g2Prefix =>
    simp only [fetchCtx, hp]
    split
    · next i r hi =>
      have hl := decode_length hi
      have hc := decode_ctx hi
      simp only [unread, bits] at hl
      cases i <;> first | (exfalso; simp [Instr.ctx] at hc; done) | skip
      next w hh c0 c1 c2 c3 =>
      refine settled _ (fun e he => ?_) (fun t ht => ?_)
      · unfold loadPfx at he
        split at he
        · next hd => cases he; rw [(dimension_error hd).2.2]; decide
        · split at he
          · next hd => cases he; rw [(dimension_error hd).2.2]; decide
          · cases he
      · obtain ⟨pw, ph, -, -, rfl⟩ := loadPfx_eq_ok ht
        refine .block pw ph _ hp ?_ (fetch_pfx_ok hi).2
        simp only [encode, List.length_append, natToBits_length] at hl; omega
    · next e he =>
      cases e with
      | truncated => exact stopped _ (by decide)
      | notPrefix => exact moved _ (.plain hp (fetch_pfx_notPrefix.mp he))
  | lzHeader =>
    simp only [fetchCtx, hp]
    split
    · next i r hi =>
      have hl := decode_length hi
      simp only [unread, bits] at hl
      rcases lz_is_command (decode_ctx hi) with ⟨f, hf⟩ | rfl | hx
      · obtain ⟨hx, -, -, hpos, hb, -⟩ := exec_lzForm hf s
        rw [hx]
        have hip : (headed f s).g2Ip ≤ (headed f s).srcLen := by simp only [headed]; omega
        refine settled _ (fun e he => ?_) (fun t ht => ?_)
        · generalize headed f s = u at he
          generalize f.cmd.toNat = c at he
          unfold lzBody at he
          split at he
          · rcases copyLiterals_error he with rfl | rfl <;> decide
          · unfold fillBody at he; split at he
            · next hu => cases he; rw [(nextByte_error hu).2]; decide
            · rw [appendAll_error he]; decide
          · unfold wfillBody at he; split at he
            · next hu => cases he; rw [(nextByte_error hu).2]; decide
            · split at he
              · next hu => cases he; rw [(nextByte_error hu).2]; decide
              · rw [appendAll_error he]; decide
          · rw [appendAll_error he]; decide
          all_goals
            unfold backReference at he; split at he
            · next hu =>
              cases he; unfold readStart at hu; split at hu
              · next hv => cases hu; rw [(nextByte_error hv).2]; decide
              · split at hu; · cases hu
                split at hu
                · next hv => cases hu; rw [(nextByte_error hv).2]; decide
                · cases hu
            · first | unfold repTransfer at he | unfold brevTransfer at he | unfold backTransfer at he
              split at he; · cases he; decide
              rw [appendAll_error he]; decide
        · obtain ⟨ip, b, bs, h1, h2, h3, rfl⟩ := lzBody_eq_ok ht hip
          exact .command f ip b bs hp (by omega) h1 h2 h3
      · exact moved _ (.stop hp (by simp only [encode, natToBits_length] at hl; omega))
      · rw [hx]; exact stopped _ (by decide)
    · next e he =>
      cases e with
      | truncated => exact stopped _ (by decide)
      | notPrefix =>
        exfalso; simp only [fetch, decode, decodeLz] at he
        repeat' (split at he <;> try cases he)
  | lzOperand =>
    simp only [fetchCtx, hp]
    split
    · next i r hi =>
      have hl := decode_length hi
      have hc := decode_ctx hi
      simp only [unread, bits] at hl
      cases i <;> first | (exfalso; simp [Instr.ctx] at hc; done) | skip
      · exact moved _ (.operand 1 _ hp (by omega) (by simp only [encode, List.length_append, natToBits_length] at hl; omega))
      · exact moved _ (.operand 2 _ hp (by omega) (by simp only [encode, List.length_append, natToBits_length] at hl; omega))
    · next e he =>
      cases e with
      | truncated => exact stopped _ (by decide)
      | notPrefix =>
        exfalso; simp only [fetch, decode, decodeAddr] at he
        repeat' (split at he <;> try cases he)

/-! ## The bound on a decode -/

/-- A bound on the passes a decode has left: every element takes at least one source bit, and three phases take none (R157, R194). -/
def passesLeft (s : State) : Nat :=
  match s.phase with
  | .idle => 0
  | .g1Header | .g1Init | .g1Packet | .g1Mode => 8 * s.srcLen - s.rdPos + 2
  | .g1Post | .g2Layout => 1
  | .g2Prefix => 8 * s.srcLen + 3
  | .lzHeader | .lzOperand => 8 * (s.srcLen - s.g2Ip) + 2
  | .lzCopy => 8 * (s.srcLen - s.g2Ip) + 3

/-- `RD_POS` is a matter of `RD_BYTE` and `RD_BIT` alone (R24). -/
theorem rdPos_congr {s t : State} (h : t.rdByte = s.rdByte) (h' : t.rdBit = s.rdBit) : t.rdPos = s.rdPos := by
  unfold State.rdPos; rw [h, h']

theorem passesLeft_after (s u : State) (n : Nat) (h : s.phase = .g1Init ∨ s.phase = .g1Packet) (hl : u.srcLen = s.srcLen) (hy : u.rdByte = (s.advance n).rdByte) (hz : u.rdBit = (s.advance n).rdBit)
    (hn : 1 ≤ n) (hb : s.rdPos + n ≤ 8 * s.srcLen) :
    passesLeft (afterElement u) < passesLeft s := by
  have e0 : u.rdPos = s.rdPos + n := by rw [rdPos_congr hy hz, rdPos_advance]
  have e1 : (afterElement u).rdPos = u.rdPos := rfl
  have e2 : (afterElement u).srcLen = s.srcLen := hl
  have h2 : passesLeft (afterElement u) ≤ 8 * s.srcLen - u.rdPos + 2 := by
    unfold passesLeft
    rw [e1, e2]
    have : (afterElement u).phase = .g1Packet ∨ (afterElement u).phase = .g1Mode ∨ (afterElement u).phase = .g1Post := by
      unfold afterElement; simp only; split; · simp
      split <;> simp
    rcases this with h | h | h <;> rw [h] <;> simp only <;> omega
  have h3 : passesLeft s = 8 * s.srcLen - s.rdPos + 2 := by
    unfold passesLeft; rcases h with h | h <;> rw [h]
  omega

/-- A decode that ends leaves the block idle (R150, R193). -/
theorem finish_idle {g : Bool} {a b : List Byte} {s t : State} (h : finish g a b s = .ok t) : t.phase = .idle := by
  obtain ⟨u, -, rfl⟩ := finish_eq_ok h; rfl

/-- Every move leaves fewer passes (R157, R194). -/
theorem Moves.passesLeft_lt {s t : State} (h : Moves s t) : passesLeft t < passesLeft s := by
  have hm : ∀ p, s.phase = p → passesLeft s = passesLeft { s with phase := p } := fun p hp => by rw [← hp]
  cases h with
  | header w h p tw th hp hb =>
    rw [hm _ hp]
    have : ∀ x : State, x.rdByte = (s.advance 9).rdByte → x.rdBit = (s.advance 9).rdBit → x.srcLen = s.srcLen → x.phase = .g1Init → passesLeft x < passesLeft { s with phase := .g1Header } := by
      intro x h1 h2 h3 h4
      unfold passesLeft; rw [h4, rdPos_congr h1 h2, rdPos_advance, h3]
      show _ < 8 * s.srcLen - s.rdPos + 2
      simp only; omega
    exact this _ rfl rfl rfl rfl
  | init b hp hb => exact passesLeft_after s _ 1 (.inl hp) rfl rfl rfl (by omega) hb
  | run k e hp hb => exact passesLeft_after s _ (2 * (k + 1)) (.inr hp) rfl rfl rfl (by omega) hb
  | pair p hp hb =>
    unfold pairElement
    refine passesLeft_after s _ 2 (.inr hp) ?_ ?_ ?_ (by omega) hb
    · simp only; split <;> rfl
    · simp only; split <;> rfl
    · simp only; split <;> rfl
  | switch hp hb => exact passesLeft_after s _ 2 (.inr hp) rfl rfl rfl (by omega) hb
  | mode m n hp _ hn hb =>
    rw [hm _ hp]
    have : ∀ x : State, x.rdByte = (s.advance n).rdByte → x.rdBit = (s.advance n).rdBit → x.srcLen = s.srcLen → x.phase = .g1Init → passesLeft x < passesLeft { s with phase := .g1Mode } := by
      intro x h1 h2 h3 h4
      unfold passesLeft; rw [h4, rdPos_congr h1 h2, rdPos_advance, h3]
      show _ < 8 * s.srcLen - s.rdPos + 2
      simp only; omega
    exact this _ rfl rfl rfl rfl
  | post t hp ht =>
    rw [hm _ hp]
    have : t.phase = .idle := by unfold g1Finish at ht; exact finish_idle ht
    unfold passesLeft; rw [this]; simp
  | plain hp _ => rw [hm _ hp]; simp [passesLeft]
  | block pw ph pal hp hb _ => rw [hm _ hp]; simp [passesLeft]; try omega
  | command f ip b bs hp h1 h2 h3 h4 => 
    rw [hm _ hp]
    have : (headed f s).phase = .lzHeader := hp
    simp only [passesLeft, this]
    show 8 * (s.srcLen - ip) + 2 < 8 * (s.srcLen - s.g2Ip) + 2
    omega
  | stop hp hb => rw [hm _ hp]; simp [passesLeft]
  | operand n b hp hn hb => rw [hm _ hp]; simp [passesLeft]; try omega
  | transfer bs hp => rw [hm _ hp]; simp [passesLeft]
  | layout t hp ht =>
    rw [hm _ hp]
    obtain ⟨_, _, _, _, _, _, h⟩ := g2Finish_eq_ok ht
    unfold passesLeft; rw [finish_idle h]; simp

/-- A fault, or a refusal other than `AFTER_FAULT`, leaves the block idle. -/
theorem stop_idle {e : Stop} {s : State} (h : e ≠ .refuse .afterFault) : (s.stop e).phase = .idle := by
  rcases e with k | r
  · rfl
  · cases r <;> first | rfl | exact absurd rfl h

end Machine

end Sys2Proof
end

