-- ==== Sys2Proof/Tests/Slice0.lean ====
section
/-! SUPPORT. Small tests. Every expected value is worked out from spec/, from the rule or the vector of 95_test_vectors.md that is
named. The last part shows, for each statement with hypotheses, states and operands that meet them. -/

namespace Sys2Proof.Tests

open Sys2Proof.Machine

/-! ## Helpers -/

/-- Bits written as 0 and 1. -/
def word (l : List Nat) : Bits := l.map (fun b => b == 1)

/-- Whether bits decode, whole, to an instruction. -/
def readsAs (c : Ctx) (bs : Bits) (i : Instr) : Bool :=
  match decode c bs with
  | .ok (j, rest) => j == i && rest == []
  | .error _ => false

/-- The state an outcome answers, if it is a next state. -/
def nextOf (r : Result) : Option State :=
  match r with
  | .next t => some t
  | _ => none

/-- The reset state with a source. -/
def loaded (bs : List Byte) : State := { State.reset with src := Memory.ofBytes 0 bs, srcLen := bs.length }

/-- A Gen2 decode at a command, with the output so far. -/
def lzAt (bs d : List Byte) : State := { loaded bs with phase := .lzHeader, bufD := d }

/-- The start of a plane of one tile column of `th` tiles. -/
def planeOf (tw th : BitVec 6) (emit : Nat) (st : BitVec 1) (cfg : BitVec 16) : State :=
  { State.reset with
    g1Tw := tw, g1Th := th, g1Total := tw.toNat * th.toNat * 32, g1Emit := emit, g1State := st, cfg := cfg
    bufB := List.replicate (tw.toNat * th.toNat * 8) 0, bufC := List.replicate (tw.toNat * th.toNat * 8) 0, phase := .g1Packet }

/-- The word of `ST` that an outcome leaves. -/
def statusOf (r : Result) : Option Nat := (nextOf r).map (fun t => t.st.word.toNat)

/-! ## Well-formedness -/

/-- R96, R118: the generic run row stands for 16 ones and more. -/
theorem test_wf_refuses_a_run_with_a_row_of_its_own : (Instr.g1RunN 15 0).wf = false := by decide

/-- R96: the suffix of `k` ones has `k + 1` bits. -/
theorem test_wf_refuses_a_suffix_too_wide : (Instr.g1RunN 16 131072).wf = false := by decide

/-- R96: the widest suffix of 16 ones. -/
theorem test_wf_accepts_the_widest_suffix : (Instr.g1RunN 16 131071).wf = true := by decide

/-! ## Decoding: words written out from 30_encoding.md -/

/-- Words of R92, R93. -/
theorem test_words_header :
    (readsAs .header (word [1, 1, 1, 1, 0, 0, 0, 1, 1]) (.g1Hdr 15 1 1) &&
    readsAs .header (word [0, 0, 1, 0, 0, 0, 1, 1, 0]) (.g1Hdr 2 3 0)) = true := by decide

/-- Words of R95. -/
theorem test_words_init :
    (readsAs .init (word [0]) (.g1InitRle) &&
    readsAs .init (word [1]) (.g1InitData)) = true := by decide

/-- Words of R96. -/
theorem test_words_run :
    (readsAs .rle (word [0, 1]) (.g1Run0 1) &&
    readsAs .rle (word [1, 0, 1, 0]) (.g1Run1 2) &&
    readsAs .rle (word [1, 1, 0, 1, 0, 1]) (.g1Run2 5) &&
    readsAs .rle (word [1, 1, 1, 0, 1, 0, 1, 1]) (.g1Run3 11) &&
    readsAs .rle (word [1, 1, 1, 1, 0, 1, 0, 1, 1, 0]) (.g1Run4 22) &&
    readsAs .rle (word [1, 1, 1, 1, 1, 0, 1, 0, 1, 1, 0, 1]) (.g1Run5 45) &&
    readsAs .rle (word [1, 1, 1, 1, 1, 1, 0, 1, 0, 1, 1, 0, 1, 1]) (.g1Run6 91) &&
    readsAs .rle (word [1, 1, 1, 1, 1, 1, 1, 0, 1, 0, 1, 1, 0, 1, 1, 1]) (.g1Run7 183) &&
    readsAs .rle (word [1, 1, 1, 1, 1, 1, 1, 1, 0, 1, 0, 1, 1, 0, 1, 1, 1, 0]) (.g1Run8 366) &&
    readsAs .rle (word [1, 1, 1, 1, 1, 1, 1, 1, 1, 0, 1, 0, 1, 1, 0, 1, 1, 1, 0, 1]) (.g1Run9 733) &&
    readsAs .rle (word [1, 1, 1, 1, 1, 1, 1, 1, 1, 1, 0, 1, 0, 1, 1, 0, 1, 1, 1, 0, 1, 1]) (.g1Run10 1467) &&
    readsAs .rle (word [1, 1, 1, 1, 1, 1, 1, 1, 1, 1, 1, 0, 1, 0, 1, 1, 0, 1, 1, 1, 0, 1, 1, 1]) (.g1Run11 2935) &&
    readsAs .rle (word [1, 1, 1, 1, 1, 1, 1, 1, 1, 1, 1, 1, 0, 1, 0, 1, 1, 0, 1, 1, 1, 0, 1, 1, 1, 1]) (.g1Run12 5871) &&
    readsAs .rle (word [1, 1, 1, 1, 1, 1, 1, 1, 1, 1, 1, 1, 1, 0, 1, 0, 1, 1, 0, 1, 1, 1, 0, 1, 1, 1, 1, 0]) (.g1Run13 11742) &&
    readsAs .rle (word [1, 1, 1, 1, 1, 1, 1, 1, 1, 1, 1, 1, 1, 1, 0, 1, 0, 1, 1, 0, 1, 1, 1, 0, 1, 1, 1, 1, 0, 1]) (.g1Run14 23485) &&
    readsAs .rle (word [1, 1, 1, 1, 1, 1, 1, 1, 1, 1, 1, 1, 1, 1, 1, 0, 1, 0, 1, 1, 0, 1, 1, 1, 0, 1, 1, 1, 1, 0, 1, 1]) (.g1Run15 46971) &&
    readsAs .rle (word [1, 1, 1, 1, 1, 1, 1, 1, 1, 1, 1, 1, 1, 1, 1, 1, 0, 1, 0, 0, 0, 0, 0, 0, 0, 0, 0, 0, 0, 0, 0, 0, 0, 1]) (.g1RunN 16 65537)) = true := by decide

/-- Words of R97. -/
theorem test_words_data :
    (readsAs .data (word [0, 1]) (.g1Pair1) &&
    readsAs .data (word [1, 0]) (.g1Pair2) &&
    readsAs .data (word [1, 1]) (.g1Pair3) &&
    readsAs .data (word [0, 0]) (.g1Switch)) = true := by decide

/-- Words of R98. -/
theorem test_words_mode :
    (readsAs .mode (word [0]) (.g1Mode0) &&
    readsAs .mode (word [1, 0]) (.g1Mode2) &&
    readsAs .mode (word [1, 1]) (.g1Mode3)) = true := by decide

/-- Words of R102. -/
theorem test_words_short :
    (readsAs .lz (word [0, 0, 0, 0, 0, 0, 0, 1]) (.lzCopy 1) &&
    readsAs .lz (word [0, 0, 1, 0, 0, 0, 0, 0]) (.lzFill 0) &&
    readsAs .lz (word [0, 1, 0, 0, 0, 1, 0, 0]) (.lzWFill 4) &&
    readsAs .lz (word [0, 1, 1, 0, 0, 0, 1, 1]) (.lzZero 3) &&
    readsAs .lz (word [1, 0, 0, 0, 0, 0, 0, 1]) (.lzRep 1) &&
    readsAs .lz (word [1, 0, 1, 0, 0, 0, 1, 0]) (.lzBRev 2) &&
    readsAs .lz (word [1, 1, 0, 1, 1, 1, 1, 1]) (.lzBack 31)) = true := by decide

/-- Words of R103, R107, R111. -/
theorem test_words_long :
    (readsAs .lz (word [1, 1, 1, 0, 0, 0, 0, 0, 0, 0, 0, 0, 0, 0, 0, 0]) (.lzCopyL 0) &&
    readsAs .lz (word [1, 1, 1, 0, 0, 1, 1, 1, 1, 1, 1, 1, 1, 1, 1, 1]) (.lzFillL 1023) &&
    readsAs .lz (word [1, 1, 1, 0, 1, 0, 0, 1, 0, 0, 0, 0, 0, 0, 0, 1]) (.lzWFillL 257) &&
    readsAs .lz (word [1, 1, 1, 0, 1, 1, 0, 0, 1, 1, 1, 1, 1, 1, 1, 1]) (.lzZeroL 255) &&
    readsAs .lz (word [1, 1, 1, 1, 0, 0, 1, 0, 0, 0, 0, 0, 0, 0, 0, 0]) (.lzRepL 512) &&
    readsAs .lz (word [1, 1, 1, 1, 0, 1, 0, 0, 0, 0, 0, 0, 0, 0, 0, 1]) (.lzBRevL 1) &&
    readsAs .lz (word [1, 1, 1, 1, 1, 0, 1, 1, 0, 0, 0, 0, 0, 0, 1, 0]) (.lzBackL 770) &&
    readsAs .lz (word [1, 1, 1, 1, 1, 1, 0, 1, 0, 0, 0, 0, 0, 0, 0, 1]) (.lzIll 257) &&
    readsAs .lz (word [1, 1, 1, 1, 1, 1, 1, 0, 0, 0, 0, 1, 0, 0, 1, 0]) (.lzIllFe 18) &&
    readsAs .lz (word [1, 1, 1, 1, 1, 1, 1, 1]) (.lzEnd)) = true := by decide

/-- Words of R105. -/
theorem test_words_addr :
    (readsAs .addr (word [1, 0, 0, 1, 1, 0, 0, 1]) (.lzAddrRel 25) &&
    readsAs .addr (word [0, 1, 1, 1, 1, 1, 1, 1, 1, 1, 1, 1, 1, 1, 1, 0]) (.lzAddrAbs 127 254)) = true := by decide

/-- Words of R101, R191. -/
theorem test_words_block :
    (readsAs .pfx (word [1, 1, 1, 1, 1, 1, 1, 1, 0, 0, 0, 1, 0, 0, 1, 0, 1, 1, 1, 1, 1, 1, 1, 1, 1, 1, 1, 1, 1, 1, 1, 1, 1, 1, 1, 1, 1, 1, 1, 1, 1, 0, 1, 0, 1, 0, 1, 0, 1, 0, 1, 0, 1, 0, 1, 1, 1, 0, 1, 0, 1, 1, 0, 0, 0, 1, 0, 1, 0, 1, 0, 1, 0, 1, 0, 1, 0, 1, 1, 0, 0, 1, 0, 1, 0, 1, 1, 1, 0, 0, 0, 0, 0, 0, 0, 0, 0, 0, 0, 0, 0, 0, 0, 0, 0, 0, 0, 0, 0, 0, 0, 1]) (.g2Prefix 1 2 0xFFFFFF 0xAAABAC 0x555657 1)) = true := by decide

/-- Words of R113. -/
theorem test_words_host :
    (readsAs .command (word [0, 0, 0, 0]) (.cmdReserved0) &&
    readsAs .command (word [0, 0, 0, 1]) (.reset) &&
    readsAs .command (word [0, 0, 1, 0]) (.bcOpen) &&
    readsAs .command (word [0, 0, 1, 1]) (.bcRead) &&
    readsAs .command (word [0, 1, 0, 0]) (.bcWrite) &&
    readsAs .command (word [0, 1, 0, 1]) (.bcFlush) &&
    readsAs .command (word [0, 1, 1, 0]) (.cmdReserved6) &&
    readsAs .command (word [0, 1, 1, 1]) (.cmdReserved7) &&
    readsAs .command (word [1, 0, 0, 0]) (.g1Decode) &&
    readsAs .command (word [1, 0, 0, 1]) (.g2Decode) &&
    readsAs .command (word [1, 0, 1, 0]) (.cmdReservedA) &&
    readsAs .command (word [1, 0, 1, 1]) (.cmdReservedB) &&
    readsAs .command (word [1, 1, 0, 0]) (.cmdReservedC) &&
    readsAs .command (word [1, 1, 0, 1]) (.cmdReservedD) &&
    readsAs .command (word [1, 1, 1, 0]) (.cmdReservedE) &&
    readsAs .command (word [1, 1, 1, 1]) (.cmdReservedF)) = true := by decide

/-- R108: an element cut short is not read, and bits of a source that does not start with `0xFF` are no block (R190). -/
theorem test_decode_rejects_by_name :
    decode .rle (word [1, 1]) = .error .truncated ∧ decode .lz (word [1, 1, 1, 0, 0, 0, 0, 0]) = .error .truncated ∧
    decode .pfx (word [0, 1, 1, 1, 1, 1, 1, 1]) = .error .notPrefix ∧ decode .pfx [] = .error .notPrefix ∧
    decode .pfx (word [1, 1, 1, 1, 1, 1, 1, 1]) = .error .truncated := ⟨rfl, rfl, rfl, rfl, rfl⟩

/-! ## One step: BitCursor -/

/-- V: R132 example, `SRC = [0xA5, 0x3C]`, five bits from bit 11 are `0b11100`. -/
theorem test_read_field :
    (nextOf (exec .bcRead { loaded [0xA5, 0x3C] with rdByte := 1, rdBit := 3, arg1 := 5 })).map (fun t => (t.res.toNat, t.rdByte, t.rdBit.toNat)) =
      some (28, 2, 0) := rfl

/-- R260: a read past the end is truncated-input, `ST = 0x0022`. -/
theorem test_read_past_end : statusOf (exec .bcRead { loaded [0xAB] with rdByte := 1, arg1 := 1 }) = some 0x22 := rfl

/-- R63, R50: a fault keeps the bytes emitted before it. -/
theorem test_fault_keeps_the_sink :
    (nextOf (exec .bcRead { State.reset with snk := [0xBF, 0x0F], arg1 := 1 })).map (fun t => t.snk.take 2) = some [0xBF, 0x0F] := rfl

/-- R135: `WriteBits(0x1FF, 9)` after three bits `101` emits `0xBF` and leaves `0b1111` pending. -/
theorem test_write_field :
    (nextOf (exec .bcWrite { State.reset with wrAcc := 0xA0, wrCnt := 3, arg0 := 0x1FF, arg1 := 9 })).map
      (fun t => (t.snk, t.wrAcc.toNat, t.wrCnt.toNat)) = some ([0xBF], 0xF0, 4) := rfl

/-- R136: an emission into a full sink is refused, `ST = 0x0184`. -/
theorem test_write_full :
    statusOf (exec .bcWrite { State.reset with wrCnt := 7, arg1 := 1, params := { Config.Params.default with snkCap := some 0 } }) = some 0x184 := rfl

/-- R137: the pending bits are emitted with low zeros. -/
theorem test_flush :
    (nextOf (exec .bcFlush { State.reset with snk := [0xBF], wrAcc := 0xF0, wrCnt := 4 })).map (fun t => (t.snk, t.wrCnt.toNat)) =
      some ([0xBF, 0xF0], 0) := rfl

/-- R259: pending bits are lost, the reader is at the start. -/
theorem test_open :
    (nextOf (exec .bcOpen { loaded [0x12] with rdByte := 1, wrAcc := 0xF0, wrCnt := 4, snk := [7] })).map
      (fun t => (t.rdByte, t.wrCnt.toNat, t.snk, t.srcLen)) = some (0, 0, [], 1) := rfl

/-! ## One step: commands -/

/-- R255: `RESET` after a fault gives `ST = 0x0000`. -/
theorem test_reset : statusOf (exec .reset ((loaded []).stop (.raise .truncatedInput))) = some 0 := rfl

/-- R283: any other command after a fault is refused; the kind of the fault stays, `ST = 0x0166`. -/
theorem test_after_fault : statusOf (exec .bcOpen ((loaded []).stop (.raise .truncatedInput))) = some 0x166 := rfl

/-- R253: a reserved code with a bad `ARG1` is `BAD_CMD`, `ST = 0x0044`. -/
theorem test_reserved : statusOf (step { State.reset with cmd := 0xC, arg1 := 31, issued := true }) = some 0x44 := rfl

/-- R254: a width of 17 is `BAD_WIDTH`, `ST = 0x0084`. -/
theorem test_bad_width : statusOf (exec .bcWrite { State.reset with arg1 := 17 }) = some 0x84 := rfl

/-- R256: an enabled override with height 0 is `BAD_OVERRIDE`, `ST = 0x00C4`. -/
theorem test_bad_override : statusOf (exec .g1Decode { loaded [0x11] with cfg := 0x14 }) = some 0xC4 := rfl

/-- R41: a `G2.DECODE` of a source without a 14-byte block that faults leaves `PAL` alone. -/
theorem test_fault_keeps_the_palette :
    (nextOf (exec .g2Decode { loaded [0x00] with pal := ⟨1, 2, 3, 4⟩ })).map (fun t => (t.pal, t.st.word.toNat)) = some (⟨1, 2, 3, 4⟩, 0x22) := rfl

/-- R251: between the write of `CMD` and the command's result the host sees nothing; the result is there after it. -/
theorem test_host_sees_results_only :
    hostRead .res (hostWriteCmd 3 { loaded [0xA5] with arg1 := 4 }) = none ∧
    (nextOf (hostCommand 3 { loaded [0xA5] with arg1 := 4 })).bind (hostRead .res) = some 0xA := ⟨rfl, rfl⟩

/-- R263 step 2, R62 (log entry 31): a shorter load leaves the byte above it in the memory, out of reach until `SRC_LEN` covers it. -/
theorem test_load_keeps_other_bytes :
    hostReadSrc 1 (hostLoad [7] (loaded [1, 2])) = none ∧ hostReadSrc 1 (hostWriteSrcLen 2 (hostLoad [7] (loaded [1, 2]))) = some 2 ∧
    hostReadSrc 0 (hostLoad [7] (loaded [1, 2])) = some 7 := ⟨rfl, rfl, rfl⟩

/-! ## One step: Gen1 -/

/-- S2: the header `0xF1` with primary buffer 1: 15 by 1 tiles, 480 pairs, 120 bytes. -/
theorem test_header :
    (nextOf (step { loaded [0xF1, 0x80] with phase := .g1Header })).map
      (fun t => (t.g1Tw.toNat, t.g1Th.toNat, t.g1Total, t.bufB.length, t.g1Cur.toNat, t.rdByte, t.rdBit.toNat)) =
      some (15, 1, 480, 120, 1, 1, 1) := rfl

/-- R279: strict, `SRC = [0x01]`: malformed-header before the next bit is missed, `ST = 0x000A`. -/
theorem test_header_zero_strict : statusOf (step { loaded [0x01] with phase := .g1Header }) = some 0x0A := rfl

/-- R156, R95: a leading 1 starts in state DATA. -/
theorem test_init : (nextOf (exec .g1InitData (planeOf 1 1 9 0 0))).map (fun t => (t.g1State.toNat, t.g1Emit, t.rdBit.toNat)) = some (1, 0, 1) := rfl

/-- R158 example: `1110 1110` is a run of 29. -/
theorem test_run : (nextOf (exec (.g1Run3 14) (planeOf 1 1 3 0 0))).map (fun t => (t.g1Emit, t.g1State.toNat, t.rdByte)) = some (32, 1, 1) := rfl

/-- R160 example: a run of 40 in a plane of 32 pairs, strict: overrun, `ST = 0x0012`; lenient: cut to 32. -/
theorem test_run_overrun :
    statusOf (exec (.g1Run4 9) (planeOf 1 1 0 0 0)) = some 0x12 ∧
    (nextOf (exec (.g1Run4 9) (planeOf 1 1 0 0 1))).map (fun t => (t.g1Emit, t.rdByte, t.rdBit.toNat)) = some (32, 1, 2) := ⟨rfl, rfl⟩

/-- R96: 16 ones: `R = 2^17 - 1 + V` overruns every plane. -/
theorem test_run_generic : statusOf (exec (.g1RunN 16 0) (planeOf 1 1 0 0 0)) = some 0x12 := by decide +kernel

/-- R161 examples: pair 7 of one tile is byte 7 bits 7:6, pair 31 byte 7 bits 1:0; two tiles wide, pair 32 is byte 8 bits 7:6. -/
theorem test_pair :
    (nextOf (exec .g1Pair2 (planeOf 1 1 7 1 0))).map (fun t => t.bufB) = some [0, 0, 0, 0, 0, 0, 0, 0x80] ∧
    (nextOf (exec .g1Pair3 (planeOf 1 1 31 1 0))).map (fun t => t.bufB) = some [0, 0, 0, 0, 0, 0, 0, 0x03] ∧
    (nextOf (exec .g1Pair1 (planeOf 2 1 32 1 0))).map (fun t => t.bufB.getD 8 0) = some 0x40 := ⟨rfl, rfl, rfl⟩

/-- R163: the switch emits nothing. -/
theorem test_switch : (nextOf (exec .g1Switch (planeOf 1 1 7 1 0))).map (fun t => (t.g1State.toNat, t.g1Emit, t.rdBit.toNat)) = some (0, 7, 2) := rfl

/-- R164: bits `11` are mode 3; R165: the other buffer is next. -/
theorem test_mode :
    (nextOf (step { loaded [0xC0] with phase := .g1Mode })).map (fun t => (t.g1Mode.toNat, t.g1Cur.toNat, t.rdBit.toNat)) = some (3, 1, 2) := rfl

/-- R168 examples: `0xC0` becomes `0x80`, `0x40` becomes `0x7F`; by row, the state of the first byte runs into the second. -/
theorem test_delta :
    (deltaSpanByte 0 [0xC0, 0x40]).1 = [0x80, 0x7F] ∧ (deltaSpanRow 2 1 0 [0x40, 0x40]).1 = [0x7F, 0x80] := ⟨rfl, rfl⟩

/-! ## One step: LZ3 -/

/-- S3. -/
theorem test_copy : (nextOf (step (lzAt [0x01, 0x10, 0x20, 0xFF] []))).map (fun t => (t.bufD, t.g2Ip)) = some ([0x10, 0x20], 3) := rfl

/-- S4. -/
theorem test_fill : (nextOf (step (lzAt [0x20, 0xAB, 0xFF] []))).map (fun t => (t.bufD, t.g2Ip)) = some ([0xAB], 2) := rfl

/-- R197 examples. -/
theorem test_wfill :
    (nextOf (step (lzAt [0x44, 0xAA, 0x55] []))).map (fun t => t.bufD) = some [0xAA, 0x55, 0xAA, 0x55, 0xAA] ∧
    (nextOf (step (lzAt [0x40, 0x41, 0x99] []))).map (fun t => (t.bufD, t.g2Ip)) = some ([0x41], 3) := ⟨rfl, rfl⟩

/-- S5. -/
theorem test_zero : (nextOf (step (lzAt [0x63, 0xFF] []))).map (fun t => (t.bufD, t.g2Ip)) = some ([0, 0, 0, 0], 1) := rfl

/-- R206 examples. -/
theorem test_rep :
    (nextOf (step (lzAt [0x81, 0x82] [1, 2, 3]))).map (fun t => t.bufD) = some [1, 2, 3, 1, 2] ∧
    statusOf (step (lzAt [0x80, 0x99] [0x41])) = some 0x1A := ⟨rfl, rfl⟩

/-- R207 example. -/
theorem test_brev : (nextOf (step (lzAt [0xA2, 0x82] [0x01, 0x80, 0x1E]))).map (fun t => t.bufD) = some [0x01, 0x80, 0x1E, 0x80, 0x01, 0x78] := rfl

/-- R208 examples. -/
theorem test_back :
    (nextOf (step (lzAt [0xC2, 0x80] [0x0A, 0x0B, 0x0C, 0x0D]))).map (fun t => t.bufD) = some [0x0A, 0x0B, 0x0C, 0x0D, 0x0D, 0x0C, 0x0B] ∧
    statusOf (step (lzAt [0xC2, 0x80] [0x0A, 0x0B])) = some 0x1A := ⟨rfl, rfl⟩

/-- R199: a long header with a short length means the same as the short one; the second byte is the low part. -/
theorem test_long_headers :
    (nextOf (step (lzAt [0xE0, 0x00, 0x77] []))).map (fun t => (t.bufD, t.g2Ip, t.g2Long.toNat)) = some ([0x77], 3, 1) ∧
    (nextOf (step (lzAt [0xE4, 0x01, 0x5A] []))).map (fun t => (t.bufD, t.g2Len)) = some ([0x5A, 0x5A], 2) ∧
    (nextOf (step (lzAt [0xE8, 0x02, 1, 2] []))).map (fun t => t.bufD) = some [1, 2, 1] ∧
    (nextOf (step (lzAt [0xEC, 0x02] []))).map (fun t => t.bufD) = some [0, 0, 0] ∧
    (nextOf (step (lzAt [0xF0, 0x01, 0x83] [1, 2, 3, 4]))).map (fun t => t.bufD) = some [1, 2, 3, 4, 1, 2] ∧
    (nextOf (step (lzAt [0xF4, 0x00, 0x00, 0x01] [1, 2]))).map (fun t => t.bufD) = some [1, 2, 0x40] ∧
    (nextOf (step (lzAt [0xF8, 0x01, 0x00, 0x01] [1, 2]))).map (fun t => t.bufD) = some [1, 2, 2, 1] :=
  ⟨rfl, rfl, rfl, rfl, rfl, rfl, rfl⟩

/-- R279: `[0xFD]` is truncated-input, `[0xFD, 0x00]` and `[0xFE, 0x12]` are malformed-header. -/
theorem test_nested_long_header :
    statusOf (step (lzAt [0xFD] [])) = some 0x22 ∧ statusOf (step (lzAt [0xFD, 0x00] [])) = some 0x0A ∧
    statusOf (step (lzAt [0xFE, 0x12] [])) = some 0x0A := ⟨rfl, rfl, rfl⟩

/-- R210: the terminator. -/
theorem test_end : (nextOf (step (lzAt [0xFF, 0x12] [5]))).map (fun t => (t.bufD, t.g2Ip)) = some ([5], 1) := rfl

/-- R203: the address operands on their own: relative 2 from three bytes is 0; `0x01 0x02` is 258. -/
theorem test_addresses :
    (nextOf (step { lzAt [0x82] [1, 2, 3] with phase := .lzOperand })).map (fun t => (t.g2Start, t.g2Ip)) = some (0, 1) ∧
    (nextOf (step { lzAt [0x01, 0x02] [] with phase := .lzOperand })).map (fun t => (t.g2Start, t.g2Ip)) = some (258, 2) := ⟨rfl, rfl⟩

/-- R191 example, R190: the block, 1 by 2 tiles. -/
theorem test_block :
    (nextOf (step { loaded [0xFF, 0x12, 0xFF, 0xFF, 0xFF, 0xAA, 0xAA, 0xAA, 0x55, 0x55, 0x55, 0, 0, 0] with phase := .g2Prefix })).map
      (fun t => (t.pal, t.g2Pw.toNat, t.g2Ph.toNat, t.g2Ip)) = some (⟨0xFFFFFF, 0xAAAAAA, 0x555555, 0⟩, 1, 2, 14) := rfl

/-- R236 example: plane bytes `0x1E` and `0x0F` give the indices `0 0 0 1 3 3 3 2`. -/
theorem test_pixels :
    (List.range 8).map (fun x => (pixelAt { State.reset with phH := 1, p0 := [0x1E], p1 := [0x0F] } x 0).toNat) = [0, 0, 0, 1, 3, 3, 3, 2] := rfl

/-- R212, R213: fifteen bytes have no whole tile, `ST = 0x0022`; seventeen are too many in strict mode, `ST = 0x0012`. -/
theorem test_layout :
    statusOf (step { lzAt [] (List.replicate 15 0) with phase := .g2Layout }) = some 0x22 ∧
    statusOf (step { lzAt [] (List.replicate 17 0) with phase := .g2Layout }) = some 0x12 := ⟨rfl, rfl⟩

/-- R231: one tile by two into a 1 by 1 override of a Gen1 decode is refused, `ST = 0x0104`. -/
theorem test_does_not_fit : statusOf (settle State.reset (finish true [] [] { State.reset with dlW := 1, dlH := 2, cfg := 0x114 })) = some 0x104 := rfl

/-! ## One step: whole decodes -/

/-- The source of program P1. -/
def p1 : List Byte := [0x11, 0x76, 0x3B, 0x8F, 0x04]

/-- P1: one tile, mode 0. -/
theorem test_g1_decode :
    (nextOf (exec .g1Decode (loaded p1))).map (fun t => (t.st.word.toNat, t.rdByte, t.rdBit.toNat, t.bufB, t.bufC)) =
      some (1, 4, 6, [0x80, 0x7F, 0xFF, 0, 0, 0, 0, 0], [0, 0, 0, 0, 0, 0, 0, 0]) := by decide +kernel

/-- P1, the first two rows of `PIX`. -/
theorem test_g1_decode_pixels :
    (nextOf (exec .g1Decode (loaded p1))).map (fun t => t.pix.take 16) = some [1, 0, 0, 0, 0, 0, 0, 0, 0, 1, 1, 1, 1, 1, 1, 1] := by decide +kernel

/-- The source of program P2. -/
def p2 : List Byte := [0x01, 0x1E, 0x0F, 0x43, 0x81, 0x42, 0x61, 0x81, 0x87, 0xA1, 0x00, 0x00, 0xC3, 0x80, 0xFF]

/-- P2: every class of LZ3 command, one tile. -/
theorem test_g2_decode :
    (nextOf (exec .g2Decode (loaded p2))).map (fun t => (t.st.word.toNat, t.g2Ip, t.g2Tw, t.g2Th, t.bufD)) =
      some (1, 15, 1, 1, [0x1E, 0x0F, 0x81, 0x42, 0x81, 0x42, 0, 0, 0x1E, 0x0F, 0x78, 0xF0, 0xF0, 0x78, 0x0F, 0x1E]) := by decide +kernel

/-- V69: a zero nibble of the block in strict mode, `ST = 0x000A`. -/
theorem test_g2_decode_zero_block :
    statusOf (exec .g2Decode (loaded [0xFF, 0x01, 0x10, 0x20, 0x30, 0x40, 0x50, 0x60, 0x70, 0x80, 0x90, 0xA0, 0xB0, 0xC0, 0x2F, 0xFF, 0xFF])) =
      some 0x0A := by decide +kernel

/-! ## Witnesses: the hypotheses of the statements can be met, each clause at a boundary -/

/-- O1: instructions that are well-formed, the generic run at both ends of its suffix. -/
theorem witness_encodings : (Instr.g1RunN 16 0).wf = true ∧ (Instr.g1RunN 16 131071).wf = true ∧ Instr.lzEnd.wf = true := by decide

/-- O2, O54: bits that decode, with bits left over. -/
theorem witness_decodes : decode .data (word [1, 0, 1]) = .ok (.g1Pair2, [true]) := rfl

/-- O3: the first and the last byte of every row of the first-byte map. -/
theorem witness_first_bytes :
    ([(0x00, 0x1F), (0x20, 0x3F), (0x40, 0x5F), (0x60, 0x7F), (0x80, 0x9F), (0xA0, 0xBF), (0xC0, 0xDF), (0xE0, 0xE3), (0xE4, 0xE7), (0xE8, 0xEB),
      (0xEC, 0xEF), (0xF0, 0xF3), (0xF4, 0xF7), (0xF8, 0xFB), (0xFC, 0xFD), (0xFE, 0xFE), (0xFF, 0xFF)] : List (Byte × Byte)).all
      (fun p => decide (p.1.toNat ≤ p.2.toNat)) = true := by decide

/-- O5: the shortest runs, of 1 and of 3 pairs. -/
theorem witness_run_lengths :
    decode .rle [false, false] = .ok (.g1Run0 0, []) ∧ runParts (.g1Run0 0) = some (0, 0) ∧ runLength 0 0 = 1 ∧
    decode .rle [true, false, false, false] = .ok (.g1Run1 0, []) ∧ runParts (.g1Run1 0) = some (1, 0) ∧ runLength 1 0 = 3 :=
  ⟨rfl, rfl, rfl, rfl, rfl, rfl⟩

/-- A capacity that is unbounded leaves room. -/
theorem room_of_none {s : State} (h : s.params.dCap = none) (n : Nat) : room s n := fun c hc => by rw [h] at hc; cases hc

/-- A source memory that is unbounded holds every source. -/
theorem fits_of_none {s : State} (h : s.params.srcCap = none) : sourceFits s := fun c hc => by rw [h] at hc; cases hc

/-- O7: a field of 16 bits that ends with the source, no bits at its end, and one bit past it. -/
theorem witness_bcRead :
    ∃ a b c : State, (∀ s ∈ [a, b, c], s.st.stuck = false ∧ sourceFits s ∧ s.arg1.toNat ≤ 16) ∧ a.rdPos + a.arg1.toNat = 8 * a.srcLen ∧ a.arg1 = 16 ∧
      b.arg1 = 0 ∧ b.rdPos = 8 * b.srcLen ∧ c.arg1 ≠ 0 ∧ 8 * c.srcLen + 1 = c.rdPos + c.arg1.toNat :=
  ⟨{ loaded [1, 2, 3] with rdByte := 1, arg1 := 16 }, { loaded [1] with rdByte := 1 }, { loaded [1] with rdByte := 1, arg1 := 1 },
    by intro s hs; simp only [List.mem_cons, List.not_mem_nil, or_false] at hs
       rcases hs with rfl | rfl | rfl <;> exact ⟨rfl, fits_of_none rfl, by decide⟩,
    rfl, rfl, rfl, rfl, by decide, rfl⟩

/-- O8: two fields of 4 bits. -/
theorem witness_fields : ∃ t u, readBits 4 (loaded [0xA5]) = .ok (0xA, t) ∧ readBits 4 t = .ok (5, u) := ⟨_, _, rfl, rfl⟩

/-- A writer with room for `c` bytes. -/
def writer (c : Nat) (cnt : BitVec 3) (n : BitVec 5) : State :=
  { State.reset with wrCnt := cnt, arg1 := n, params := { Config.Params.default with snkCap := some c } }

/-- O9, O10: a write that completes no byte, one that completes one and just fits, one that does not fit; flushes likewise. -/
theorem witness_writer :
    (∀ c cnt n, (writer c cnt n).st.stuck = false ∧ writerClean (writer c cnt n)) ∧
    ((writer 0 0 7).wrCnt.toNat + (writer 0 0 7).arg1.toNat) / 8 = 0 ∧
    ((writer 1 1 7).wrCnt.toNat + (writer 1 1 7).arg1.toNat) / 8 = 1 ∧ sinkRoom (writer 1 1 7) 1 ∧
    ((writer 0 1 7).wrCnt.toNat + (writer 0 1 7).arg1.toNat) / 8 = 1 ∧ ¬sinkRoom (writer 0 1 7) 1 :=
  ⟨fun c cnt n => ⟨rfl, fun i _ => by simp [writer, State.reset]⟩, rfl, rfl, fun c hc => by cases hc; decide, rfl,
    fun h => absurd (h 0 rfl) (by decide)⟩

/-- O11, O13, O15, O16, O17, O23: the reset state is not stuck. -/
theorem witness_not_stuck : State.reset.st.stuck = false := rfl

/-- O12: three fields, 17 bits, and a sink of exactly three bytes. -/
theorem witness_symmetry :
    (∀ p ∈ [((5 : Nat), (3 : Nat)), (0x1FF, 9), (0, 5)], p.1 < 2 ^ p.2) ∧
    ((([((5 : Nat), (3 : Nat)), (0x1FF, 9), (0, 5)].map Prod.snd).sum + 7) / 8 ≤ 3) := by decide

/-- O14, O20: stuck states, with a fault and with a refusal. -/
theorem witness_stuck :
    (State.reset.stop (.raise .overrun)).st.stuck = true ∧ (State.reset.stop (.raise .overrun)).st.err = true ∧
    (State.reset.stop (.refuse .badCmd)).st.refused = true := ⟨rfl, rfl, rfl⟩

/-- O17: a source one byte too long, a width of 17, an override with a zero. -/
theorem witness_prologue :
    ¬sourceFits { loaded [1] with params := { Config.Params.default with srcCap := some 0 } } ∧
    16 < ({ State.reset with arg1 := 17 } : State).arg1.toNat ∧ ¬overrideOk { State.reset with cfg := 0x0104 } :=
  ⟨fun h => absurd (h 0 rfl) (by decide), by decide, fun h => absurd (h rfl).1 (by decide)⟩

/-- O20, O21: an instruction other than `RESET` that answers a next state, outside a `G2.DECODE`. -/
theorem witness_exec : (∃ t, exec .bcOpen State.reset = .next t) ∧ State.reset.phase.inG2 = false := ⟨⟨_, rfl⟩, rfl⟩

/-- O21, the clauses on `PAL`: a command inside a decode without a 14-byte block, and a whole decode of such a source. -/
theorem witness_palette_untouched :
    PaletteUntouched State.reset ∧ (PaletteUntouched (lzAt [0x60] []) ∧ ∃ t, exec (.lzZero 0) (lzAt [0x60] []) = .next t) ∧
    (loaded p2).srcLen ≠ 0 ∧ (loaded p2).srcByte 0 ≠ 0xFF :=
  ⟨.inl rfl, ⟨.inr rfl, _, rfl⟩, by decide, by decide⟩

/-- O22, O59, O60: decodes that are accepted and end without a fault, and one that faults. -/
theorem witness_decodes_end :
    (nextOf (exec .g1Decode (loaded p1))).map (fun t => t.st.stuck) = some false ∧
    (nextOf (exec .g2Decode (loaded p2))).map (fun t => t.st.stuck) = some false ∧
    (nextOf (exec .g1Decode (loaded []))).map (fun t => (t.st.err, t.st.refused)) = some (true, false) := by decide +kernel

/-- O23: two states that agree on the inputs of a decode and differ elsewhere, one with `DONE` set by an earlier decode. -/
theorem witness_same_inputs :
    ∃ s s' : State, s.st.done ≠ s'.st.done ∧ s.rdByte ≠ s'.rdByte ∧ s.st.stuck = false ∧ s'.st.stuck = false ∧ s'.st.errKind = s.st.errKind ∧
      s'.st.refReason = s.st.refReason ∧ s'.srcLen = s.srcLen ∧ (∀ a, a < s.srcLen → s'.srcByte a = s.srcByte a) ∧
      s'.cfg = s.cfg ∧ s'.pal = s.pal ∧ s'.params = s.params :=
  ⟨loaded p1, { loaded p1 with rdByte := 3, snk := [1], g1Emit := 5, st := ⟨true, false, false, 0, 0⟩ }, by decide, by decide, rfl, rfl, rfl, rfl,
    rfl, fun _ _ => rfl, rfl, rfl, rfl⟩

/-- O24: the host's turn, with `DONE` clear and with `DONE` set; a command issued and a decode under way, when it is not. -/
theorem witness_host_turn :
    hostTurn State.reset = true ∧ State.reset.st.done = false ∧ hostTurn { State.reset with st := ⟨true, false, false, 0, 0⟩ } = true ∧
    hostTurn (hostWriteCmd 8 State.reset) = false ∧ hostTurn (lzAt [] []) = false := by decide

/-- O25, O51: dimensions that the policies accept (15, and 0 as 32) and reject. -/
theorem witness_dimensions : dimValue false 15 = some 15 ∧ dimValue true 0 = some 32 ∧ dimValue false 0 = none := by decide

/-- O26: headers of 8 and of 0 bits left. -/
theorem witness_short_header :
    ∃ a b : State, a.phase = .g1Header ∧ 8 * a.srcLen + 1 = a.rdPos + 9 ∧ b.phase = .g1Header ∧ 8 * b.srcLen + 9 = b.rdPos + 9 :=
  ⟨{ loaded [0x01] with phase := .g1Header }, { loaded [] with phase := .g1Header }, rfl, rfl, rfl, rfl⟩

/-- O28: a run that fills the plane exactly. O29: one pair too long, in both policies. -/
theorem witness_runs :
    runParts (.g1Run3 14) = some (3, 14) ∧ (planeOf 1 1 3 0 0).g1Emit + (2 ^ 4 - 1 + 14) = (planeOf 1 1 3 0 0).g1Total ∧
    (planeOf 1 1 4 0 0).g1Emit + (2 ^ 4 - 1 + 14) = (planeOf 1 1 4 0 0).g1Total + 1 ∧ (planeOf 1 1 4 0 0).lenient = false ∧
    (planeOf 1 1 4 0 1).lenient = true := by decide

/-- O30, O32: a pair and a mode. -/
theorem witness_pair_and_mode : pairValue .g1Pair3 = some 3 ∧ modeParts .g1Mode0 = some (0, 1) := by decide

/-- O31: the first and the last pair of a plane of 2 by 1 tiles, its last pixel. -/
theorem witness_pairs : (List.replicate 16 (0 : Byte)).length = 2 * 1 * 8 ∧ 0 < 2 * 1 * 32 ∧ 63 < 2 * 1 * 32 ∧ 15 < 8 * 2 ∧ 7 < 8 * 1 := by decide

/-- O33: an element of every place that completes. -/
theorem witness_elements :
    (nextOf (exec (.g1Hdr 1 1 0) (loaded [0x11, 0]))).map (fun t => t.st.stuck) = some false ∧
    (nextOf (exec .g1InitRle (planeOf 1 1 0 0 0))).map (fun t => t.st.stuck) = some false ∧
    (nextOf (exec (.g1Run0 0) (planeOf 1 1 0 0 0))).map (fun t => t.st.stuck) = some false ∧
    (nextOf (exec .g1Pair1 (planeOf 1 1 0 1 0))).map (fun t => t.st.stuck) = some false ∧
    (nextOf (exec .g1Mode0 (planeOf 1 1 0 0 0))).map (fun t => t.st.stuck) = some false := ⟨rfl, rfl, rfl, rfl, rfl⟩

/-- O34: a long header without its second byte, and a 14-byte block of which one byte is there. -/
theorem witness_cut_short :
    (fetchCtx (lzAt [0xE0] []) = some .lz ∧ ∀ i : Instr, i.wf = true → i.ctx = .lz → ¬encode i <+: unread .lz (lzAt [0xE0] [])) ∧
    (let s : State := { loaded [0xFF] with phase := .g2Prefix }
     fetchCtx s = some .pfx ∧ 0 < s.srcLen ∧ s.srcByte 0 = 0xFF ∧ ∀ i : Instr, i.wf = true → i.ctx = .pfx → ¬encode i <+: unread .pfx s) := by
  have e : unread .lz (lzAt [0xE0] []) = [true, true, true, false, false, false, false, false] := rfl
  refine ⟨⟨rfl, fun i _ hc hp => ?_⟩, rfl, by decide, rfl, fun i _ hc hp => ?_⟩
  · rw [e] at hp
    cases i <;> simp [Instr.ctx] at hc <;> simp [encode, encodeShort, encodeLong, natToBits, Config.lzTerm] at hp <;>
      first | exact absurd hp.1 (by decide) | exact absurd hp.2.1 (by decide)
  · have hl := hp.length_le.trans_eq (show _ = 8 from rfl)
    cases i <;> simp [Instr.ctx] at hc
    simp [encode, natToBits] at hl

/-- O35: a plane of 2 by 1 tiles and its last pixel. O37: a plane one tile wide. -/
theorem witness_planes :
    (planeOf 2 1 0 0 0).bufB.length = (planeOf 2 1 0 0 0).g1Tw.toNat * ((planeOf 2 1 0 0 0).g1Th.toNat * 8) ∧ 15 < 8 * (planeOf 2 1 0 0 0).g1Tw.toNat ∧
    7 < 8 * (planeOf 2 1 0 0 0).g1Th.toNat ∧ (planeOf 1 1 0 0 0).bufB.length = 8 := by decide

/-- O38 to O41: the operands that end with the source, and one byte fewer. -/
theorem witness_fills :
    lzForm (.lzCopy 1) = some ⟨0, 2, 1, 0⟩ ∧ lzForm (.lzFillL 1) = some ⟨1, 2, 2, 1⟩ ∧ lzForm (.lzWFill 0) = some ⟨2, 1, 1, 0⟩ ∧
    lzForm (.lzZeroL 1023) = some ⟨3, 1024, 2, 1⟩ ∧ room (lzAt [] []) 1024 ∧
    (lzAt [1, 0x10, 0x20] []).g2Ip + 1 + 2 = (lzAt [1, 0x10, 0x20] []).srcLen ∧ (lzAt [1, 0x10] []).srcLen + 1 = (lzAt [1, 0x10] []).g2Ip + 1 + 2 :=
  ⟨rfl, rfl, rfl, rfl, room_of_none rfl _, rfl, rfl⟩

/-- O42, O43: a range that ends with the output; O44: a walk that ends at index 0. -/
theorem witness_back_references :
    lzForm (.lzRep 1) = some ⟨4, 2, 1, 0⟩ ∧ lzForm (.lzBRev 1) = some ⟨5, 2, 1, 0⟩ ∧ lzForm (.lzBack 1) = some ⟨6, 2, 1, 0⟩ ∧
    operandLen (lzAt [0x81, 0x81] [1, 2]) 1 = 1 ∧ operandStart (lzAt [0x81, 0x81] [1, 2]) 1 = 0 ∧
    operandLen (lzAt [0xC1, 0x00, 0x01] [1, 2]) 1 = 2 ∧ operandStart (lzAt [0xC1, 0x00, 0x01] [1, 2]) 1 = 1 := by decide +kernel

set_option maxRecDepth 8000 in
/-- O45: a missing address byte; a start one below 0 and one just past the output; a range one too long; a walk one too long. -/
theorem witness_bad_references :
    (lzAt [0x80, 0x00] []).srcLen < 1 + operandLen (lzAt [0x80, 0x00] []) 1 ∧ operandStart (lzAt [0x80, 0x81] [1]) 1 = -1 ∧
    operandStart (lzAt [0x80, 0x00, 0x01] [1]) 1 = 1 ∧ operandStart (lzAt [0x81, 0x80] [1]) 1 + 2 = 1 + 1 ∧
    operandStart (lzAt [0xC1, 0x80] [1]) 1 - (2 - 1) = -1 := by decide +kernel

set_option maxRecDepth 8000 in
/-- O46: an output of one byte with two to append, for a command without and one with a back-reference. -/
theorem witness_full_output :
    let s : State := { lzAt [0x81, 0x80] [1, 2] with params := { Config.Params.default with dCap := some 3 } }
    ¬room s 2 ∧ 1 + operandBytes ⟨3, 2, 1, 0⟩ s 1 ≤ s.srcLen ∧ 1 + operandBytes ⟨4, 2, 1, 0⟩ s 1 ≤ s.srcLen ∧ operandStart { s with src := Memory.ofBytes 0 [0x81, 0x81] } 1 = 0 :=
  ⟨fun h => absurd (h 3 rfl) (by decide), by decide, by decide, rfl⟩

set_option maxRecDepth 8000 in
/-- O49: an address operand on its own and then its transfer. -/
theorem witness_operand_then_transfer :
    ∃ t u, step { headed ⟨4, 2, 1, 0⟩ (lzAt [0x81, 0x82] [1, 2, 3]) with phase := .lzOperand } = .next t ∧ t.st.stuck = false ∧
      step t = .next u ∧ u.st.stuck = false ∧ u.bufD = [1, 2, 3, 1, 2] := ⟨_, _, rfl, rfl, rfl, rfl, rfl⟩

/-- O50: a command that completes. -/
theorem witness_command_completes : ∃ t, exec (.lzFill 1) (lzAt [0x21, 0xAB] [1]) = .next t ∧ t.st.stuck = false := ⟨_, rfl, rfl⟩

/-- O52: layouts by override, by block and by inference (a single column), one byte short and one byte long. -/
theorem witness_layouts :
    (∃ s : State, s.phase = .g2Layout ∧ s.ovrEn = true ∧ s.ovrW = 1 ∧ s.ovrH = 1 ∧ s.bufD.length + 1 = 1 * 1 * 16) ∧
    (∃ s : State, s.phase = .g2Layout ∧ s.ovrEn = false ∧ s.g2Pfx = 1 ∧ s.g2Pw = 1 ∧ s.g2Ph = 1 ∧ 1 * 1 * 16 + 1 = s.bufD.length ∧ s.lenient = false) ∧
    (∃ s : State, s.phase = .g2Layout ∧ s.ovrEn = false ∧ s.g2Pfx = 0 ∧ s.bufD.length = 15) ∧
    (∃ s : State, s.phase = .g2Layout ∧ s.ovrEn = false ∧ s.g2Pfx = 0 ∧ s.bufD.length = 17 ∧ s.params.wf = true ∧ s.lenient = false ∧
      (shapeOf s.params.shapeTable (s.bufD.length / 16)).getD (1, s.bufD.length / 16) = (1, 1)) :=
  ⟨⟨{ State.reset with phase := .g2Layout, cfg := 0x114, bufD := List.replicate 15 0 }, rfl, rfl, rfl, rfl, rfl⟩,
    ⟨{ State.reset with phase := .g2Layout, g2Pfx := 1, g2Pw := 1, g2Ph := 1, bufD := List.replicate 17 0 }, rfl, rfl, rfl, rfl, rfl, rfl, rfl⟩,
    ⟨{ State.reset with phase := .g2Layout, bufD := List.replicate 15 0 }, rfl, rfl, rfl, rfl⟩,
    ⟨{ State.reset with phase := .g2Layout, bufD := List.replicate 17 0 }, rfl, rfl, rfl, rfl, rfl, rfl, rfl⟩⟩

/-- O53: an image of the physical size, and one tile higher than it. -/
theorem witness_placement :
    (∃ s : State, (List.replicate 8 (0 : Byte)).length = s.dlW * s.dlH * 8 ∧ s.dlW = 1 ∧ s.dlH = 1 ∧ physicalSize true s s.dlW s.dlH = (1, 1)) ∧
    (∃ s : State, (List.replicate 16 (0 : Byte)).length = s.dlW * s.dlH * 8 ∧ s.dlW = 1 ∧ s.dlH = 2 ∧ physicalSize true s s.dlW s.dlH = (1, 1)) :=
  ⟨⟨{ State.reset with dlW := 1, dlH := 1, cfg := 0x114 }, rfl, rfl, rfl, rfl⟩, ⟨{ State.reset with dlW := 1, dlH := 2, cfg := 0x114 }, rfl, rfl, rfl, rfl⟩⟩

/-- O54: a command to take, and none. -/
theorem witness_issue :
    fetchCtx (lzAt [0xFF] []) = some .lz ∧ ({ State.reset with issued := true } : State).phase = .idle ∧ State.reset.issued = false := ⟨rfl, rfl, rfl⟩

/-- O56, O59, O60: the prologue accepts a decode. -/
theorem witness_accepted (bs : List Byte) : decodeAccepted (loaded bs) := ⟨rfl, fits_of_none rfl, fun h => absurd h (by simp [loaded, State.ovrEn, State.reset])⟩

/-- A `G1.DECODE` at its header, one source byte. -/
def atHeader : State := { loaded [0x11] with phase := .g1Header }

/-- O58: a state inside a decode has the invariant, and a step from it answers a next state. -/
theorem witness_invariant : Inv atHeader ∧ ∃ t, step atHeader = .next t :=
  ⟨{ memory := rfl
     errKind := by decide
     refReason := by decide
     cfg := by decide
     done := fun h => absurd h (by decide)
     decoding := fun _ => ⟨rfl, rfl⟩
     live := fun _ =>
       { reader := by decide
         writer := fun i _ => by simp [atHeader, loaded, State.reset]
         mode := by decide
         dims := ⟨.inl (by decide), .inl (by decide)⟩
         budget := by decide
         start := fun _ => rfl
         packet := fun h => absurd h (by decide)
         planes := by decide
         cursor := by decide
         result := fun h => absurd h (by decide) } }, _, rfl⟩

/-- The parts of P1 as a stream. -/
def stream1 : Gen1Stream :=
  ⟨1, 1, 0, 1, [.g1Pair3, .g1Pair1, .g1Pair2, .g1Switch, .g1Run3 14], .g1Mode0, 0, [.g1Run4 1]⟩

/-- O59: P1 is a stream with two padding bits, its elements fill both planes, and it fits. -/
theorem witness_gen1_stream :
    (loaded p1).bitsFrom 0 = stream1.bits ++ [false, false] ∧ (stream1.plane1 ++ stream1.plane2).all Instr.wf = true ∧
    dimValue false 1 = some 1 ∧ modeParts stream1.mode = some (0, 1) ∧
    (planePairs false 1 32 stream1.plane1).isSome = true ∧ (planePairs false 0 32 stream1.plane2).isSome = true ∧
    physicalSize true (loaded p1) 1 1 = (1, 1) := by decide +kernel

/-- The parts of P2 as a stream. -/
def stream2 : Gen2Stream :=
  ⟨none, [⟨.lzCopy 1, [0x1E, 0x0F]⟩, ⟨.lzWFill 3, [0x81, 0x42]⟩, ⟨.lzZero 1, []⟩, ⟨.lzRep 1, [0x87]⟩, ⟨.lzBRev 1, [0, 0]⟩, ⟨.lzBack 3, [0x80]⟩]⟩

/-- O60: P2 is a stream, its commands all apply and give one tile. -/
theorem witness_gen2_stream :
    (loaded p2).bitsFrom 0 = stream2.bits ++ [] ∧ (lzRun stream2.items []).map List.length = some 16 ∧
    declaredSize (loaded p2) none 16 = some (1, 1) ∧ physicalSize false (loaded p2) 1 1 = (1, 1) := by decide +kernel

end Sys2Proof.Tests
end

/-! PROOFS. The command `RESET` (10_state.md R47; 44_host_commands.md R253, R255): the prologue accepts it in every state, so it
always takes the block to `State.afterReset`. -/

namespace Sys2Proof.Machine

/-- The code of `RESET` is let through before any other test is made, so also after a fault or a refusal (R253, R283). -/
@[simp] theorem prologue_reset (s : State) : prologue 0x1 s = none := if_pos rfl

/-- `RESET` is never refused (R255). -/
@[simp] theorem exec_reset (s : State) : exec .reset s = .next s.afterReset :=
  command_of_none (prologue_reset s)

/-- With every field of `ST` clear the host reads 0: bits 15:10 have no field (R44). -/
@[simp] theorem Status.word_cleared : Status.word ⟨false, false, false, 0, 0⟩ = 0 := by decide

/-- Settles O15: the prologue accepts `RESET`, and the state it gives is `State.reset` in every register of R47's table. -/
theorem resetGivesTheResetValues : Obligations.ResetGivesTheResetValues := by
  intro s
  refine ⟨s.afterReset, exec_reset s, ?_⟩
  simp only [State.afterReset, State.reset, Status.word_cleared, and_self]

end Sys2Proof.Machine

/-! PROOFS. The delta-decode of a plane (41_gen1_decode.md R168): a byte decodes to the parity of its own pixels, a pixel row to that
of the row, and the rows of a plane do not touch each other. -/

namespace Sys2Proof.Machine

/-! ## The parity of pixels of a row -/

/-- The parity `p` carried over the `n` pixels of row `y` that begin at pixel `a`; `rowParity` starts it at even. -/
def runningParity (plane : List Byte) (rows y a n : Nat) (p : Bool) : Bool :=
  (List.range n).foldl (fun p j => p ^^ planeBit plane rows (a + j) y) p

theorem rowParity_eq_runningParity (plane : List Byte) (rows a x y : Nat) :
    rowParity plane rows a x y = runningParity plane rows y a (x + 1 - a) false := rfl

@[simp] theorem runningParity_zero (plane : List Byte) (rows y a : Nat) (p : Bool) : runningParity plane rows y a 0 p = p := rfl

theorem runningParity_add (plane : List Byte) (rows y a m n : Nat) (p : Bool) :
    runningParity plane rows y a (m + n) p = runningParity plane rows y (a + m) n (runningParity plane rows y a m p) := by
  simp only [runningParity, List.range_add, List.foldl_append, List.foldl_map, Nat.add_assoc]

/-- The parity depends on the pixels it runs over only. -/
theorem runningParity_congr {plane plane' : List Byte} {rows y a n : Nat} (p : Bool)
    (h : ∀ x, planeBit plane rows x y = planeBit plane' rows x y) :
    runningParity plane rows y a n p = runningParity plane' rows y a n p := by
  simp only [runningParity, h]

/-! ## One byte in a plane -/

/-- Tile column `t` of pixel row `y` is one byte of the plane, its leftmost pixel at bit 7 (R161). -/
theorem planeBit_byte (plane : List Byte) (rows t y k : Nat) (hk : k < 8) :
    planeBit plane rows (8 * t + k) y = (plane.getD (t * rows + y) 0).getLsbD (7 - k) := by
  rw [planeBit, show (8 * t + k) / 8 = t by omega, show (8 * t + k) % 8 = k by omega]

/-- The parity over a byte's bits from its high end is the parity over the pixels it holds. -/
theorem foldl_byte_eq_runningParity (plane : List Byte) (rows t y n : Nat) (hn : n ≤ 8) (p : Bool) :
    (List.range n).foldl (fun p j => p ^^ (plane.getD (t * rows + y) 0).getLsbD (7 - j)) p =
      runningParity plane rows y (8 * t) n p :=
  List.foldl_ext _ _ _ fun p j hj => by
    have hj : j < n := List.mem_range.mp hj
    rw [planeBit_byte plane rows t y j (by omega)]

theorem deltaByte_bit_plane (d : BitVec 1) (plane : List Byte) (rows t y k : Nat) (hk : k < 8) :
    (deltaByte d (plane.getD (t * rows + y) 0)).1.getLsbD (7 - k) = runningParity plane rows y (8 * t) (k + 1) (d.getLsbD 0) := by
  rw [deltaByte_bit d _ k hk, foldl_byte_eq_runningParity plane rows t y (k + 1) hk]

theorem deltaByte_state_plane (d : BitVec 1) (plane : List Byte) (rows t y : Nat) :
    (deltaByte d (plane.getD (t * rows + y) 0)).2.getLsbD 0 = runningParity plane rows y (8 * t) 8 (d.getLsbD 0) := by
  rw [deltaByte_state, foldl_byte_eq_runningParity plane rows t y 8 (le_refl 8)]

/-- The byte of tile column `t` and row `y` lies inside a plane of `w` tile columns. -/
theorem byteIndex_lt {w rows t y : Nat} (ht : t < w) (hy : y < rows) : t * rows + y < w * rows :=
  calc t * rows + y < (t + 1) * rows := by rw [Nat.succ_mul]; omega
    _ ≤ w * rows := Nat.mul_le_mul_right _ ht

/-- Different places of a plane are different bytes. -/
theorem byteIndex_inj {rows t y t' y' : Nat} (hy : y < rows) (hy' : y' < rows) (h : t * rows + y = t' * rows + y') : t = t' ∧ y = y' := by
  have row : ∀ {t y : Nat}, y < rows → (t * rows + y) % rows = y := fun hy => by
    rw [Nat.mul_add_mod_self_right, Nat.mod_eq_of_lt hy]
  have e : y = y' := by rw [← row (t := t) hy, h, row hy']
  exact ⟨Nat.eq_of_mul_eq_mul_right (show 0 < rows by omega) (by omega), e⟩

/-! ## `DELTA_SPAN = BYTE` -/

/-- Every byte on its own: the parity runs from the byte's left edge. -/
theorem planeBit_deltaSpanByte (d : BitVec 1) (buf : List Byte) (w rows x y : Nat) (hl : buf.length = w * rows)
    (hx : x < 8 * w) (hy : y < rows) :
    planeBit (deltaSpanByte d buf).1 rows x y = rowParity buf rows (x / 8 * 8) x y := by
  have hi : x / 8 * rows + y < buf.length := hl ▸ byteIndex_lt (by omega) hy
  have hb : (deltaSpanByte d buf).1.getD (x / 8 * rows + y) 0 = (deltaByte 0 (buf.getD (x / 8 * rows + y) 0)).1 := by
    simp [deltaSpanByte, List.getD_eq_getElem?_getD, hi]
  rw [planeBit, hb, deltaByte_bit_plane 0 buf rows _ y _ (Nat.mod_lt x (by omega)), rowParity_eq_runningParity,
    show x + 1 - x / 8 * 8 = x % 8 + 1 by omega, Nat.mul_comm 8]
  rfl

/-! ## `DELTA_SPAN = ROW`: one byte -/

theorem deltaAt_state (rows y t : Nat) (acc : List Byte × BitVec 1) :
    (deltaAt rows y acc t).2.getLsbD 0 = runningParity acc.1 rows y (8 * t) 8 (acc.2.getLsbD 0) :=
  deltaByte_state_plane acc.2 acc.1 rows t y

theorem planeBit_deltaAt_same (rows y t k : Nat) (acc : List Byte × BitVec 1) (hi : t * rows + y < acc.1.length) (hk : k < 8) :
    planeBit (deltaAt rows y acc t).1 rows (8 * t + k) y = runningParity acc.1 rows y (8 * t) (k + 1) (acc.2.getLsbD 0) := by
  have hb : (deltaAt rows y acc t).1.getD (t * rows + y) 0 = (deltaByte acc.2 (acc.1.getD (t * rows + y) 0)).1 := by
    simp [deltaAt, List.getD_eq_getElem?_getD, hi]
  rw [planeBit_byte _ rows t y k hk, hb, deltaByte_bit_plane acc.2 acc.1 rows t y k hk]

theorem planeBit_deltaAt_other (rows y t x y' : Nat) (acc : List Byte × BitVec 1) (hy : y < rows) (hy' : y' < rows)
    (h : ¬(x / 8 = t ∧ y' = y)) :
    planeBit (deltaAt rows y acc t).1 rows x y' = planeBit acc.1 rows x y' := by
  have hne : t * rows + y ≠ x / 8 * rows + y' := fun e => by
    obtain ⟨ht, hyy⟩ := byteIndex_inj hy hy' e
    exact h ⟨ht.symm, hyy.symm⟩
  simp only [planeBit, deltaAt, List.getD_eq_getElem?_getD, List.getElem?_set_ne hne]

/-! ## `DELTA_SPAN = ROW`: one pixel row -/

/-- The first `n` tile columns of row `y` of the plane `buf` are decoded, and nothing else of it is changed; `DS` is the parity of
their pixels. -/
structure RowDecoded (buf : List Byte) (rows y n : Nat) (acc : List Byte × BitVec 1) : Prop where
  length : acc.1.length = buf.length
  state : acc.2.getLsbD 0 = runningParity buf rows y 0 (8 * n) false
  decoded : ∀ x, x < 8 * n → planeBit acc.1 rows x y = runningParity buf rows y 0 (x + 1) false
  right : ∀ x, 8 * n ≤ x → planeBit acc.1 rows x y = planeBit buf rows x y
  others : ∀ x y', y' < rows → y' ≠ y → planeBit acc.1 rows x y' = planeBit buf rows x y'

theorem RowDecoded.start (buf : List Byte) (rows y : Nat) : RowDecoded buf rows y 0 (buf, 0) where
  length := rfl
  state := by simp
  decoded := fun x hx => absurd hx (by omega)
  right := fun _ _ => rfl
  others := fun _ _ _ _ => rfl

/-- The parity over a run of pixels to the right of the decoded columns is still that of `buf`. -/
theorem RowDecoded.carry {buf : List Byte} {rows y n : Nat} {acc : List Byte × BitVec 1} (h : RowDecoded buf rows y n acc) (m : Nat) :
    runningParity acc.1 rows y (8 * n) m (acc.2.getLsbD 0) = runningParity buf rows y 0 (8 * n + m) false := by
  rw [runningParity_add, ← h.state, Nat.zero_add]
  simp only [runningParity, h.right _ (Nat.le_add_right _ _)]

theorem RowDecoded.succ {buf : List Byte} {rows y n w : Nat} {acc : List Byte × BitVec 1} (hl : buf.length = w * rows) (hn : n < w)
    (hy : y < rows) (h : RowDecoded buf rows y n acc) : RowDecoded buf rows y (n + 1) (deltaAt rows y acc n) where
  length := (deltaAt_length rows y acc n).trans h.length
  state := by rw [deltaAt_state, h.carry, Nat.mul_succ]
  decoded := fun x hx => by
    by_cases hxn : x < 8 * n
    · rw [planeBit_deltaAt_other rows y n x y acc hy hy (by omega), h.decoded x hxn]
    · obtain ⟨k, rfl⟩ := Nat.exists_eq_add_of_le (Nat.le_of_not_lt hxn)
      have hi : n * rows + y < acc.1.length := by rw [h.length, hl]; exact byteIndex_lt hn hy
      rw [planeBit_deltaAt_same rows y n k acc hi (by omega), h.carry, Nat.add_assoc]
  right := fun x hx => by
    rw [planeBit_deltaAt_other rows y n x y acc hy hy (by omega), h.right x (by omega)]
  others := fun x y' hy' hne => by
    rw [planeBit_deltaAt_other rows y n x y' acc hy hy' (by omega), h.others x y' hy' hne]

theorem rowDecoded_foldl (buf : List Byte) {rows y w : Nat} (hl : buf.length = w * rows) (hy : y < rows) (n : Nat) (hn : n ≤ w) :
    RowDecoded buf rows y n ((List.range n).foldl (deltaAt rows y) (buf, 0)) := by
  induction n with
  | zero => exact RowDecoded.start buf rows y
  | succ n ih =>
    rw [List.range_succ, List.foldl_append]
    exact (ih (by omega)).succ hl hn hy

/-! ## `DELTA_SPAN = ROW`: the plane -/

/-- The first `n` pixel rows of the plane `buf`, `w` tiles wide, are decoded and the others are not yet changed. -/
structure PlaneDecoded (buf : List Byte) (w rows n : Nat) (plane : List Byte) : Prop where
  length : plane.length = buf.length
  decoded : ∀ x y, x < 8 * w → y < n → planeBit plane rows x y = runningParity buf rows y 0 (x + 1) false
  below : ∀ x y, n ≤ y → y < rows → planeBit plane rows x y = planeBit buf rows x y

theorem PlaneDecoded.succ {buf plane : List Byte} {w rows n : Nat} (hl : buf.length = w * rows) (hn : n < rows)
    (h : PlaneDecoded buf w rows n plane) :
    PlaneDecoded buf w rows (n + 1) ((List.range w).foldl (deltaAt rows n) (plane, 0)).1 := by
  have hr := rowDecoded_foldl plane (h.length.trans hl) hn w (le_refl w)
  refine ⟨hr.length.trans h.length, fun x y hx hy => ?_, fun x y hy hyr => ?_⟩
  · by_cases e : y = n
    · subst e
      rw [hr.decoded x hx, runningParity_congr false fun x => h.below x y (le_refl y) hn]
    · rw [hr.others x y (by omega) e, h.decoded x y hx (by omega)]
  · rw [hr.others x y hyr (by omega), h.below x y (by omega) hyr]

theorem planeDecoded_foldl (buf : List Byte) (d : BitVec 1) {w rows : Nat} (hl : buf.length = w * rows) (n : Nat) (hn : n ≤ rows) :
    PlaneDecoded buf w rows n
      ((List.range n).foldl (fun acc y => (List.range w).foldl (deltaAt rows y) (acc.1, 0)) (buf, d)).1 := by
  induction n with
  | zero => exact ⟨rfl, fun x y _ hy => absurd hy (by omega), fun _ _ _ _ => rfl⟩
  | succ n ih =>
    rw [List.range_succ, List.foldl_append]
    exact (ih (by omega)).succ hl hn

/-- Every pixel row on its own: the parity runs from the row's left edge. -/
theorem planeBit_deltaSpanRow (d : BitVec 1) (buf : List Byte) (w rows x y : Nat) (hl : buf.length = w * rows)
    (hx : x < 8 * w) (hy : y < rows) :
    planeBit (deltaSpanRow w rows d buf).1 rows x y = rowParity buf rows 0 x y :=
  (planeDecoded_foldl buf d hl rows (le_refl rows)).decoded x y hx hy

/-- Settles O35: by the value of `DELTA_SPAN`, either every byte or every pixel row is decoded on its own. -/
theorem deltaDecodeIsTheRunningParity : Obligations.DeltaDecodeIsTheRunningParity := by
  intro s buf x y hl hx hy
  have hy : y < s.g1Th.toNat * 8 := by omega
  unfold deltaDecode spanStart
  cases s.params.deltaSpan with
  | byte => exact planeBit_deltaSpanByte s.ds buf _ _ x y hl hx hy
  | row => exact planeBit_deltaSpanRow s.ds buf _ _ x y hl hx hy

end Sys2Proof.Machine

/-! PROOFS. The four LZ3 commands without a back-reference (42_gen2_lz3.md R195 to R198): a command row runs its body on the state with
its header taken, and with room in `D` a body stops only where an operand byte is missing. -/

namespace Sys2Proof.Machine

/-! ## A command row and its body -/

/-- `raise` leaves what R271, R45, R50 and R63 say of every fault. -/
theorem faulted_stop_raise (k : ErrKind) (s : State) : Faulted k.code s (s.stop (.raise k)) :=
  ⟨rfl, ⟨rfl, rfl, rfl, rfl, rfl, rfl, rfl, rfl⟩, snk_prefix_afterFault s, rfl⟩

theorem settle_truncated (s : State) : ∃ t, settle s (.error (.raise .truncatedInput)) = .next t ∧ Faulted 4 s t :=
  ⟨_, rfl, faulted_stop_raise .truncatedInput s⟩

/-- The body of a command row is chosen by its command number alone, whether the header is short or long (R194). -/
theorem exec_of_cmd {i : Instr} {f : LzForm} {c : BitVec 3} (h : lzForm i = some f) (hc : f.cmd = c) (s : State) :
    exec i s = settle s (lzBody c.toNat (headed f s)) :=
  hc ▸ (exec_lzForm h s).1

/-- No command has length 0: the header stores the length less one (R102, R103). -/
theorem lzForm_len_pos {i : Instr} {f : LzForm} (h : lzForm i = some f) : 0 < f.len := by
  obtain ⟨-, hlen, -⟩ := exec_lzForm h State.reset
  exact hlen

/-! ## The bodies, with room in `D` -/

/-- With room for the bytes of a command, a run of that many appends completes (R201). -/
theorem appendAll_room {s : State} {vs : List Byte} {n : Nat} (hr : room s n) (hl : vs.length = n) :
    appendAll vs s = .ok { s with bufD := s.bufD ++ vs } :=
  appendAll_fits (hl ▸ hr)

theorem zeroBody_fits {s : State} (hr : room s s.g2Len) :
    zeroBody s = .ok { s with bufD := s.bufD ++ List.replicate s.g2Len 0 } :=
  appendAll_room hr List.length_replicate

theorem copyBody_fits {s : State} (hr : room s s.g2Len) (h : s.g2Ip + s.g2Len ≤ s.srcLen) :
    copyBody s = .ok { s with g2Ip := s.g2Ip + s.g2Len, bufD := s.bufD ++ srcBytes s s.g2Ip s.g2Len } :=
  (copyLiterals_fits s.g2Len s hr).trans (if_pos (.inr h))

theorem copyBody_trunc {s : State} (hr : room s s.g2Len) (hpos : 0 < s.g2Len) (h : s.srcLen < s.g2Ip + s.g2Len) :
    copyBody s = .error (.raise .truncatedInput) :=
  (copyLiterals_fits s.g2Len s hr).trans (if_neg (by omega))

theorem fillBody_fits {s : State} (hr : room s s.g2Len) (h : s.g2Ip < s.srcLen) :
    fillBody s = .ok { s with g2Ip := s.g2Ip + 1, bufD := s.bufD ++ List.replicate s.g2Len (s.srcByte s.g2Ip) } := by
  unfold fillBody
  rw [nextByte_of_lt h]
  exact appendAll_room hr List.length_replicate

theorem fillBody_trunc {s : State} (h : s.srcLen ≤ s.g2Ip) : fillBody s = .error (.raise .truncatedInput) := by
  unfold fillBody
  rw [nextByte_trunc h]

theorem alternate_length (v w : Byte) (n : Nat) : (alternate v w n).length = n := by
  simp [alternate]

theorem wfillBody_fits {s : State} (hr : room s s.g2Len) (h : s.g2Ip + 1 < s.srcLen) :
    wfillBody s = .ok { s with g2Ip := s.g2Ip + 2
                               bufD := s.bufD ++ alternate (s.srcByte s.g2Ip) (s.srcByte (s.g2Ip + 1)) s.g2Len } := by
  unfold wfillBody
  rw [nextByte_of_lt (by omega : s.g2Ip < s.srcLen)]
  dsimp only
  rw [nextByte_of_lt (s := { s with g2Ip := s.g2Ip + 1 }) h]
  exact appendAll_room hr (alternate_length _ _ _)

/-- The second operand byte is fetched for every length, so a source that ends after the first is cut short (R197). -/
theorem wfillBody_trunc {s : State} (h : s.srcLen ≤ s.g2Ip + 1) : wfillBody s = .error (.raise .truncatedInput) := by
  unfold wfillBody
  by_cases h1 : s.g2Ip < s.srcLen
  · rw [nextByte_of_lt h1]
    dsimp only
    rw [nextByte_trunc (s := { s with g2Ip := s.g2Ip + 1 }) h]
  · rw [nextByte_trunc (by omega)]

/-! ## The obligations -/

/-- Settles O38: the literals are taken one by one, and since the length is not 0 a source that ends before the last of them faults. -/
theorem copyAppendsLiterals : Obligations.CopyAppendsLiterals := by
  intro i f s h hc hr a
  have hx : exec i s = settle s (copyBody (headed f s)) := exec_of_cmd h hc s
  constructor
  · intro hl
    rw [hx, copyBody_fits (s := headed f s) hr hl]
    rfl
  · intro hl
    rw [hx, copyBody_trunc (s := headed f s) hr (lzForm_len_pos h) hl]
    exact settle_truncated s

/-- Settles O39: one operand byte is fetched before anything is appended. -/
theorem fillRepeatsAByte : Obligations.FillRepeatsAByte := by
  intro i f s h hc hr a
  have hx : exec i s = settle s (fillBody (headed f s)) := exec_of_cmd h hc s
  constructor
  · intro hl
    rw [hx, fillBody_fits (s := headed f s) hr hl]
    rfl
  · intro hl
    rw [hx, fillBody_trunc (s := headed f s) hl]
    exact settle_truncated s

/-- Settles O40: both operand bytes are fetched before anything is appended, also when the length is 1. -/
theorem wordFillAlternates : Obligations.WordFillAlternates := by
  intro i f s h hc hr a
  have hx : exec i s = settle s (wfillBody (headed f s)) := exec_of_cmd h hc s
  constructor
  · intro hl
    rw [hx, wfillBody_fits (s := headed f s) hr hl]
    rfl
  · intro hl
    rw [hx, wfillBody_trunc (s := headed f s) hl]
    exact settle_truncated s

/-- Settles O41: the body fetches nothing, and room in `D` is all it needs. -/
theorem zeroFillAppendsZeros : Obligations.ZeroFillAppendsZeros := by
  intro i f s h hc hr
  have hx : exec i s = settle s (zeroBody (headed f s)) := exec_of_cmd h hc s
  rw [hx, zeroBody_fits (s := headed f s) hr]
  rfl

end Sys2Proof.Machine

/-! PROOFS. The host commands of the bit cursor (44_host_commands.md R259 to R262): the prologue lets them through, and what is left is
the reader's and the writer's own law; a write or a flush is refused exactly where an emission finds no room in the sink. -/

namespace Sys2Proof.Machine

/-! ## The prologue lets the command through -/

theorem sourceTooLong_of_fits {s : State} (h : sourceFits s) : sourceTooLong s = false := by
  unfold sourceTooLong
  split
  · rfl
  · next c hc => exact decide_eq_false (Nat.not_lt.2 (h c hc))

/-- `BC.OPEN` and `BC.FLUSH` are tested for an earlier stop only (R253). -/
theorem prologue_openFlush {c : BitVec 4} {s : State} (hc : c = 0x2 ∨ c = 0x5) (h : s.st.stuck = false) : prologue c s = none := by
  rcases hc with rfl | rfl <;> simp [prologue, reservedCode, h]

theorem fieldMax_not_lt {s : State} (hn : s.arg1.toNat ≤ 16) : decide (Config.fieldMax < s.arg1.toNat) = false :=
  decide_eq_false (Nat.not_lt.2 hn)

/-- A field of at most 16 bits is not too wide (R254). -/
theorem prologue_bcWrite {s : State} (h : s.st.stuck = false) (hn : s.arg1.toNat ≤ 16) : prologue 0x4 s = none := by
  simp [prologue, reservedCode, h, fieldMax_not_lt hn]

/-- `BC.READ` is tested for the length of the source too (R252). -/
theorem prologue_bcRead {s : State} (h : s.st.stuck = false) (hs : sourceFits s) (hn : s.arg1.toNat ≤ 16) : prologue 0x3 s = none := by
  simp [prologue, reservedCode, h, sourceTooLong_of_fits hs, fieldMax_not_lt hn]

theorem exec_bcOpen {s : State} (h : s.st.stuck = false) : exec .bcOpen s = .next (openCursors s) :=
  command_of_none (body := fun s => .next (openCursors s)) (prologue_openFlush (.inl rfl) h)

theorem exec_bcFlush {s : State} (h : s.st.stuck = false) : exec .bcFlush s = settle s (flush s) :=
  command_of_none (body := fun s => settle s (flush s)) (prologue_openFlush (.inr rfl) h)

theorem exec_bcWrite {s : State} (h : s.st.stuck = false) (hn : s.arg1.toNat ≤ 16) : exec .bcWrite s = settle s (writeField s) :=
  command_of_none (body := fun s => settle s (writeField s)) (prologue_bcWrite h hn)

theorem exec_bcRead {s : State} (h : s.st.stuck = false) (hs : sourceFits s) (hn : s.arg1.toNat ≤ 16) :
    exec .bcRead s = settle s (readField s) :=
  command_of_none (body := fun s => settle s (readField s)) (prologue_bcRead h hs hn)

/-! ## Refusals -/

/-- `refuse` leaves what R280 and R45 say of every refusal. -/
theorem refused_stop_refuse (r : RefReason) (s : State) : Refused r.code s (s.stop (.refuse r)) := by
  refine ⟨stop_refuse_st r s, ?_⟩
  simp only [SameInputs, stop_refuse_src, stop_refuse_srcDraw, stop_refuse_srcLen, stop_refuse_cfg, stop_refuse_cmd, stop_refuse_arg0,
    stop_refuse_arg1, stop_refuse_params, and_self]

theorem settle_capacity (s : State) : ∃ t, settle s (.error (.refuse .capacity)) = .next t ∧ Refused 6 s t :=
  ⟨_, rfl, refused_stop_refuse .capacity s⟩

/-! ## Emission and the capacity of the sink -/

/-- The test that `Emit` makes is the one for room for one more byte (R136). -/
theorem full_snk_iff (s : State) : full s.params.snkCap s.snkLen = true ↔ ¬sinkRoom s 1 := by
  unfold full sinkRoom
  split
  · next h => simp [h]
  · next c h =>
    rw [decide_eq_true_iff]
    simp [h, State.snkLen]

theorem emit_room {s : State} (v : Byte) (h : sinkRoom s 1) : emit v s = .ok { s with snk := s.snk ++ [v] } :=
  if_neg fun hf => (full_snk_iff s).1 hf h

theorem emit_full {s : State} (v : Byte) (h : ¬sinkRoom s 1) : emit v s = .error (.refuse .capacity) :=
  if_pos ((full_snk_iff s).2 h)

/-- One byte emitted takes one from the room that is left. -/
theorem sinkRoom_emitted (s : State) (v a : Byte) (c : BitVec 3) (n : Nat) :
    sinkRoom { s with snk := s.snk ++ [v], wrAcc := a, wrCnt := c } n ↔ sinkRoom s (n + 1) := by
  simp only [sinkRoom, List.length_append, List.length_singleton, Nat.add_assoc, Nat.add_comm 1 n]

/-! ## One bit: before the last of a byte, and the last -/

theorem writeBit_pending {s : State} (b : Bool) (h : s.wrCnt ≠ 7) :
    writeBit b s = .ok { s with wrAcc := s.accWith b, wrCnt := s.wrCnt + 1 } :=
  if_neg h

theorem writeBit_last_room {s : State} (b : Bool) (h : s.wrCnt = 7) (hr : sinkRoom s 1) :
    writeBit b s = .ok { s with snk := s.snk ++ [s.accWith b], wrAcc := 0, wrCnt := 0 } := by
  rw [writeBit, if_pos h, emit_room _ hr]

theorem writeBit_last_full {s : State} (b : Bool) (h : s.wrCnt = 7) (hr : ¬sinkRoom s 1) :
    writeBit b s = .error (.refuse .capacity) := by
  rw [writeBit, if_pos h, emit_full _ hr]

theorem wrCnt_succ {s : State} (h : s.wrCnt ≠ 7) : (s.wrCnt + 1).toNat = s.wrCnt.toNat + 1 := by
  bv_omega

/-! ## A field: when it is written and when it is refused -/

/-- A write that completes no byte does not look at the capacity of the sink (R135). -/
theorem writeBits_params (p : Config.Params) (v : Nat) {n : Nat} {s : State} (h : s.wrCnt.toNat + n < 8) :
    writeBits v n { s with params := p } = (writeBits v n s).map fun t => { t with params := p } := by
  induction n generalizing s with
  | zero => rfl
  | succ n ih =>
    have h7 : s.wrCnt ≠ 7 := by bv_omega
    have hn : (s.wrCnt + 1).toNat + n < 8 := by rw [wrCnt_succ h7]; omega
    rw [writeBits, writeBits, writeBit_pending (s := { s with params := p }) _ h7, writeBit_pending _ h7]
    exact ih (s := { s with wrAcc := s.accWith _, wrCnt := s.wrCnt + 1 }) hn

/-- `writeBits_spec` also where the sink holds more than its capacity, as long as no byte is emitted: the write then goes as with an
unbounded sink. -/
theorem writeBits_appends (v n : Nat) (s : State) (hc : writerClean s)
    (hr : (s.wrCnt.toNat + n) / 8 = 0 ∨ sinkRoom s ((s.wrCnt.toNat + n) / 8)) :
    ∃ t, writeBits v n s = .ok t ∧ t = { s with snk := t.snk, wrAcc := t.wrAcc, wrCnt := t.wrCnt } ∧
      writtenBits t = writtenBits s ++ natToBits n v ∧ t.snkLen = s.snkLen + (s.wrCnt.toNat + n) / 8 ∧
      t.wrCnt.toNat = (s.wrCnt.toNat + n) % 8 ∧ s.snk <+: t.snk ∧ writerClean t := by
  rcases hr with h0 | hr
  · have hlt : s.wrCnt.toNat + n < 8 := by omega
    obtain ⟨t, ht, hframe, hbits, hlen, hcnt, hpre, hclean⟩ :=
      writeBits_spec v n { s with params := { s.params with snkCap := none } } hc (fun _ h => nomatch h)
    have hs := writeBits_params s.params v (s := { s with params := { s.params with snkCap := none } }) hlt
    rw [ht] at hs
    exact ⟨{ t with params := s.params }, hs, by rw [hframe], hbits, hlen, hcnt, hpre, hclean⟩
  · exact writeBits_spec v n s hc hr

/-- A write with more bytes to emit than the sink has room for is refused at the first that does not fit (R135, R136). -/
theorem writeBits_full (v n : Nat) (s : State) (hk : (s.wrCnt.toNat + n) / 8 ≠ 0) (hr : ¬sinkRoom s ((s.wrCnt.toNat + n) / 8)) :
    writeBits v n s = .error (.refuse .capacity) := by
  induction n generalizing s with
  | zero => exact absurd hk (by have := s.wrCnt.isLt; omega)
  | succ n ih =>
    rw [writeBits]
    by_cases h7 : s.wrCnt = 7
    · by_cases h1 : sinkRoom s 1
      · have hk' : (s.wrCnt.toNat + (n + 1)) / 8 = n / 8 + 1 := by rw [h7]; simp; omega
        rw [hk'] at hr
        have hn : n / 8 ≠ 0 := fun h0 => hr (by rwa [h0])
        rw [writeBit_last_room _ h7 h1]
        exact ih _ (by simpa using hn) (by simpa [sinkRoom_emitted] using hr)
      · rw [writeBit_last_full _ h7 h1]
    · have hk' : (s.wrCnt + 1).toNat + n = s.wrCnt.toNat + (n + 1) := by rw [wrCnt_succ h7]; omega
      rw [writeBit_pending _ h7]
      rw [← hk'] at hk hr
      exact ih _ hk hr

/-! ## `ReadBits` into `RES`, and `Flush` -/

/-- The reader's law (R132), with the field written by the weights of its bits (R91). -/
theorem readField_fits {s : State} (h : s.arg1 = 0 ∨ s.rdPos + s.arg1.toNat ≤ 8 * s.srcLen) :
    readField s = .ok { s.advance s.arg1.toNat with
      res := .ofNat 16 (∑ i ∈ Finset.range s.arg1.toNat, (s.srcBit (s.rdPos + i)).toNat * 2 ^ (s.arg1.toNat - 1 - i)) } := by
  have hn : s.arg1.toNat = 0 ∨ s.rdPos + s.arg1.toNat ≤ 8 * s.srcLen := h.imp_left (congrArg BitVec.toNat)
  rw [readField, readBits_spec, if_pos hn, bitsToNat_srcBits]

theorem readField_trunc {s : State} (h0 : s.arg1 ≠ 0) (h : 8 * s.srcLen < s.rdPos + s.arg1.toNat) :
    readField s = .error (.raise .truncatedInput) := by
  have hn : s.arg1.toNat ≠ 0 := fun hz => h0 (BitVec.eq_of_toNat_eq hz)
  rw [readField, readBits_spec, if_neg (by omega)]

theorem flush_empty {s : State} (h : s.wrCnt = 0) : flush s = .ok s := if_pos h

theorem flush_room {s : State} (h : s.wrCnt ≠ 0) (hr : sinkRoom s 1) :
    flush s = .ok { s with snk := s.snk ++ [s.wrAcc], wrAcc := 0, wrCnt := 0 } := by
  rw [flush, if_neg h, emit_room _ hr]

theorem flush_full {s : State} (h : s.wrCnt ≠ 0) (hr : ¬sinkRoom s 1) : flush s = .error (.refuse .capacity) := by
  rw [flush, if_neg h, emit_full _ hr]

/-! ## The obligations -/

/-- Settles O7: the field is there unless it has a bit and ends past the source. -/
theorem bcReadReturnsTheField : Obligations.BcReadReturnsTheField := by
  intro s hst hs hn
  rw [exec_bcRead hst hs hn]
  constructor
  · intro h
    rw [readField_fits h, settle_ok]
  · intro h0 h
    rw [readField_trunc h0 h]
    exact settle_truncated s

/-- Settles O9: the write appends where every byte it completes fits, and else is refused. -/
theorem bcWriteAppendsTheField : Obligations.BcWriteAppendsTheField := by
  intro s hst hn hc k
  rw [exec_bcWrite hst hn, writeField]
  constructor
  · intro hr
    obtain ⟨t, ht, hpost⟩ := writeBits_appends s.arg0.toNat s.arg1.toNat s hc hr
    exact ⟨t, by rw [ht, settle_ok], hpost⟩
  · intro hk hr
    rw [writeBits_full s.arg0.toNat s.arg1.toNat s hk hr]
    exact settle_capacity s

/-- Settles O10: the three cases of `Flush`. -/
theorem bcFlushEmitsThePendingByte : Obligations.BcFlushEmitsThePendingByte := by
  intro s hst
  rw [exec_bcFlush hst]
  refine ⟨fun h => ?_, fun h hr => ?_, fun h hr => ?_⟩
  · rw [flush_empty h, settle_ok]
  · rw [flush_room h hr, settle_ok]
  · rw [flush_full h hr]
    exact settle_capacity s

/-- Settles O11: the prologue lets the command through, and its body is `Open` (R139). -/
theorem bcOpenReinitialisesTheCursors : Obligations.BcOpenReinitialisesTheCursors :=
  fun _ hst => exec_bcOpen hst

end Sys2Proof.Machine

/-! PROOFS. The host commands after a fault or a refusal (44_host_commands.md R253; 60_exceptions.md R283): each is a command behind the
prologue under its own code, and only the code of `RESET` is let through before the test for an earlier stop. -/

namespace Sys2Proof.Machine

/-! ## What a host command is -/

/-- A host command is the prologue of its own code and then its body (R253). -/
theorem exec_eq_command {i : Instr} (h : i.ctx = .command) :
    ∃ c body, (∀ s, exec i s = command c body s) ∧ decodeCommand c = i := by
  cases i <;> cases h
  case reset => exact ⟨0x1, fun s => .next s.afterReset, fun _ => rfl, rfl⟩
  case bcOpen => exact ⟨0x2, fun s => .next (openCursors s), fun _ => rfl, rfl⟩
  case bcRead => exact ⟨0x3, fun s => settle s (readField s), fun _ => rfl, rfl⟩
  case bcWrite => exact ⟨0x4, fun s => settle s (writeField s), fun _ => rfl, rfl⟩
  case bcFlush => exact ⟨0x5, fun s => settle s (flush s), fun _ => rfl, rfl⟩
  case g1Decode => exact ⟨0x8, runDecode g1Begin, fun _ => rfl, rfl⟩
  case g2Decode => exact ⟨0x9, runDecode g2Begin, fun _ => rfl, rfl⟩
  case cmdReserved0 => exact ⟨0x0, .next, fun _ => rfl, rfl⟩
  case cmdReserved6 => exact ⟨0x6, .next, fun _ => rfl, rfl⟩
  case cmdReserved7 => exact ⟨0x7, .next, fun _ => rfl, rfl⟩
  case cmdReservedA => exact ⟨0xA, .next, fun _ => rfl, rfl⟩
  case cmdReservedB => exact ⟨0xB, .next, fun _ => rfl, rfl⟩
  case cmdReservedC => exact ⟨0xC, .next, fun _ => rfl, rfl⟩
  case cmdReservedD => exact ⟨0xD, .next, fun _ => rfl, rfl⟩
  case cmdReservedE => exact ⟨0xE, .next, fun _ => rfl, rfl⟩
  case cmdReservedF => exact ⟨0xF, .next, fun _ => rfl, rfl⟩

/-! ## After a fault or a refusal -/

/-- The test for an earlier stop comes before every other but that for `RESET` (R253). -/
theorem prologue_stuck {c : BitVec 4} {s : State} (hc : c ≠ 1) (h : s.st.stuck = true) : prologue c s = some .afterFault := by
  rw [prologue, if_neg hc, if_pos h]

/-- `RESET` alone has the code 1, so every other command meets the test for an earlier stop (R283). -/
theorem exec_stuck {i : Instr} {s : State} (hi : i.ctx = .command) (hr : i ≠ .reset) (h : s.st.stuck = true) :
    exec i s = .next (s.stop (.refuse .afterFault)) := by
  obtain ⟨c, body, hexec, rfl⟩ := exec_eq_command hi
  have hc : c ≠ 1 := by
    rintro rfl
    exact hr rfl
  rw [hexec, command_of_some (prologue_stuck hc h)]

/-! ## The obligation -/

/-- Settles O14: the refusal `AFTER_FAULT` writes `ST` alone, and `RESET`, which meets no test, clears it. -/
theorem afterAFaultOnlyResetWorks : Obligations.AfterAFaultOnlyResetWorks := by
  intro s hst
  constructor
  · intro i hi
    obtain ⟨hcmd, hreset⟩ : i.ctx = .command ∧ i ≠ .reset := by
      revert i
      decide
    exact exec_stuck hcmd hreset hst
  · exact ⟨s.afterReset, exec_reset s, rfl⟩

end Sys2Proof.Machine

/-! PROOFS. The decoder and the encoder (30_encoding.md R91 to R114): every format is read back from its bits, and whatever is read
re-encodes to the bits it was read from. -/

namespace Sys2Proof

/-! ## Fields and their values -/

/-- A register's bits read back into a register of its width. -/
theorem takeNum_toNat {n : Nat} (x : BitVec n) (rest : Bits) : takeNum n (natToBits n x.toNat ++ rest) = some (x.toNat, rest) := by
  rw [takeNum_natToBits, Nat.mod_eq_of_lt x.isLt]

theorem takeNum_natToBits_of_lt {n v : Nat} (h : v < 2 ^ n) (rest : Bits) : takeNum n (natToBits n v ++ rest) = some (v, rest) := by
  rw [takeNum_natToBits, Nat.mod_eq_of_lt h]

theorem toNat_ofNat_of_lt {n v : Nat} (h : v < 2 ^ n) : (BitVec.ofNat n v).toNat = v := by
  rw [BitVec.toNat_ofNat, Nat.mod_eq_of_lt h]

/-! ## The run code (R96) -/

theorem decodeRun_encodeRun {k v : Nat} (h : v < 2 ^ (k + 1)) (rest : Bits) : decodeRun (encodeRun k v ++ rest) = .ok (mkRun k v, rest) := by
  simp only [decodeRun, encodeRun, List.append_assoc, List.cons_append, takeOnes_replicate, takeNum_natToBits_of_lt h]

/-- A run row is the run code of its parts, and its parts give the row back (R96, R118). -/
theorem runParts_spec {i : Instr} {k v : Nat} (h : runParts i = some (k, v)) (hw : i.wf = true) :
    i.ctx = .rle ∧ encode i = encodeRun k v ∧ mkRun k v = i ∧ v < 2 ^ (k + 1) := by
  cases i <;> simp only [runParts, Option.some.injEq, Prod.mk.injEq, reduceCtorEq] at h <;> obtain ⟨rfl, rfl⟩ := h
  case g1RunN k v =>
    simp only [Instr.wf, runOk, Bool.and_eq_true, decide_eq_true_eq] at hw
    refine ⟨rfl, rfl, ?_, hw.2⟩
    unfold mkRun
    split <;> first | rfl | omega
  all_goals
    rename_i x
    refine ⟨rfl, rfl, ?_, x.isLt⟩
    simp [mkRun]

/-- The parts of the row that the decoder makes are the ones it read. -/
theorem runParts_mkRun {k v : Nat} (h : v < 2 ^ (k + 1)) : runParts (mkRun k v) = some (k, v) := by
  unfold mkRun
  split
  case h_17 => rfl
  all_goals
    simp only [runParts, Option.some.injEq, Prod.mk.injEq, true_and]
    exact toNat_ofNat_of_lt h

theorem encode_mkRun {k v : Nat} (h : v < 2 ^ (k + 1)) : encode (mkRun k v) = encodeRun k v :=
  (runParts_spec (runParts_mkRun h) (mkRun_wf h)).2.1

/-! ## LZ3 headers (R102, R103, R111) -/

theorem decodeLz_short {h : Nat} (hh : h < 224) (rest : Bits) : decodeLz (natToBits 8 h ++ rest) = .ok (mkShort (h / 32) (h % 32), rest) := by
  have hne : h ≠ Config.lzTerm := fun e => by rw [e] at hh; exact absurd hh (by decide)
  simp only [decodeLz, takeNum_natToBits_of_lt (show h < 2 ^ 8 by omega), if_neg hne, if_neg (show ¬h / 32 = 7 by omega)]

theorem decodeLz_long {h n : Nat} (hh : 224 ≤ h) (hh' : h < 255) (hn : n < 256) (rest : Bits) :
    decodeLz (natToBits 8 h ++ (natToBits 8 n ++ rest)) = .ok (mkLong h n, rest) := by
  have hne : h ≠ Config.lzTerm := fun e => by rw [e] at hh'; exact absurd hh' (by decide)
  simp only [decodeLz, takeNum_natToBits_of_lt (show h < 2 ^ 8 by omega), if_neg hne, if_pos (show h / 32 = 7 by omega),
    takeNum_natToBits_of_lt (show n < 2 ^ 8 by omega)]

theorem decodeLz_end (rest : Bits) : decodeLz (natToBits 8 Config.lzTerm ++ rest) = .ok (.lzEnd, rest) := by
  simp only [decodeLz, takeNum_natToBits_of_lt (show Config.lzTerm < 2 ^ 8 by decide), if_pos]

/-- A short header is one byte: the command in its top 3 bits (R102). -/
theorem encodeShort_eq {c l : Nat} (hl : l < 32) : encodeShort c l = natToBits 8 (c * 32 + l) := natToBits_concat 3 5 c l hl

/-- A long header is two bytes (R103). -/
theorem encodeLong_eq {c l : Nat} (hc : c < 8) (hl : l < 1024) :
    encodeLong c l = natToBits 8 (224 + c * 4 + l / 256) ++ natToBits 8 (l % 256) := by
  have h10 : natToBits 10 l = natToBits 2 (l / 256) ++ natToBits 8 (l % 256) := by
    rw [show l % 256 = l % 2 ^ 8 from rfl, natToBits_mod]
    exact natToBits_add 2 8 l
  have h6 : natToBits 3 c ++ natToBits 2 (l / 256) = natToBits 5 (c * 4 + l / 256) := natToBits_concat 3 2 c _ (by omega)
  have h8 : natToBits 3 7 ++ natToBits 5 (c * 4 + l / 256) = natToBits 8 (7 * 32 + (c * 4 + l / 256)) := natToBits_concat 3 5 7 _ (by omega)
  rw [encodeLong, h10, List.append_assoc, ← List.append_assoc (natToBits 3 c), h6, ← List.append_assoc, h8]
  congr 2; omega

theorem decodeLz_encodeShort {c l : Nat} (hc : c < 7) (hl : l < 32) (rest : Bits) : decodeLz (encodeShort c l ++ rest) = .ok (mkShort c l, rest) := by
  rw [encodeShort_eq hl, decodeLz_short (by omega), show (c * 32 + l) / 32 = c by omega, show (c * 32 + l) % 32 = l by omega]

/-- The long-header rows by their command and their length (R103). -/
def longRow (cmd l : Nat) : Instr :=
  match cmd with
  | 0 => .lzCopyL (.ofNat 10 l)
  | 1 => .lzFillL (.ofNat 10 l)
  | 2 => .lzWFillL (.ofNat 10 l)
  | 3 => .lzZeroL (.ofNat 10 l)
  | 4 => .lzRepL (.ofNat 10 l)
  | 5 => .lzBRevL (.ofNat 10 l)
  | _ => .lzBackL (.ofNat 10 l)

/-- The row the decoder makes from a long header's two bytes: the command stands in bits 4:2 of the first (R103). -/
theorem mkLong_eq_longRow {h n c l : Nat} (hc : c < 7) (h4 : h / 4 % 8 = c) (hl : h % 4 * 256 + n = l) : mkLong h n = longRow c l := by
  unfold mkLong longRow
  rw [h4, hl]
  interval_cases c <;> rfl

theorem decodeLz_encodeLong {c l : Nat} (hc : c < 7) (hl : l < 1024) (rest : Bits) :
    decodeLz (encodeLong c l ++ rest) = .ok (longRow c l, rest) := by
  rw [encodeLong_eq (by omega) hl, List.append_assoc, decodeLz_long (by omega) (by omega) (by omega),
    mkLong_eq_longRow (l := l) hc (by omega) (by omega)]

/-- A command row is the encoding of its header fields, and the decoder makes the row from them. -/
theorem lzForm_spec {i : Instr} {f : LzForm} (h : lzForm i = some f) : ∃ l, f.len = l + 1 ∧ f.cmd.toNat < 7 ∧
    ((f.long = 0 ∧ f.bytes = 1 ∧ l < 32 ∧ encode i = encodeShort f.cmd.toNat l ∧ mkShort f.cmd.toNat l = i) ∨
     (f.long = 1 ∧ f.bytes = 2 ∧ l < 1024 ∧ encode i = encodeLong f.cmd.toNat l ∧ longRow f.cmd.toNat l = i)) := by
  cases i <;> simp only [lzForm, Option.some.injEq, reduceCtorEq] at h <;> subst h <;> rename_i l
  case lzCopy | lzFill | lzWFill | lzZero | lzRep | lzBRev | lzBack =>
    exact ⟨l.toNat, rfl, by simp, .inl ⟨rfl, rfl, l.isLt, rfl, by simp [mkShort]⟩⟩
  all_goals exact ⟨l.toNat, rfl, by simp, .inr ⟨rfl, rfl, l.isLt, rfl, by simp [longRow]⟩⟩

/-- Every command row is read back from its header (R102, R103). -/
theorem decodeLz_lzForm {i : Instr} {f : LzForm} (h : lzForm i = some f) (rest : Bits) : decodeLz (encode i ++ rest) = .ok (i, rest) := by
  obtain ⟨l, -, hc, ⟨-, -, hl, he, hm⟩ | ⟨-, -, hl, he, hm⟩⟩ := lzForm_spec h
  · rw [he, decodeLz_encodeShort hc hl, hm]
  · rw [he, decodeLz_encodeLong hc hl, hm]

/-- A nested long header whose first byte is `0xFC` or `0xFD` (R111). -/
theorem decodeLz_ill (l : BitVec 9) (rest : Bits) : decodeLz (natToBits 7 126 ++ natToBits 9 l.toNat ++ rest) = .ok (.lzIll l, rest) := by
  have hl := l.isLt
  have h9 : natToBits 9 l.toNat = natToBits 1 (l.toNat / 256) ++ natToBits 8 (l.toNat % 256) := by
    rw [show l.toNat % 256 = l.toNat % 2 ^ 8 from rfl, natToBits_mod]
    exact natToBits_add 1 8 l.toNat
  have h8 : natToBits 7 126 ++ natToBits 1 (l.toNat / 256) = natToBits 8 (252 + l.toNat / 256) := natToBits_concat 7 1 126 _ (by omega)
  have hrow : mkLong (252 + l.toNat / 256) (l.toNat % 256) = .lzIll l := by
    unfold mkLong
    rw [show (252 + l.toNat / 256) / 4 % 8 = 7 by omega]
    simp only
    rw [if_pos (by omega), show (252 + l.toNat / 256) % 4 * 256 + l.toNat % 256 = l.toNat by omega, BitVec.ofNat_toNat, BitVec.setWidth_eq]
  rw [h9, ← List.append_assoc, h8, List.append_assoc, decodeLz_long (by omega) (by omega) (by omega), hrow]

/-- A nested long header whose first byte is `0xFE` (R111). -/
theorem decodeLz_illFe (l : BitVec 8) (rest : Bits) : decodeLz (natToBits 8 254 ++ natToBits 8 l.toNat ++ rest) = .ok (.lzIllFe l, rest) := by
  rw [List.append_assoc, decodeLz_long (by omega) (by omega) l.isLt]
  simp [mkLong]

/-- Header position reads each of its rows back (R108). -/
theorem decodeLz_encode {i : Instr} (h : i.ctx = .lz) (rest : Bits) : decodeLz (encode i ++ rest) = .ok (i, rest) := by
  cases i <;> cases h
  case lzIll l => exact decodeLz_ill l rest
  case lzIllFe l => exact decodeLz_illFe l rest
  case lzEnd => exact decodeLz_end rest
  all_goals exact decodeLz_lzForm rfl rest

/-! ## The other formats -/

theorem decodeHeader_encode (w h : BitVec 4) (p : BitVec 1) (rest : Bits) :
    decodeHeader (encode (.g1Hdr w h p) ++ rest) = .ok (.g1Hdr w h p, rest) := by
  simp only [encode, List.append_assoc, decodeHeader, takeNum_toNat, BitVec.ofNat_toNat, BitVec.setWidth_eq]

theorem decodeAddr_rel (y : BitVec 7) (rest : Bits) : decodeAddr (encode (.lzAddrRel y) ++ rest) = .ok (.lzAddrRel y, rest) := by
  have hy := y.isLt
  have h8 : natToBits 1 1 ++ natToBits 7 y.toNat = natToBits 8 (128 + y.toNat) := natToBits_concat 1 7 1 _ hy
  simp only [encode, h8, decodeAddr, takeNum_natToBits_of_lt (show 128 + y.toNat < 2 ^ 8 by omega),
    if_pos (show (128 + y.toNat) / 128 = 1 by omega)]
  congr 3
  exact BitVec.eq_of_toNat_eq (by simp; omega)

theorem decodeAddr_abs (y : BitVec 7) (a : BitVec 8) (rest : Bits) : decodeAddr (encode (.lzAddrAbs y a) ++ rest) = .ok (.lzAddrAbs y a, rest) := by
  have hy := y.isLt
  have h8 : natToBits 1 0 ++ natToBits 7 y.toNat = natToBits 8 y.toNat := by
    rw [natToBits_concat 1 7 0 _ hy, Nat.zero_mul, Nat.zero_add]
  simp only [encode, h8, List.append_assoc, decodeAddr, takeNum_natToBits_of_lt (show y.toNat < 2 ^ 8 by omega),
    if_neg (show ¬y.toNat / 128 = 1 by omega), takeNum_toNat, BitVec.ofNat_toNat, BitVec.setWidth_eq]

theorem decodeAddr_encode {i : Instr} (h : i.ctx = .addr) (rest : Bits) : decodeAddr (encode i ++ rest) = .ok (i, rest) := by
  cases i <;> cases h
  case lzAddrRel y => exact decodeAddr_rel y rest
  case lzAddrAbs y a => exact decodeAddr_abs y a rest

theorem decodePfx_encode (w h : BitVec 4) (c0 c1 c2 c3 : Color) (rest : Bits) :
    decodePfx (encode (.g2Prefix w h c0 c1 c2 c3) ++ rest) = .ok (.g2Prefix w h c0 c1 c2 c3, rest) := by
  have hw := w.isLt
  have hh := h.isLt
  have h8 : natToBits 4 w.toNat ++ natToBits 4 h.toNat = natToBits 8 (w.toNat * 16 + h.toNat) := natToBits_concat 4 4 _ _ hh
  have hsize : encode (.g2Prefix w h c0 c1 c2 c3) ++ rest = natToBits 8 Config.lzTerm ++ (natToBits 8 (w.toNat * 16 + h.toNat) ++
      (natToBits 24 c0.toNat ++ (natToBits 24 c1.toNat ++ (natToBits 24 c2.toNat ++ (natToBits 24 c3.toNat ++ rest))))) := by
    simp only [encode, ← h8, List.append_assoc]
  have hlow : BitVec.ofNat 4 (w.toNat * 16 + h.toNat) = h := BitVec.eq_of_toNat_eq (by simp; omega)
  rw [hsize, decodePfx]
  simp only [takeNum_natToBits_of_lt (show Config.lzTerm < 2 ^ 8 by decide), ne_eq, not_true_eq_false, if_false,
    takeNum_natToBits_of_lt (show w.toNat * 16 + h.toNat < 2 ^ 8 by omega), takeNum_toNat, BitVec.ofNat_toNat, BitVec.setWidth_eq,
    show (w.toNat * 16 + h.toNat) / 16 = w.toNat by omega, hlow]

/-- Every code of `CMD` is the encoding of its own row (R113). -/
theorem encode_decodeCommand : ∀ c : BitVec 4, encode (decodeCommand c) = natToBits 4 c.toNat := by decide

/-! ## Decoding an encoding -/

/-- Settles O1, place by place: the run code, LZ3 header position and the other formats each read their own encodings back. -/
theorem decodeReadsBackEveryEncoding : Obligations.DecodeReadsBackEveryEncoding := by
  intro i rest hw
  cases hc : i.ctx with
  | header => cases i <;> cases hc; exact decodeHeader_encode _ _ _ rest
  | init => cases i <;> cases hc <;> rfl
  | rle =>
    obtain ⟨k, v, hr, -⟩ := Machine.rle_is_run hc
    obtain ⟨-, he, hm, hv⟩ := runParts_spec hr hw
    rw [decode, he, decodeRun_encodeRun hv, hm]
  | data => cases i <;> cases hc <;> rfl
  | mode => cases i <;> cases hc <;> rfl
  | pfx => cases i <;> cases hc; exact decodePfx_encode _ _ _ _ _ _ rest
  | lz => exact decodeLz_encode hc rest
  | addr => exact decodeAddr_encode hc rest
  | command =>
    obtain ⟨c, -, -, rfl⟩ := Machine.exec_eq_command hc
    simp only [decode, encode_decodeCommand, takeNum_toNat, BitVec.ofNat_toNat, BitVec.setWidth_eq]

/-! ## Encoding what was decoded -/

theorem encode_mkShort {c l : Nat} (hc : c < 7) (hl : l < 32) : encode (mkShort c l) = natToBits 8 (c * 32 + l) := by
  have hn : (BitVec.ofNat 5 l).toNat = l := toNat_ofNat_of_lt hl
  rw [← encodeShort_eq hl]
  interval_cases c <;> simp only [mkShort, encode, hn]

theorem encode_longRow {c l : Nat} (hc : c < 7) (hl : l < 1024) : encode (longRow c l) = encodeLong c l := by
  have hn : (BitVec.ofNat 10 l).toNat = l := toNat_ofNat_of_lt hl
  interval_cases c <;> simp only [longRow, encode, hn]

/-- The row of a long header's two bytes re-encodes to them (R103, R111). -/
theorem encode_mkLong {h n : Nat} (hh : 224 ≤ h) (hh' : h < 255) (hn : n < 256) :
    encode (mkLong h n) = natToBits 8 h ++ natToBits 8 n := by
  rcases Nat.lt_or_ge h 252 with hc | hc
  · rw [mkLong_eq_longRow (show h / 4 % 8 < 7 by omega) rfl rfl, encode_longRow (by omega) (by omega), encodeLong_eq (by omega) (by omega)]
    congr 2 <;> omega
  · rcases Nat.lt_or_ge h 254 with h4 | h4
    · have hrow : mkLong h n = .lzIll (.ofNat 9 ((h - 252) * 256 + n)) := by
        unfold mkLong
        rw [show h / 4 % 8 = 7 by omega]
        simp only
        rw [if_pos (by omega), show h % 4 = h - 252 by omega]
      have h8 : natToBits 7 126 ++ natToBits 1 (h - 252) = natToBits 8 h := by
        rw [natToBits_concat 7 1 126 _ (by omega), show 126 * 2 ^ 1 + (h - 252) = h by omega]
      have h9 : natToBits 9 ((h - 252) * 256 + n) = natToBits 1 (h - 252) ++ natToBits 8 n := (natToBits_concat 1 8 _ n hn).symm
      rw [hrow, encode, toNat_ofNat_of_lt (by omega), h9, ← List.append_assoc, h8]
    · obtain rfl : h = 254 := by omega
      have hrow : mkLong 254 n = .lzIllFe (.ofNat 8 n) := rfl
      rw [hrow, encode, toNat_ofNat_of_lt hn]

/-- What header position reads re-encodes to its bits. -/
theorem decodeLz_eq_ok {bs rest : Bits} {i : Instr} (h : decodeLz bs = .ok (i, rest)) : bs = encode i ++ rest := by
  unfold decodeLz at h
  split at h; · cases h
  next x bs1 h1 =>
    obtain ⟨rfl, hx⟩ := takeNum_eq_some h1
    split at h
    · next hterm => cases h; rw [hterm, encode]
    · next hterm =>
      have hne : x ≠ 255 := hterm
      split at h
      · split at h; · cases h
        next n bs2 h2 =>
          obtain ⟨rfl, hn⟩ := takeNum_eq_some h2
          cases h
          rw [encode_mkLong (by omega) (by omega) hn, List.append_assoc]
      · cases h
        rw [encode_mkShort (by omega) (by omega), show x / 32 * 32 + x % 32 = x by omega]

theorem decodeRun_eq_ok {bs rest : Bits} {i : Instr} (h : decodeRun bs = .ok (i, rest)) :
    ∃ k v, i = mkRun k v ∧ v < 2 ^ (k + 1) ∧ bs = encodeRun k v ++ rest := by
  unfold decodeRun at h
  split at h; · cases h
  next k bs1 h1 =>
    split at h; · cases h
    next v bs2 h2 =>
      obtain ⟨rfl, hv⟩ := takeNum_eq_some h2
      cases h
      exact ⟨k, v, rfl, hv, by rw [takeOnes_eq_some h1, encodeRun, List.append_assoc, List.cons_append]⟩

theorem decodeHeader_eq_ok {bs rest : Bits} {i : Instr} (h : decodeHeader bs = .ok (i, rest)) : bs = encode i ++ rest := by
  unfold decodeHeader at h
  split at h; · cases h
  next w bs1 h1 =>
    obtain ⟨rfl, hw⟩ := takeNum_eq_some h1
    split at h; · cases h
    next y bs2 h2 =>
      obtain ⟨rfl, hy⟩ := takeNum_eq_some h2
      split at h; · cases h
      next p bs3 h3 =>
        obtain ⟨rfl, hp⟩ := takeNum_eq_some h3
        cases h
        simp only [encode, toNat_ofNat_of_lt hw, toNat_ofNat_of_lt hy, toNat_ofNat_of_lt hp, List.append_assoc]

theorem decodeAddr_eq_ok {bs rest : Bits} {i : Instr} (h : decodeAddr bs = .ok (i, rest)) : bs = encode i ++ rest := by
  unfold decodeAddr at h
  split at h; · cases h
  next y bs1 h1 =>
    obtain ⟨rfl, hy⟩ := takeNum_eq_some h1
    split at h
    · next h7 =>
      cases h
      have hn : (BitVec.ofNat 7 y).toNat = y - 128 := by simp; omega
      rw [encode, hn, natToBits_concat 1 7 1 _ (by omega), show 1 * 2 ^ 7 + (y - 128) = y by omega]
    · next h7 =>
      split at h; · cases h
      next lo bs2 h2 =>
        obtain ⟨rfl, hlo⟩ := takeNum_eq_some h2
        cases h
        rw [encode, toNat_ofNat_of_lt (show y < 2 ^ 7 by omega), toNat_ofNat_of_lt hlo, natToBits_concat 1 7 0 _ (by omega),
          Nat.zero_mul, Nat.zero_add, List.append_assoc]

theorem decodePfx_eq_ok {bs rest : Bits} {i : Instr} (h : decodePfx bs = .ok (i, rest)) : bs = encode i ++ rest := by
  unfold decodePfx at h
  split at h; · cases h
  next m bs0 h0 =>
    obtain ⟨rfl, -⟩ := takeNum_eq_some h0
    split at h; · cases h
    next hm =>
      obtain rfl : m = Config.lzTerm := not_not.mp hm
      split at h; · cases h
      next size bs1 h1 =>
        obtain ⟨rfl, hs⟩ := takeNum_eq_some h1
        split at h; · cases h
        next c0 bs2 h2 =>
          obtain ⟨rfl, hc0⟩ := takeNum_eq_some h2
          split at h; · cases h
          next c1 bs3 h3 =>
            obtain ⟨rfl, hc1⟩ := takeNum_eq_some h3
            split at h; · cases h
            next c2 bs4 h4 =>
              obtain ⟨rfl, hc2⟩ := takeNum_eq_some h4
              split at h; · cases h
              next c3 bs5 h5 =>
                obtain ⟨rfl, hc3⟩ := takeNum_eq_some h5
                cases h
                have hw : (BitVec.ofNat 4 (size / 16)).toNat = size / 16 := toNat_ofNat_of_lt (by omega)
                have hh : (BitVec.ofNat 4 size).toNat = size % 16 := by simp
                have hsize : natToBits 8 size = natToBits 4 (size / 16) ++ natToBits 4 (size % 16) := by
                  rw [natToBits_concat 4 4 _ _ (by omega), show size / 16 * 2 ^ 4 + size % 16 = size by omega]
                simp only [encode, hw, hh, toNat_ofNat_of_lt hc0, toNat_ofNat_of_lt hc1, toNat_ofNat_of_lt hc2, toNat_ofNat_of_lt hc3,
                  hsize, List.append_assoc]

/-- Only the generic run row can fail to be well-formed. -/
theorem wf_of_ctx_ne_rle {i : Instr} (h : i.ctx ≠ .rle) : i.wf = true := by
  cases i <;> first | rfl | exact absurd rfl h

/-- What a place of a stream reads re-encodes to the bits it was read from. -/
theorem decode_eq_encode_append {c : Ctx} {bs rest : Bits} {i : Instr} (h : decode c bs = .ok (i, rest)) : bs = encode i ++ rest := by
  cases c <;> simp only [decode] at h
  case header => exact decodeHeader_eq_ok h
  case init => unfold decodeInit at h; split at h <;> cases h <;> rfl
  case rle =>
    obtain ⟨k, v, rfl, hv, rfl⟩ := decodeRun_eq_ok h
    rw [encode_mkRun hv]
  case data => unfold decodeData at h; split at h <;> cases h <;> rfl
  case mode => unfold decodeMode at h; split at h <;> cases h <;> rfl
  case pfx => exact decodePfx_eq_ok h
  case lz => exact decodeLz_eq_ok h
  case addr => exact decodeAddr_eq_ok h
  case command =>
    split at h; · cases h
    next x bs1 h1 =>
      obtain ⟨rfl, hx⟩ := takeNum_eq_some h1
      cases h
      rw [encode_decodeCommand, toNat_ofNat_of_lt hx]

/-- Settles O2: only a run can be ill-formed, and the decoder reads no suffix wider than the run's. -/
theorem decodedBitsAreTheEncoding : Obligations.DecodedBitsAreTheEncoding := by
  intro c bs rest i h
  refine ⟨?_, decode_ctx h, decode_eq_encode_append h⟩
  by_cases hc : c = .rle
  · subst hc
    obtain ⟨k, v, rfl, hv, -⟩ := decodeRun_eq_ok h
    exact mkRun_wf hv
  · exact wf_of_ctx_ne_rle (by rwa [decode_ctx h])

/-! ## The LZ3 first-byte map (R114) -/

/-- A short header decodes to the row of its command, the length in its low five bits. -/
theorem decode_firstByte_short (h : Byte) (rest : Bits) {c : Nat} (hc : h.toNat / 32 = c) (h7 : c < 7) :
    decode .lz (natToBits 8 h.toNat ++ rest) = .ok (mkShort c (h.toNat % 32), rest) := by
  subst hc
  exact decodeLz_short (by omega) rest

theorem decode_firstByte_long (h n : Byte) (rest : Bits) {c : Nat} (hc : h.toNat / 4 = 56 + c) (h7 : c < 7) :
    decode .lz (natToBits 8 h.toNat ++ (natToBits 8 n.toNat ++ rest)) = .ok (longRow c (h.toNat % 4 * 256 + n.toNat), rest) := by
  have hrow := decodeLz_long (h := h.toNat) (by omega) (by omega) n.isLt rest
  rwa [mkLong_eq_longRow h7 (by omega) rfl] at hrow

/-- The length field of a long header: two bits of the first byte, then the second (R103). -/
theorem longLength_toNat (h n : Byte) : (h.extractLsb' 0 2 ++ n).toNat = h.toNat % 4 * 256 + n.toNat := by
  have hn := n.isLt
  rw [BitVec.toNat_append, ← Nat.shiftLeft_add_eq_or_of_lt hn, Nat.shiftLeft_eq]
  simp

/-- Settles O3: a first byte below `0xE0` is a short header, one up to `0xFE` takes a second byte, and `0xFF` is the terminator. -/
theorem firstBytesDecodeByTheMap : Obligations.FirstBytesDecodeByTheMap := by
  intro h n rest one two l ll
  have hh := h.isLt
  have hl : BitVec.ofNat 5 (h.toNat % 32) = l := BitVec.eq_of_toNat_eq (by simp [l])
  have hll : BitVec.ofNat 10 (h.toNat % 4 * 256 + n.toNat) = ll := by
    rw [← longLength_toNat, BitVec.ofNat_toNat, BitVec.setWidth_eq]
  have short {c : Nat} (hc : h.toNat / 32 = c) (h7 : c < 7) : decode .lz one = .ok (mkShort c (h.toNat % 32), rest) :=
    decode_firstByte_short h rest hc h7
  have long {c : Nat} (hc : h.toNat / 4 = 56 + c) (h7 : c < 7) : decode .lz two = .ok (longRow c (h.toNat % 4 * 256 + n.toNat), rest) :=
    decode_firstByte_long h n rest hc h7
  refine ⟨fun r => ?_, fun r => ?_, fun r => ?_, fun r => ?_, fun r => ?_, fun r => ?_, fun r => ?_, fun r => ?_, fun r => ?_, fun r => ?_,
    fun r => ?_, fun r => ?_, fun r => ?_, fun r => ?_, fun r => ?_, fun r => ?_, fun r => ?_, by simp [l], by rw [longLength_toNat]⟩
  · rw [short (c := 0) (by omega) (by omega), mkShort, hl]
  · rw [short (c := 1) (by omega) (by omega), mkShort, hl]
  · rw [short (c := 2) (by omega) (by omega), mkShort, hl]
  · rw [short (c := 3) (by omega) (by omega), mkShort, hl]
  · rw [short (c := 4) (by omega) (by omega), mkShort, hl]
  · rw [short (c := 5) (by omega) (by omega), mkShort, hl]
  · rw [short (c := 6) (by omega) (by omega), mkShort, hl] <;> decide
  · rw [long (c := 0) (by omega) (by omega), longRow, hll]
  · rw [long (c := 1) (by omega) (by omega), longRow, hll]
  · rw [long (c := 2) (by omega) (by omega), longRow, hll]
  · rw [long (c := 3) (by omega) (by omega), longRow, hll]
  · rw [long (c := 4) (by omega) (by omega), longRow, hll]
  · rw [long (c := 5) (by omega) (by omega), longRow, hll]
  · rw [long (c := 6) (by omega) (by omega), longRow, hll] <;> decide
  · have hw : (h.extractLsb' 0 1 ++ n).toNat = (h.toNat - 252) * 256 + n.toNat := by
      rw [BitVec.toNat_append, ← Nat.shiftLeft_add_eq_or_of_lt n.isLt, Nat.shiftLeft_eq]
      simp; omega
    have h8 : natToBits 8 h.toNat = natToBits 7 126 ++ natToBits 1 (h.toNat - 252) := by
      rw [natToBits_concat 7 1 126 _ (by omega), show 126 * 2 ^ 1 + (h.toNat - 252) = h.toNat by omega]
    have h9 : natToBits 1 (h.toNat - 252) ++ natToBits 8 n.toNat = natToBits 9 ((h.toNat - 252) * 256 + n.toNat) :=
      natToBits_concat 1 8 _ _ n.isLt
    have hill := decodeLz_ill (h.extractLsb' 0 1 ++ n) rest
    rw [hw, ← h9, ← List.append_assoc, ← h8, List.append_assoc] at hill
    exact hill
  · have hill := decodeLz_illFe n rest
    rw [List.append_assoc, ← r] at hill
    exact hill
  · have hend := decodeLz_end rest
    rw [Config.lzTerm, ← r] at hend
    exact hend

/-- Settles O4: the words are closed, and decoding them is a computation. -/
theorem writtenOutWordsDecode : Obligations.WrittenOutWordsDecode := by
  refine ⟨rfl, rfl, rfl, rfl, rfl, rfl, rfl, rfl, rfl, rfl, rfl, rfl, rfl, rfl, rfl, rfl, ?_⟩
  decide

namespace Machine

/-! ## Run lengths (R96, R158) -/

/-- The length after a run's zero, written as `k + 1` ones' worth and the suffix: one more than the length has `k + 2` bits. -/
theorem runLength_succ (k v : Nat) : runLength k v + 1 = 2 ^ (k + 1) + v := by
  have := Nat.one_le_two_pow (n := k + 1)
  unfold runLength
  omega

/-- The number of ones in front of a run is fixed by its length. -/
theorem log_runLength {k v : Nat} (h : v < 2 ^ (k + 1)) : Nat.log 2 (runLength k v + 1) = k + 1 := by
  rw [runLength_succ]
  exact Nat.log_eq_of_pow_le_of_lt_pow (by omega) (by rw [pow_succ 2 (k + 1)]; omega)

theorem runLength_inj {k v k' v' : Nat} (h : v < 2 ^ (k + 1)) (h' : v' < 2 ^ (k' + 1)) (e : runLength k v = runLength k' v') :
    k = k' ∧ v = v' := by
  have hk : k + 1 = k' + 1 := by rw [← log_runLength h, ← log_runLength h', e]
  obtain rfl : k = k' := by omega
  have := runLength_succ k v
  have := runLength_succ k v'
  exact ⟨rfl, by omega⟩

/-- Every length from 1 up is that of a run. -/
theorem exists_runLength {r : Nat} (hr : 1 ≤ r) : ∃ k v, v < 2 ^ (k + 1) ∧ runLength k v = r := by
  have hlog : 1 ≤ Nat.log 2 (r + 1) := Nat.log_pos (by omega) (by omega)
  obtain ⟨k, hk⟩ : ∃ k, Nat.log 2 (r + 1) = k + 1 := ⟨_, (Nat.sub_add_cancel hlog).symm⟩
  have hle : 2 ^ (k + 1) ≤ r + 1 := hk ▸ Nat.pow_log_le_self 2 (by omega)
  have hlt : r + 1 < 2 ^ (k + 1 + 1) := hk ▸ Nat.lt_pow_succ_log_self (by omega) (r + 1)
  have := runLength_succ k (r + 1 - 2 ^ (k + 1))
  rw [pow_succ 2 (k + 1)] at hlt
  exact ⟨k, r + 1 - 2 ^ (k + 1), by omega, by omega⟩

/-- Settles O5: the length fixes the parts of the run, and the parts fix its bits. -/
theorem everyRunLengthHasOneEncoding : Obligations.EveryRunLengthHasOneEncoding := by
  intro r hr
  obtain ⟨k, v, hv, rfl⟩ := exists_runLength hr
  refine ⟨encodeRun k v, ⟨mkRun k v, k, v, ?_, runParts_mkRun hv, rfl⟩, ?_⟩
  · simpa only [decode, List.append_nil] using decodeRun_encodeRun hv []
  · rintro bs ⟨i, k', v', hd, hp, hlen⟩
    obtain ⟨k₁, v₁, rfl, hv₁, rfl⟩ := decodeRun_eq_ok hd
    obtain ⟨rfl, rfl⟩ : k₁ = k' ∧ v₁ = v' := by
      rw [runParts_mkRun hv₁] at hp
      simpa using hp
    obtain ⟨rfl, rfl⟩ := runLength_inj hv₁ hv hlen
    rw [List.append_nil]

end Machine

end Sys2Proof

/-! PROOFS. What an element of a stream, a move of a decode and a stop leave unchanged (10_state.md R41, R45, R46, R48; 60_exceptions.md
R271, R280). A frame is an equation between two states with the registers that may be written blanked out, so frames chain by
transitivity and each register it keeps is read off. -/

namespace Sys2Proof.Machine

/-! ## Frames -/

/-- The state without what a Gen1 decode may write: the reader, the Gen1 registers and buffers, the TileAssembler, `ST.DONE`, and the
sequencer's position (R48, R257). -/
def withoutGen1 (s : State) : State :=
  { clearAssembler s with
    rdByte := 0, rdBit := 0
    g1Tw := 0, g1Th := 0, g1Primary := 0, g1Mode := 0, g1State := 0, g1Emit := 0, g1Total := 0, g1Cur := 0, ds := 0
    bufB := [], bufC := []
    phase := .idle }

/-- The state without what a Gen2 decode may write: the Gen2 registers, `D`, `PAL`, the TileAssembler, `ST.DONE`, and the sequencer's
position (R48, R258). -/
def withoutGen2 (s : State) : State :=
  { clearAssembler s with
    g2Ip := 0, bufD := [], g2Cmd := 0, g2Len := 0, g2Start := 0, g2Long := 0, g2Pfx := 0, g2Pw := 0, g2Ph := 0
    g2Tw := 0, g2Th := 0, pal := ⟨0, 0, 0, 0⟩
    phase := .idle }

/-- What both decodes keep. -/
structure DecodeFrame (s t : State) : Prop where
  inputs : SameInputs s t
  status : t.st.begin = s.st.begin
  writer : t.wrAcc = s.wrAcc ∧ t.wrCnt = s.wrCnt ∧ t.snk = s.snk ∧ t.res = s.res
  model : t.issued = s.issued ∧ t.drawn = s.drawn

theorem DecodeFrame.of_withoutGen1 {s t : State} (h : withoutGen1 t = withoutGen1 s) : DecodeFrame s t where
  inputs := ⟨(congrArg State.src h :), (congrArg State.srcDraw h :), (congrArg State.srcLen h :), (congrArg State.cfg h :), (congrArg State.cmd h :),
    (congrArg State.arg0 h :), (congrArg State.arg1 h :), (congrArg State.params h :)⟩
  status := (congrArg State.st h :)
  writer := ⟨(congrArg State.wrAcc h :), (congrArg State.wrCnt h :), (congrArg State.snk h :), (congrArg State.res h :)⟩
  model := ⟨(congrArg State.issued h :), (congrArg State.drawn h :)⟩

theorem DecodeFrame.of_withoutGen2 {s t : State} (h : withoutGen2 t = withoutGen2 s) : DecodeFrame s t where
  inputs := ⟨(congrArg State.src h :), (congrArg State.srcDraw h :), (congrArg State.srcLen h :), (congrArg State.cfg h :), (congrArg State.cmd h :),
    (congrArg State.arg0 h :), (congrArg State.arg1 h :), (congrArg State.params h :)⟩
  status := (congrArg State.st h :)
  writer := ⟨(congrArg State.wrAcc h :), (congrArg State.wrCnt h :), (congrArg State.snk h :), (congrArg State.res h :)⟩
  model := ⟨(congrArg State.issued h :), (congrArg State.drawn h :)⟩

/-- The start of a decode writes what the decode may write (R48). -/
theorem withoutGen1_g1Begin (s : State) : withoutGen1 (g1Begin s) = withoutGen1 s := rfl

theorem withoutGen2_g2Begin (s : State) : withoutGen2 (g2Begin s) = withoutGen2 s := rfl

/-! ## The end of a decode -/

theorem g1Finish_frame {s t : State} (h : g1Finish s = .ok t) : withoutGen1 t = withoutGen1 s ∧ t.st = s.st.finish ∧ t.phase = .idle := by
  obtain ⟨b, c, d, hp, -⟩ := postProcess_eq s
  unfold g1Finish at h
  rw [hp] at h
  obtain ⟨_, _, _, _, _, _, _, _, rfl, -⟩ := finish_sizes h
  exact ⟨rfl, rfl, rfl⟩

theorem g2Finish_frame {s t : State} (h : g2Finish s = .ok t) :
    withoutGen2 t = withoutGen2 s ∧ t.pal = s.pal ∧ t.st = s.st.finish ∧ t.phase = .idle := by
  obtain ⟨w, y, u, -, rfl, -, hf⟩ := g2Finish_eq_ok h
  obtain ⟨_, _, _, _, _, _, _, _, rfl, -⟩ := finish_sizes hf
  exact ⟨rfl, rfl, rfl, rfl⟩

/-! ## Moves -/

/-- A pair element in one line (R161): the pair goes to the current buffer, and the position moves by one. -/
theorem pairElement_eq (p : BitVec 2) (s : State) : pairElement p s =
    { s.advance 2 with
      bufB := if s.g1Cur = 0 then emitPair (s.g1Th.toNat * 8) s.g1Emit p s.bufB else s.bufB
      bufC := if s.g1Cur = 0 then s.bufC else emitPair (s.g1Th.toNat * 8) s.g1Emit p s.bufC
      g1Emit := s.g1Emit + 1, phase := planePhase s (s.g1Emit + 1) } := by
  unfold pairElement
  dsimp only
  by_cases h : s.g1Cur = 0
  · have h' : (s.advance 2).g1Cur = 0 := h
    rw [if_pos h, if_pos h, if_pos h']
    rfl
  · have h' : ¬(s.advance 2).g1Cur = 0 := h
    rw [if_neg h, if_neg h, if_neg h']
    rfl

theorem withoutGen1_pairElement (p : BitVec 2) (s : State) : withoutGen1 (pairElement p s) = withoutGen1 s := by
  rw [pairElement_eq]
  rfl

theorem pairElement_st (p : BitVec 2) (s : State) : (pairElement p s).st = s.st := by
  rw [pairElement_eq]
  rfl

theorem afterElement_inG2 (s : State) : (afterElement s).phase.inG2 = false := by
  unfold afterElement
  split
  · rfl
  · split <;> rfl

theorem inG2_of_phase {s : State} {p : Phase} (h : s.phase = p) : s.phase.inG2 = p.inG2 := congrArg Phase.inG2 h

/-- A move of a Gen1 decode writes Gen1's registers only, and stays inside the decode or ends it. -/
theorem Moves.gen1_frame {s t : State} (h : Moves s t) (hs : s.phase.inG2 = false) :
    withoutGen1 t = withoutGen1 s ∧ t.phase.inG2 = false := by
  cases h with
  | header => exact ⟨rfl, rfl⟩
  | init => exact ⟨rfl, afterElement_inG2 _⟩
  | run => exact ⟨rfl, afterElement_inG2 _⟩
  | pair p => exact ⟨withoutGen1_pairElement p s, afterElement_inG2 _⟩
  | switch => exact ⟨rfl, afterElement_inG2 _⟩
  | mode => exact ⟨rfl, rfl⟩
  | post _ _ ht =>
    obtain ⟨hf, -, hi⟩ := g1Finish_frame ht
    exact ⟨hf, inG2_of_phase hi⟩
  | plain hp | block _ _ _ hp | command _ _ _ _ hp | stop hp | operand _ _ hp | transfer _ hp | layout _ hp =>
    rw [hp] at hs
    cases hs

/-- A move of a Gen2 decode writes Gen2's registers only, and stays inside the decode or ends it; only the 14-byte block writes `PAL`
(R191), and it sets `G2_PFX`. -/
theorem Moves.gen2_frame {s t : State} (h : Moves s t) (hs : s.phase.inG2 = true) :
    withoutGen2 t = withoutGen2 s ∧ (t.phase.inG2 = true ∨ t.phase = .idle) ∧
      (t.pal = s.pal ∧ (t.g2Pfx = s.g2Pfx ∨ t.g2Pfx = 0) ∨ 0 < s.srcLen ∧ s.srcByte 0 = 0xFF) := by
  cases h with
  | header _ _ _ _ _ hp | init _ hp | run _ _ hp | pair _ hp | switch hp | mode _ _ hp | post _ hp =>
    rw [hp] at hs
    cases hs
  | plain => exact ⟨rfl, .inl rfl, .inl ⟨rfl, .inr rfl⟩⟩
  | block _ _ _ _ hl hb => exact ⟨rfl, .inl rfl, .inr ⟨by omega, hb⟩⟩
  | command => exact ⟨rfl, .inl hs, .inl ⟨rfl, .inl rfl⟩⟩
  | stop => exact ⟨rfl, .inl rfl, .inl ⟨rfl, .inl rfl⟩⟩
  | operand => exact ⟨rfl, .inl rfl, .inl ⟨rfl, .inl rfl⟩⟩
  | transfer => exact ⟨rfl, .inl rfl, .inl ⟨rfl, .inl rfl⟩⟩
  | layout _ _ ht =>
    obtain ⟨w, y, u, -, rfl, -, hf⟩ := g2Finish_eq_ok ht
    obtain ⟨_, _, _, _, _, _, _, _, rfl, -⟩ := finish_sizes hf
    exact ⟨rfl, .inr rfl, .inl ⟨rfl, .inl rfl⟩⟩

theorem Moves.frame {s t : State} (h : Moves s t) : DecodeFrame s t := by
  cases hs : s.phase.inG2 with
  | false => exact .of_withoutGen1 (h.gen1_frame hs).1
  | true => exact .of_withoutGen2 (h.gen2_frame hs).1

/-- A move leaves `ST` alone unless it ends the decode, which sets `DONE` (R150, R193). -/
theorem Moves.status {s t : State} (h : Moves s t) : t.st = s.st ∨ (t.st = s.st.finish ∧ t.phase = .idle) := by
  cases h with
  | pair p => exact .inl (pairElement_st p s)
  | post _ _ ht => exact .inr (g1Finish_frame ht).2
  | layout _ _ ht => exact .inr (g2Finish_frame ht).2.2
  | _ => exact .inl rfl

/-! ## Stops -/

theorem stop_inputs (e : Stop) (s : State) : SameInputs s (s.stop e) := by
  rcases e with k | r
  · exact ⟨rfl, rfl, rfl, rfl, rfl, rfl, rfl, rfl⟩
  · cases r <;> exact ⟨rfl, rfl, rfl, rfl, rfl, rfl, rfl, rfl⟩

/-- A stop keeps what the first fault and the first refusal left in `ST` (R45). -/
theorem stop_sticky (e : Stop) (s : State) :
    (s.st.err = true → (s.stop e).st.err = true ∧ (s.stop e).st.errKind = s.st.errKind) ∧
    (s.st.refused = true → (s.stop e).st.refused = true ∧ (s.stop e).st.refReason = s.st.refReason) := by
  rcases e with k | r
  · exact ⟨fun h => ⟨rfl, if_pos h⟩, fun h => ⟨h, rfl⟩⟩
  · rw [stop_refuse_st]
    exact ⟨fun h => ⟨h, rfl⟩, fun h => ⟨rfl, if_pos h⟩⟩

/-! ## The bodies of the LZ3 commands -/

theorem copyLiterals_took {n : Nat} {s t : State} (h : copyLiterals n s = .ok t) :
    ∃ bs, bs.length = n ∧ t = { s with g2Ip := s.g2Ip + n, bufD := s.bufD ++ bs } := by
  cases n with
  | zero => cases h; exact ⟨[], rfl, by simp⟩
  | succ n =>
    have hl : s.g2Ip ≤ s.srcLen := by
      rw [copyLiterals] at h
      split at h; · cases h
      next hu =>
        obtain ⟨hl, -⟩ := nextByte_eq_ok hu
        omega
    obtain ⟨bs, hbs, -, ht⟩ := copyLiterals_eq_ok h hl
    exact ⟨bs, hbs, ht⟩

/-- The address operand, then a transfer that appends `G2_LEN` bytes. -/
theorem backReference_took {f : LzForm} {transfer : State → Op State} {s t : State} (hb : operandBytes f s = operandLen s)
    (htr : ∀ u v, transfer u = .ok v → ∃ bs, bs.length = u.g2Len ∧ v = { u with bufD := u.bufD ++ bs })
    (h : backReference transfer (headed f s) = .ok t) :
    ∃ b bs, bs.length = f.len ∧ t = { headed f s with
      g2Ip := s.g2Ip + f.bytes + operandBytes f s (s.g2Ip + f.bytes), g2Start := b, bufD := s.bufD ++ bs } := by
  unfold backReference at h
  rw [readStart_spec] at h
  split at h; · cases h
  next hu =>
    split at hu <;> cases hu
    obtain ⟨bs, hbs, rfl⟩ := htr _ _ h
    exact ⟨_, bs, hbs, by rw [hb]; rfl⟩

/-- A body that completes has taken its operand bytes and appended `G2_LEN` bytes (R216); nothing else changes. -/
theorem lzBody_took {i : Instr} {f : LzForm} {s t : State} (hf : lzForm i = some f) (h : lzBody f.cmd.toNat (headed f s) = .ok t) :
    ∃ b bs, bs.length = f.len ∧ t = { headed f s with
      g2Ip := s.g2Ip + f.bytes + operandBytes f s (s.g2Ip + f.bytes), g2Start := b, bufD := s.bufD ++ bs } := by
  obtain ⟨-, -, -, -, -, hc⟩ := exec_lzForm hf s
  generalize hcmd : f.cmd.toNat = c at h hc
  unfold lzBody at h
  split at h
  case h_1 =>
    obtain ⟨bs, hbs, rfl⟩ := copyLiterals_took h
    exact ⟨_, bs, hbs, by simp only [operandBytes, hcmd]; rfl⟩
  case h_2 =>
    unfold fillBody at h
    split at h; · cases h
    next hu =>
      obtain ⟨-, rfl, rfl⟩ := nextByte_eq_ok hu
      rw [appendAll_eq_ok h]
      exact ⟨_, _, List.length_replicate, by simp only [operandBytes, hcmd]; rfl⟩
  case h_3 =>
    unfold wfillBody at h
    split at h; · cases h
    next hu =>
      obtain ⟨-, rfl, rfl⟩ := nextByte_eq_ok hu
      split at h; · cases h
      next hu' =>
        obtain ⟨-, rfl, rfl⟩ := nextByte_eq_ok hu'
        rw [appendAll_eq_ok h]
        exact ⟨_, _, alternate_length _ _ _, by simp only [operandBytes, hcmd]; rfl⟩
  case h_4 =>
    unfold zeroBody at h
    rw [appendAll_eq_ok h]
    exact ⟨_, _, List.length_replicate, by simp only [operandBytes, hcmd]; rfl⟩
  case h_5 =>
    refine backReference_took (by funext a; simp only [operandBytes, hcmd]) (fun u v huv => ?_) h
    obtain ⟨-, -, -, rfl⟩ := repTransfer_eq_ok huv
    exact ⟨_, by simp [forwardRange], rfl⟩
  case h_6 =>
    refine backReference_took (by funext a; simp only [operandBytes, hcmd]) (fun u v huv => ?_) h
    obtain ⟨-, -, -, rfl⟩ := brevTransfer_eq_ok huv
    exact ⟨_, by simp [forwardRange], rfl⟩
  case h_7 h0 h1 h2 h3 h4 h5 =>
    have hcmd : f.cmd.toNat = 6 := by rw [hcmd]; interval_cases c <;> simp_all
    refine backReference_took (by funext a; simp only [operandBytes, hcmd]) (fun u v huv => ?_) h
    obtain ⟨-, -, -, rfl⟩ := backTransfer_eq_ok huv
    exact ⟨_, by simp [backwardRange], rfl⟩

/-! ## One element run on its own -/

/-- A Gen1 element stops, or writes Gen1's registers only and takes the bits of its encoding. -/
theorem exec_gen1_element {i : Instr} {s t : State} (hc : i.ctx.byteGranular = false) (hi : i.ctx ≠ .command) (h : exec i s = .next t) :
    (∃ e, t = s.stop e) ∨ (withoutGen1 t = withoutGen1 s ∧ t.st = s.st ∧ t.rdPos = s.rdPos + (encode i).length) := by
  cases hx : i.ctx with
  | header =>
    cases i <;> cases hx
    rcases settle_cases h with ht | ⟨e, -, rfl⟩
    · obtain ⟨tw, th, -, -, rfl⟩ := header_eq_ok ht
      exact .inr ⟨rfl, rfl, rdPos_advance 9 s⟩
    · exact .inl ⟨e, rfl⟩
  | init => cases i <;> cases hx <;> cases h <;> exact .inr ⟨rfl, rfl, rdPos_advance 1 s⟩
  | rle =>
    obtain ⟨k, v, hr, hl⟩ := rle_is_run hx
    rw [exec_runParts hr] at h
    rcases settle_cases h with ht | ⟨e, -, rfl⟩
    · right
      rw [hl]
      rcases emitRun_eq_ok ht with ⟨-, rfl⟩ | ⟨-, -, rfl⟩ <;> exact ⟨rfl, rfl, rdPos_advance _ s⟩
    · exact .inl ⟨e, rfl⟩
  | data =>
    obtain ⟨hl, ⟨p, hp⟩ | hp⟩ := data_is_pair hx <;> rw [hp] at h <;> cases h <;> right
    · rw [hl]
      refine ⟨withoutGen1_pairElement p s, pairElement_st p s, ?_⟩
      rw [pairElement_eq]
      exact rdPos_advance 2 s
    · rw [hl]
      exact ⟨rfl, rfl, rdPos_advance 2 s⟩
  | mode =>
    obtain ⟨m, n, -, -, hl, hm⟩ := mode_is_mode hx
    rw [hm] at h
    cases h
    right
    rw [hl]
    exact ⟨rfl, rfl, rdPos_advance n s⟩
  | pfx | lz | addr => rw [hx] at hc; cases hc
  | command => exact absurd hx hi

/-- A Gen2 element stops, or writes Gen2's registers only; of them the 14-byte block alone writes `PAL` (R191). -/
theorem exec_gen2_element {i : Instr} {s t : State} (hc : i.ctx.byteGranular = true) (h : exec i s = .next t) :
    (∃ e, t = s.stop e) ∨ (withoutGen2 t = withoutGen2 s ∧ t.st = s.st ∧ (i.ctx ≠ .pfx → t.pal = s.pal)) := by
  cases hx : i.ctx with
  | pfx =>
    cases i <;> cases hx
    rcases settle_cases h with ht | ⟨e, -, rfl⟩
    · obtain ⟨pw, ph, -, -, rfl⟩ := loadPfx_eq_ok ht
      exact .inr ⟨rfl, rfl, fun hp => absurd rfl hp⟩
    · exact .inl ⟨e, rfl⟩
  | lz =>
    rcases lz_is_command hx with ⟨f, hf⟩ | rfl | hill
    · rw [(exec_lzForm hf s).1] at h
      rcases settle_cases h with ht | ⟨e, -, rfl⟩
      · obtain ⟨b, bs, -, rfl⟩ := lzBody_took hf ht
        exact .inr ⟨rfl, rfl, fun _ => rfl⟩
      · exact .inl ⟨e, rfl⟩
    · cases h
      exact .inr ⟨rfl, rfl, fun _ => rfl⟩
    · rw [hill] at h
      cases h
      exact .inl ⟨_, rfl⟩
  | addr => cases i <;> cases hx <;> cases h <;> exact .inr ⟨rfl, rfl, fun _ => rfl⟩
  | header | init | rle | data | mode | command => rw [hx] at hc; cases hc

/-- An element that does not stop keeps what every decode keeps, and `ST`. -/
theorem exec_element {i : Instr} {s t : State} (hi : i.ctx ≠ .command) (h : exec i s = .next t) :
    (∃ e, t = s.stop e) ∨ (DecodeFrame s t ∧ t.st = s.st ∧ (i.ctx ≠ .pfx → t.pal = s.pal)) := by
  cases hc : i.ctx.byteGranular with
  | false =>
    refine (exec_gen1_element hc hi h).imp_right fun ⟨hf, hst, _⟩ => ⟨.of_withoutGen1 hf, hst, fun _ => ?_⟩
    exact (congrArg State.pal hf :)
  | true => exact (exec_gen2_element hc h).imp_right fun ⟨hf, hst, hp⟩ => ⟨.of_withoutGen2 hf, hst, hp⟩

/-- Settles O33: a Gen1 element that completes has not stopped, and then it has taken its own bits. -/
theorem elementsTakeTheirOwnBits : Obligations.ElementsTakeTheirOwnBits := by
  intro i s t hc h hst
  have hgen1 : i.ctx.byteGranular = false ∧ i.ctx ≠ .command := by
    rcases hc with hc | hc | hc | hc | hc <;> rw [hc] <;> exact ⟨rfl, by decide⟩
  rcases exec_gen1_element hgen1.1 hgen1.2 h with ⟨e, rfl⟩ | ⟨-, -, hpos⟩
  · rw [stop_stuck] at hst
    cases hst
  · exact hpos

/-- Settles O50: a command that completes has not stopped, and then its body has taken and appended what its header says. -/
theorem outputGrowsByTheLength : Obligations.OutputGrowsByTheLength := by
  intro i f s t hf h hst
  rw [(exec_lzForm hf s).1] at h
  rcases settle_cases h with ht | ⟨e, -, rfl⟩
  · obtain ⟨b, bs, hbs, rfl⟩ := lzBody_took hf ht
    exact ⟨List.prefix_append _ _, by rw [List.length_append, hbs], rfl⟩
  · rw [stop_stuck] at hst
    cases hst

end Sys2Proof.Machine

/-! PROOFS. Commands and whole decodes (44_host_commands.md R251, R253, R257, R258): a decode ends within its bound, it is the run of its
element steps, and what its steps keep it keeps. -/

namespace Sys2Proof.Machine

/-! ## The prologue -/

/-- A command is refused by its prologue or runs its body (R253). -/
theorem command_cases {c : BitVec 4} {body : State → Result} {s t : State} (h : command c body s = .next t) :
    (∃ r, prologue c s = some r ∧ t = s.stop (.refuse r)) ∨ (prologue c s = none ∧ body s = .next t) := by
  unfold command at h
  split at h
  · next r hr => cases h; exact .inl ⟨r, hr, rfl⟩
  · next hr => exact .inr ⟨hr, h⟩

theorem command_next {c : BitVec 4} {body : State → Result} {s : State} (h : ∃ t, body s = .next t) : ∃ t, command c body s = .next t := by
  unfold command
  split
  · exact ⟨_, rfl⟩
  · exact h

theorem badOverride_of_ok {s : State} (h : overrideOk s) : badOverride s = false := by
  unfold badOverride
  cases ho : s.ovrEn with
  | false => rfl
  | true =>
    obtain ⟨hw, hh⟩ := h ho
    rw [Bool.true_and, Bool.or_eq_false_iff]
    exact ⟨beq_false_of_ne hw, beq_false_of_ne hh⟩

/-- An accepted decode command passes every test of the prologue. -/
theorem prologue_decode {c : BitVec 4} {s : State} (hc : c = 0x8 ∨ c = 0x9) (h : decodeAccepted s) : prologue c s = none := by
  obtain ⟨hst, hfit, hovr⟩ := h
  rcases hc with rfl | rfl <;>
    simp [prologue, reservedCode, hst, sourceTooLong_of_fits hfit, badOverride_of_ok hovr]

/-- Past the prologue of a command other than `RESET` no fault or refusal stands (R283). -/
theorem not_stuck_of_prologue {c : BitVec 4} {s : State} (hc : c ≠ 1) (h : prologue c s = none) : s.st.stuck = false := by
  cases hst : s.st.stuck with
  | false => rfl
  | true => rw [prologue_stuck hc hst] at h; cases h

theorem exec_g1Decode {s : State} (h : decodeAccepted s) : exec .g1Decode s = runDecode g1Begin s :=
  command_of_none (prologue_decode (.inl rfl) h)

theorem exec_g2Decode {s : State} (h : decodeAccepted s) : exec .g2Decode s = runDecode g2Begin s :=
  command_of_none (prologue_decode (.inr rfl) h)

/-! ## The element loop -/

/-- Outside the idle phase a decode has a pass left. -/
theorem passesLeft_pos {s : State} (h : s.phase ≠ .idle) : 0 < passesLeft s := by
  unfold passesLeft
  split <;> first | omega | (next hp => exact absurd hp h)

/-- Every step of a decode leaves fewer passes, a stop none. -/
theorem step_passesLeft {s : State} (h : s.phase ≠ .idle) : ∃ t, step s = .next t ∧ passesLeft t < passesLeft s := by
  obtain ⟨t, ht, ⟨e, he, rfl⟩ | hm⟩ := step_moves h
  · refine ⟨_, ht, ?_⟩
    have hidle : passesLeft (s.stop e) = 0 := by
      unfold passesLeft
      rw [stop_idle he]
    rw [hidle]
    exact passesLeft_pos h
  · exact ⟨t, ht, hm.passesLeft_lt⟩

theorem core_run_succ {s t : State} (k : Nat) (h : step s = .next t) : core.run (k + 1) s = core.run k t := by
  have hs : core.step s = .next t := h
  simp only [Host.Core.run, hs]

/-- THE DECODE ENDS: within as many passes as are left the steps reach an idle state, and the element loop answers it. -/
theorem decodeLoop_reaches_idle {n : Nat} {s : State} (h : passesLeft s ≤ n) :
    ∃ k t, k ≤ n ∧ core.run k s = .next t ∧ t.phase = .idle ∧ decodeLoop n s = .next t := by
  induction n generalizing s with
  | zero =>
    have hidle : s.phase = .idle := by
      by_contra hp
      have := passesLeft_pos hp
      omega
    exact ⟨0, s, le_refl 0, rfl, hidle, decodeLoop_idle 0 hidle⟩
  | succ n ih =>
    by_cases hidle : s.phase = .idle
    · exact ⟨0, s, Nat.zero_le _, rfl, hidle, decodeLoop_idle _ hidle⟩
    · obtain ⟨t, ht, hlt⟩ := step_passesLeft hidle
      obtain ⟨k, u, hk, hrun, hu, hloop⟩ := ih (s := t) (by omega)
      exact ⟨k + 1, u, by omega, by rw [core_run_succ k ht, hrun], hu, by rw [decodeLoop_step n hidle ht, hloop]⟩

theorem passesLeft_g1Begin (s : State) : passesLeft (g1Begin s) ≤ loopBound s := by
  show 8 * s.srcLen - (g1Begin s).rdPos + 2 ≤ 8 * s.srcLen + 4
  omega

theorem passesLeft_g2Begin (s : State) : passesLeft (g2Begin s) ≤ loopBound s := by
  show 8 * s.srcLen + 3 ≤ 8 * s.srcLen + 4
  omega

/-- Settles O56: the prologue lets the command through, and its body is the element loop from the start state. -/
theorem decodeIsTheRunOfItsElements : Obligations.DecodeIsTheRunOfItsElements := by
  intro s h
  obtain ⟨k, t, hk, hrun, ht, hloop⟩ := decodeLoop_reaches_idle (passesLeft_g1Begin s)
  obtain ⟨k', t', hk', hrun', ht', hloop'⟩ := decodeLoop_reaches_idle (passesLeft_g2Begin s)
  exact ⟨⟨k, t, hk, hrun, ht, (exec_g1Decode h).trans hloop⟩, ⟨k', t', hk', hrun', ht', (exec_g2Decode h).trans hloop'⟩⟩

/-! ## Every step answers -/

theorem runDecode_next {start : State → State} {s : State} (h : passesLeft (start s) ≤ loopBound s) : ∃ t, runDecode start s = .next t := by
  obtain ⟨_, t, _, _, _, ht⟩ := decodeLoop_reaches_idle h
  exact ⟨t, ht⟩

/-- What a host command does once its prologue has let it through (R255 to R262); a reserved code never gets there. -/
def commandBody (i : Instr) : State → Result :=
  match i with
  | .reset => fun s => .next s.afterReset
  | .bcOpen => fun s => .next (openCursors s)
  | .bcRead => fun s => settle s (readField s)
  | .bcWrite => fun s => settle s (writeField s)
  | .bcFlush => fun s => settle s (flush s)
  | .g1Decode => runDecode g1Begin
  | .g2Decode => runDecode g2Begin
  | _ => .next

/-- The code of a host command is its encoding (R113). -/
def commandCode (i : Instr) : BitVec 4 := .ofNat 4 (bitsToNat (encode i))

/-- Each host command is the prologue of its own code and then its body (R253). -/
theorem exec_command {i : Instr} (h : i.ctx = .command) (s : State) : exec i s = command (commandCode i) (commandBody i) s := by
  cases i <;> cases h <;> rfl

theorem decodeCommand_commandCode {i : Instr} (h : i.ctx = .command) : decodeCommand (commandCode i) = i := by
  cases i <;> cases h <;> rfl

/-- `RESET` alone has the code 1. -/
theorem commandCode_ne_one {i : Instr} (h : i.ctx = .command) (hr : i ≠ .reset) : commandCode i ≠ 1 := by
  intro h1
  have hi := decodeCommand_commandCode h
  rw [h1] at hi
  exact hr hi.symm

/-- The body of every host command answers a next state (R251). -/
theorem commandBody_next {i : Instr} (h : i.ctx = .command) (s : State) : ∃ t, commandBody i s = .next t := by
  cases i <;> cases h
  case bcRead => exact settle_next s (readField s)
  case bcWrite => exact settle_next s (writeField s)
  case bcFlush => exact settle_next s (flush s)
  case g1Decode => exact runDecode_next (passesLeft_g1Begin s)
  case g2Decode => exact runDecode_next (passesLeft_g2Begin s)
  all_goals exact ⟨_, rfl⟩

theorem exec_command_next {i : Instr} (h : i.ctx = .command) (s : State) : ∃ t, exec i s = .next t := by
  rw [exec_command h]
  exact command_next (commandBody_next h s)

theorem step_idle_issued {s : State} (hp : s.phase = .idle) (hi : s.issued = true) :
    step s = exec (decodeCommand s.cmd) { s with issued := false } := by
  rw [step, if_pos hp, if_pos hi]

theorem step_idle_waits {s : State} (hp : s.phase = .idle) (hi : s.issued = false) : step s = .next s := by
  rw [step, if_pos hp, if_neg (by rw [hi]; decide)]

/-- Settles O55: inside a decode by `step_moves`, between commands because every command answers. -/
theorem everyStepAnswersANextState : Obligations.EveryStepAnswersANextState := by
  intro s
  by_cases hp : s.phase = .idle
  · cases hi : s.issued with
    | true => rw [step_idle_issued hp hi]; exact exec_command_next (decodeCommand_ctx _) _
    | false => exact ⟨s, step_idle_waits hp hi⟩
  · obtain ⟨t, ht, -⟩ := step_moves hp
    exact ⟨t, ht⟩

/-- A place the block fetches from is not the idle phase. -/
theorem phase_ne_idle_of_fetchCtx {s : State} {c : Ctx} (h : fetchCtx s = some c) : s.phase ≠ .idle := by
  intro hp
  rw [fetchCtx, hp] at h
  cases h

/-- Settles O54: `step` dispatches on the phase, and what is fetched is what is run. -/
theorem stepRunsTheDecodedInstruction : Obligations.StepRunsTheDecodedInstruction := by
  refine fun s => ⟨fun c i rest hc hd => ?_, step_idle_issued, step_idle_waits⟩
  have hf : fetch c s = .ok (i, rest) := hd
  simp only [step, if_neg (phase_ne_idle_of_fetchCtx hc), elementStep, hc, hf]

/-! ## What a decode keeps -/

/-- THE END OF A DECODE: a property of its start state that every move keeps holds at the end, or the decode has stopped in a state that
has it. -/
theorem decodeLoop_cases {P : State → Prop} (hmove : ∀ u v, u.phase ≠ .idle → P u → Moves u v → P v) {n : Nat} {s t : State}
    (hs : P s) (h : decodeLoop n s = .next t) :
    (P t ∧ t.phase = .idle) ∨ ∃ u e, P u ∧ u.phase ≠ .idle ∧ e ≠ .refuse .afterFault ∧ t = u.stop e := by
  induction n generalizing s with
  | zero =>
    unfold decodeLoop at h
    split at h
    · next hp => cases h; exact .inl ⟨hs, hp⟩
    · cases h
  | succ n ih =>
    by_cases hp : s.phase = .idle
    · rw [decodeLoop_idle _ hp] at h
      cases h
      exact .inl ⟨hs, hp⟩
    · obtain ⟨u, hu, ho⟩ := step_moves hp
      rw [decodeLoop_step n hp hu] at h
      rcases ho with ⟨e, he, rfl⟩ | hm
      · rw [decodeLoop_idle _ (stop_idle he)] at h
        cases h
        exact .inr ⟨s, e, hs, hp, he, rfl⟩
      · exact ih (hmove s u hp hs hm) h

/-- What a Gen1 decode has written so far is Gen1's (R257). -/
structure InGen1 (s u : State) : Prop where
  frame : withoutGen1 u = withoutGen1 s
  phase : u.phase.inG2 = false

/-- What a Gen2 decode has written so far is Gen2's (R258), and `PAL` only if the source begins with `0xFF` (R190, R191). -/
structure InGen2 (s u : State) : Prop where
  frame : withoutGen2 u = withoutGen2 s
  phase : u.phase = .idle ∨ u.phase.inG2 = true
  palette : u.pal = s.pal ∧ u.g2Pfx = 0 ∨ 0 < s.srcLen ∧ s.srcByte 0 = 0xFF

theorem srcByte_congr {s t : State} (h : SameInputs s t) (a : Nat) : t.srcByte a = s.srcByte a := by
  obtain ⟨hsrc, hdraw, -⟩ := h
  unfold State.srcByte
  rw [hsrc, hdraw]

theorem g1Decode_cases {s t : State} (h : runDecode g1Begin s = .next t) :
    InGen1 s t ∨ ∃ u e, InGen1 s u ∧ e ≠ .refuse .afterFault ∧ t = u.stop e := by
  have hmove (u v : State) (_ : u.phase ≠ .idle) (hu : InGen1 s u) (hm : Moves u v) : InGen1 s v := by
    obtain ⟨hf, hp⟩ := hm.gen1_frame hu.phase
    exact ⟨hf.trans hu.frame, hp⟩
  rcases decodeLoop_cases hmove ⟨withoutGen1_g1Begin s, rfl⟩ h with ⟨ht, -⟩ | ⟨u, e, hu, -, he, ht⟩
  · exact .inl ht
  · exact .inr ⟨u, e, hu, he, ht⟩

theorem g2Decode_cases {s t : State} (h : runDecode g2Begin s = .next t) :
    InGen2 s t ∨ ∃ u e, InGen2 s u ∧ e ≠ .refuse .afterFault ∧ t = u.stop e := by
  have hmove (u v : State) (hne : u.phase ≠ .idle) (hu : InGen2 s u) (hm : Moves u v) : InGen2 s v := by
    obtain ⟨hf, hp, hpal⟩ := hm.gen2_frame (hu.phase.resolve_left hne)
    have hin : SameInputs s u := (DecodeFrame.of_withoutGen2 hu.frame).inputs
    refine ⟨hf.trans hu.frame, hp.symm, ?_⟩
    rcases hpal with ⟨hpal, hpfx⟩ | ⟨hlen, hff⟩
    · refine hu.palette.imp_left fun ⟨hpal0, hpfx0⟩ => ⟨hpal.trans hpal0, ?_⟩
      rcases hpfx with hpfx | hpfx
      · exact hpfx.trans hpfx0
      · exact hpfx
    · have hl : u.srcLen = s.srcLen := hin.2.2.1
      exact .inr ⟨hl ▸ hlen, srcByte_congr hin 0 ▸ hff⟩
  rcases decodeLoop_cases hmove ⟨withoutGen2_g2Begin s, .inr rfl, .inl ⟨rfl, rfl⟩⟩ h with ⟨ht, -⟩ | ⟨u, e, hu, -, he, ht⟩
  · exact .inl ht
  · exact .inr ⟨u, e, hu, he, ht⟩

/-- What the first fault and the first refusal left in `ST` stands in `t` as in `s` (R45). -/
def Sticky (s t : State) : Prop :=
  (s.st.err = true → t.st.err = true ∧ t.st.errKind = s.st.errKind) ∧
  (s.st.refused = true → t.st.refused = true ∧ t.st.refReason = s.st.refReason)

theorem Sticky.trans {s t u : State} (h : Sticky s t) (h' : Sticky t u) : Sticky s u := by
  constructor
  · intro he
    obtain ⟨ht, hk⟩ := h.1 he
    obtain ⟨hu, hk'⟩ := h'.1 ht
    exact ⟨hu, hk'.trans hk⟩
  · intro hr
    obtain ⟨ht, hk⟩ := h.2 hr
    obtain ⟨hu, hk'⟩ := h'.2 ht
    exact ⟨hu, hk'.trans hk⟩

/-- `DONE` apart, the same `ST`. -/
theorem Sticky.of_begin {s t : State} (h : t.st.begin = s.st.begin) : Sticky s t :=
  ⟨fun he => ⟨(congrArg Status.err h :).trans he, (congrArg Status.errKind h :)⟩,
   fun hr => ⟨(congrArg Status.refused h :).trans hr, (congrArg Status.refReason h :)⟩⟩

theorem sameInputs_refl (s : State) : SameInputs s s := ⟨rfl, rfl, rfl, rfl, rfl, rfl, rfl, rfl⟩

theorem sameInputs_trans {s t u : State} (h : SameInputs s t) (h' : SameInputs t u) : SameInputs s u := by
  obtain ⟨a1, a2, a3, a4, a5, a6, a7, a8⟩ := h
  obtain ⟨b1, b2, b3, b4, b5, b6, b7, b8⟩ := h'
  exact ⟨b1.trans a1, b2.trans a2, b3.trans a3, b4.trans a4, b5.trans a5, b6.trans a6, b7.trans a7, b8.trans a8⟩

/-- What every instruction but `RESET` keeps: the inputs, and the first fault and refusal (R45, R46). -/
structure Lasting (s t : State) : Prop where
  inputs : SameInputs s t
  sticky : Sticky s t

theorem Lasting.trans {s t u : State} (h : Lasting s t) (h' : Lasting t u) : Lasting s u := 
  ⟨sameInputs_trans h.inputs h'.inputs, h.sticky.trans h'.sticky⟩

theorem Lasting.stop (e : Stop) (s : State) : Lasting s (s.stop e) := ⟨stop_inputs e s, stop_sticky e s⟩

theorem DecodeFrame.lasting {s t : State} (h : DecodeFrame s t) : Lasting s t := ⟨h.inputs, .of_begin h.status⟩

theorem InGen1.keeps {s u : State} (h : InGen1 s u) : DecodeFrame s u := .of_withoutGen1 h.frame

theorem InGen2.keeps {s u : State} (h : InGen2 s u) : DecodeFrame s u := .of_withoutGen2 h.frame

/-! ## What the cursor commands keep -/

/-- One bit written (R135): pending, or the last of a byte. -/
theorem writeBit_eq_ok {b : Bool} {s t : State} (h : writeBit b s = .ok t) :
    (s.wrCnt = 7 ∧ t = { s with snk := s.snk ++ [s.accWith b], wrAcc := 0, wrCnt := 0 }) ∨
    (s.wrCnt ≠ 7 ∧ t = { s with wrAcc := s.accWith b, wrCnt := s.wrCnt + 1 }) := by
  by_cases h7 : s.wrCnt = 7
  · by_cases hr : sinkRoom s 1
    · rw [writeBit_last_room b h7 hr] at h
      cases h
      exact .inl ⟨h7, rfl⟩
    · rw [writeBit_last_full b h7 hr] at h
      cases h
  · rw [writeBit_pending b h7] at h
    cases h
    exact .inr ⟨h7, rfl⟩

/-- The bits below the pending ones stay zero (R25). -/
theorem writeBit_clean {b : Bool} {s t : State} (h : writeBit b s = .ok t) (hc : writerClean s) : writerClean t := by
  rcases writeBit_eq_ok h with ⟨-, rfl⟩ | ⟨h7, rfl⟩
  · intro i _
    simp
  · intro i hi
    have hi : i < 8 - (s.wrCnt + 1).toNat := hi
    rw [wrCnt_succ h7] at hi
    rw [accWith_bit, hc i (by omega), decide_eq_false (by omega)]
    rfl

/-- A field written changes the writer only (R135). -/
theorem writeBits_eq_ok {v n : Nat} {s t : State} (h : writeBits v n s = .ok t) :
    t = { s with snk := t.snk, wrAcc := t.wrAcc, wrCnt := t.wrCnt } ∧ (writerClean s → writerClean t) := by
  induction n generalizing s with
  | zero => cases h; exact ⟨rfl, id⟩
  | succ n ih =>
    unfold writeBits at h
    split at h; · cases h
    next u hu =>
      obtain ⟨ht, hclean⟩ := ih h
      refine ⟨ht.trans ?_, fun hc => hclean (writeBit_clean hu hc)⟩
      rcases writeBit_eq_ok hu with ⟨-, rfl⟩ | ⟨-, rfl⟩ <;> rfl

theorem flush_eq_ok {s t : State} (h : flush s = .ok t) : t = s ∨ ∃ k, t = { s with snk := k, wrAcc := 0, wrCnt := 0 } := by
  by_cases h0 : s.wrCnt = 0
  · rw [flush_empty h0] at h
    cases h
    exact .inl rfl
  · by_cases hr : sinkRoom s 1
    · rw [flush_room h0 hr] at h
      cases h
      exact .inr ⟨_, rfl⟩
    · rw [flush_full h0 hr] at h
      cases h

/-- A field read changes the reader and `RES` only (R132, R260), and ends inside the source unless it has no bit. -/
theorem readField_eq_ok {s t : State} (h : readField s = .ok t) : ∃ n v, t = { s.advance n with res := v } ∧
    (n = 0 ∨ s.rdPos + n ≤ 8 * s.srcLen) := by
  unfold readField at h
  rw [readBits_spec] at h
  split at h; · cases h
  next hu =>
    split at hu
    · next hn => cases hu; cases h; exact ⟨_, _, rfl, hn⟩
    · cases hu

/-- `BC.OPEN`, `BC.READ`, `BC.WRITE` and `BC.FLUSH` change the cursors, the sink and `RES` only. -/
def withoutCursor (s : State) : State := { openCursors s with res := 0 }

theorem cursorBody_cases {i : Instr} {s t : State} (hi : i ∈ [Instr.bcOpen, .bcRead, .bcWrite, .bcFlush]) (h : commandBody i s = .next t) :
    withoutCursor t = withoutCursor s ∨ ∃ e, t = s.stop e := by
  have hsettle {r : Op State} (hr : ∀ u, r = .ok u → withoutCursor u = withoutCursor s) (h : settle s r = .next t) :
      withoutCursor t = withoutCursor s ∨ ∃ e, t = s.stop e := by
    rcases settle_cases h with ht | ⟨e, -, rfl⟩
    · exact .inl (hr t ht)
    · exact .inr ⟨e, rfl⟩
  simp only [List.mem_cons, List.not_mem_nil, or_false] at hi
  rcases hi with rfl | rfl | rfl | rfl
  · cases h
    exact .inl rfl
  · refine hsettle (fun u hu => ?_) h
    obtain ⟨n, v, rfl, -⟩ := readField_eq_ok hu
    rfl
  · refine hsettle (fun u hu => ?_) h
    rw [(writeBits_eq_ok hu).1]
    rfl
  · refine hsettle (fun u hu => ?_) h
    rcases flush_eq_ok hu with rfl | ⟨k, rfl⟩ <;> rfl

/-! ## What every instruction keeps -/

/-- Whether a stop takes `PAL` from the block: not while a `G2.DECODE` with a 14-byte block is under way (R41). -/
theorem palWritten_of_untouched {s : State} (h : PaletteUntouched s) : s.palWritten = false := by
  unfold State.palWritten
  rcases h with h | h
  · rw [h, Bool.false_and]
  · rw [h, Bool.and_eq_false_iff]
    exact .inr rfl

/-- What every instruction but `RESET` keeps, and that only a `G2.DECODE` or its block writes `PAL`. -/
structure Kept (i : Instr) (s t : State) : Prop where
  lasting : Lasting s t
  palette : i ≠ .g2Decode → i.ctx ≠ .pfx → PaletteUntouched s → t.pal = s.pal

theorem Kept.stop (i : Instr) (e : Stop) (s : State) : Kept i s (s.stop e) :=
  ⟨.stop e s, fun _ _ h => stop_pal e (palWritten_of_untouched h)⟩

theorem commandBody_kept {i : Instr} {s t : State} (hc : i.ctx = .command) (hr : i ≠ .reset) (h : commandBody i s = .next t) : Kept i s t := by
  by_cases hcur : i ∈ [Instr.bcOpen, .bcRead, .bcWrite, .bcFlush]
  · rcases cursorBody_cases hcur h with ht | ⟨e, rfl⟩
    · exact ⟨⟨⟨(congrArg State.src ht :), (congrArg State.srcDraw ht :), (congrArg State.srcLen ht :), (congrArg State.cfg ht :),
        (congrArg State.cmd ht :), (congrArg State.arg0 ht :), (congrArg State.arg1 ht :), (congrArg State.params ht :)⟩,
        .of_begin (congrArg (fun u => u.st.begin) ht :)⟩, fun _ _ _ => (congrArg State.pal ht :)⟩
    · exact .stop i e s
  · by_cases h1 : i = .g1Decode
    · subst h1
      rcases g1Decode_cases h with ht | ⟨u, e, hu, -, rfl⟩
      · exact ⟨ht.keeps.lasting, fun _ _ _ => (congrArg State.pal ht.frame :)⟩
      · have hpal : (u.stop e).pal = u.pal := stop_pal e (palWritten_of_untouched (.inl hu.phase))
        exact ⟨hu.keeps.lasting.trans (.stop e u), fun _ _ _ => hpal.trans (congrArg State.pal hu.frame :)⟩
    · by_cases h2 : i = .g2Decode
      · subst h2
        rcases g2Decode_cases h with ht | ⟨u, e, hu, -, rfl⟩
        · exact ⟨ht.keeps.lasting, fun hne => absurd rfl hne⟩
        · exact ⟨hu.keeps.lasting.trans (.stop e u), fun hne => absurd rfl hne⟩
      · obtain rfl : s = t := by
          cases i <;> cases hc
          case reset => exact absurd rfl hr
          case bcOpen | bcRead | bcWrite | bcFlush => exact absurd (by decide) hcur
          case g1Decode => exact absurd rfl h1
          case g2Decode => exact absurd rfl h2
          all_goals injection h
        exact ⟨⟨sameInputs_refl s, .of_begin rfl⟩, fun _ _ _ => rfl⟩

theorem exec_kept {i : Instr} {s t : State} (hr : i ≠ .reset) (h : exec i s = .next t) : Kept i s t := by
  by_cases hc : i.ctx = .command
  · rw [exec_command hc] at h
    rcases command_cases h with ⟨r, -, rfl⟩ | ⟨-, hb⟩
    · exact .stop i _ s
    · exact commandBody_kept hc hr hb
  · rcases exec_element hc h with ⟨e, rfl⟩ | ⟨hf, -, hp⟩
    · exact .stop i e s
    · exact ⟨hf.lasting, fun _ hpfx _ => hp hpfx⟩

/-- Settles O20. -/
theorem errorsAreSticky : Obligations.ErrorsAreSticky :=
  fun _ _ _ hr h => (exec_kept hr h).lasting.sticky

/-- Settles O21: without `0xFF` at its start a source has no block, so its decode never replaces `PAL`. -/
theorem inputsAreNeverWritten : Obligations.InputsAreNeverWritten := by
  intro i s t hr h
  have hk := exec_kept hr h
  refine ⟨hk.lasting.inputs, hk.palette, ?_⟩
  rintro rfl hpal hsrc
  have noBlock (hb : 0 < s.srcLen ∧ s.srcByte 0 = 0xFF) : False := by
    obtain ⟨hlen, hff⟩ := hb
    rcases hsrc with h0 | hne
    · omega
    · exact hne hff
  rw [exec_command rfl] at h
  rcases command_cases h with ⟨r, -, rfl⟩ | ⟨-, hb⟩
  · exact stop_pal _ (palWritten_of_untouched hpal)
  · rcases g2Decode_cases hb with ht | ⟨u, e, hu, -, rfl⟩
    · obtain ⟨hp, -⟩ := ht.palette.resolve_right noBlock
      exact hp
    · obtain ⟨hp, hpfx⟩ := hu.palette.resolve_right noBlock
      exact (stop_pal e (palWritten_of_untouched (.inr hpfx))).trans hp

/-- A fault keeps the bytes emitted before it (R63); a refusal sets `REFUSED`. -/
theorem snk_stop {e : Stop} {s : State} (h : (s.stop e).st.refused = false) : s.snk <+: (s.stop e).snk := by
  rcases e with k | r
  · exact snk_prefix_afterFault s
  · rw [stop_refuse_st] at h
    cases h

/-- Settles O22: a decode that does not stop has written its own registers only, and until it stops the sink is as it was. -/
theorem decodesLeaveOtherUnitsAlone : Obligations.DecodesLeaveOtherUnitsAlone := by
  intro s t _
  have refusedAtOnce {c : BitVec 4} {body : State → Result} (h : command c body s = .next t) (href : t.st.refused = false) :
      body s = .next t := by
    rcases command_cases h with ⟨r, -, rfl⟩ | ⟨-, hb⟩
    · rw [stop_refuse_st] at href
      cases href
    · exact hb
  have not_refused (hst : t.st.stuck = false) : t.st.refused = false := (Bool.or_eq_false_iff.mp hst).2
  have stopped {u : State} {e : Stop} (he : t = u.stop e) (hst : t.st.stuck = false) : False := by
    rw [he, stop_stuck] at hst
    cases hst
  refine ⟨?_, ?_, ?_⟩
  · rintro (h | h) href
    · rcases g1Decode_cases (refusedAtOnce h href) with ht | ⟨u, e, hu, -, rfl⟩
      · rw [ht.keeps.writer.2.2.1]
      · rw [← hu.keeps.writer.2.2.1]
        exact snk_stop href
    · rcases g2Decode_cases (refusedAtOnce h href) with ht | ⟨u, e, hu, -, rfl⟩
      · rw [ht.keeps.writer.2.2.1]
      · rw [← hu.keeps.writer.2.2.1]
        exact snk_stop href
  · intro h hst
    rcases g1Decode_cases (refusedAtOnce h (not_refused hst)) with ht | ⟨u, e, -, -, he⟩
    · have hf := ht.frame
      obtain ⟨hacc, hcnt, hsnk, hres⟩ := ht.keeps.writer
      exact ⟨hacc, hcnt, hsnk, hres, (congrArg State.pal hf :), (congrArg State.g2Ip hf :), (congrArg State.bufD hf :),
        (congrArg State.g2Cmd hf :), (congrArg State.g2Len hf :), (congrArg State.g2Start hf :), (congrArg State.g2Long hf :),
        (congrArg State.g2Pfx hf :), (congrArg State.g2Tw hf :), (congrArg State.g2Th hf :)⟩
    · exact absurd hst (fun hst => stopped he hst)
  · intro h hst
    rcases g2Decode_cases (refusedAtOnce h (not_refused hst)) with ht | ⟨u, e, -, -, he⟩
    · have hf := ht.frame
      obtain ⟨hacc, hcnt, hsnk, hres⟩ := ht.keeps.writer
      exact ⟨hacc, hcnt, hsnk, hres, (congrArg State.rdByte hf :), (congrArg State.rdBit hf :), (congrArg State.g1Tw hf :),
        (congrArg State.g1Th hf :), (congrArg State.g1Primary hf :), (congrArg State.g1Mode hf :), (congrArg State.g1State hf :),
        (congrArg State.g1Emit hf :), (congrArg State.g1Total hf :), (congrArg State.g1Cur hf :), (congrArg State.ds hf :),
        (congrArg State.bufB hf :), (congrArg State.bufC hf :)⟩
    · exact absurd hst (fun hst => stopped he hst)

end Sys2Proof.Machine

/-! PROOFS. The invariant of the block (10_state.md R21 to R45; 20_memory.md R60): it holds after a reset, and stops, the moves of a
decode and the host commands keep it. -/

namespace Sys2Proof.Machine

/-! ## `ST` -/

theorem ErrKind.code_legal (k : ErrKind) : k.code.toNat ≤ 4 ∧ k.code ≠ 0 := by
  cases k <;> decide

theorem RefReason.code_legal (r : RefReason) : r.code.toNat ≤ 6 ∧ r.code ≠ 0 := by
  cases r <;> decide

/-- A fault leaves a kind between 1 and 4, the first one's (R45, R271). -/
theorem raise_errKind (k : ErrKind) {t : Status} (h : t.errKind.toNat ≤ 4 ∧ (t.err = false ↔ t.errKind = 0)) :
    (t.raise k).errKind.toNat ≤ 4 ∧ ((t.raise k).err = false ↔ (t.raise k).errKind = 0) := by
  obtain ⟨hle, hzero⟩ := h
  obtain ⟨hk, hk0⟩ := k.code_legal
  unfold Status.raise
  cases he : t.err with
  | false => exact ⟨hk, iff_of_false (show ¬true = false by decide) hk0⟩
  | true => exact ⟨hle, iff_of_false (show ¬true = false by decide) fun h => absurd (hzero.mpr h) (by rw [he]; decide)⟩

/-- A refusal leaves a reason between 1 and 6, the first one's (R45, R280). -/
theorem refuse_refReason (r : RefReason) {t : Status} (h : t.refReason.toNat ≤ 6 ∧ (t.refused = false ↔ t.refReason = 0)) :
    (t.refuse r).refReason.toNat ≤ 6 ∧ ((t.refuse r).refused = false ↔ (t.refuse r).refReason = 0) := by
  obtain ⟨hle, hzero⟩ := h
  obtain ⟨hr, hr0⟩ := r.code_legal
  unfold Status.refuse
  cases he : t.refused with
  | false => exact ⟨hr, iff_of_false (show ¬true = false by decide) hr0⟩
  | true => exact ⟨hle, iff_of_false (show ¬true = false by decide) fun h => absurd (hzero.mpr h) (by rw [he]; decide)⟩

/-- A stop keeps the invariant, where it leaves the block idle. -/
theorem inv_stop {e : Stop} {s : State} (h : Inv s) (hidle : (s.stop e).phase = .idle) : Inv (s.stop e) := by
  have hin := stop_inputs e s
  refine ⟨by rw [hin.1]; exact h.memory, ?_, ?_, ?_, ?_, fun hp => absurd hidle hp, ?_⟩
  · rcases e with k | r
    · exact raise_errKind k h.errKind
    · rw [stop_refuse_st]; exact h.errKind
  · rcases e with k | r
    · exact h.refReason
    · rw [stop_refuse_st]; exact refuse_refReason r h.refReason
  · have hcfg : (s.stop e).cfg = s.cfg := hin.2.2.2.1
    rw [hcfg]; exact h.cfg
  · intro hd; rw [stop_not_done] at hd; cases hd
  · intro hst; rw [stop_stuck] at hst; cases hst

/-- The invariant after an update that leaves the source, `CFG` and all of `ST` but `DONE` alone. -/
theorem inv_of_live {s t : State} (h : Inv s) (hs : s.st.stuck = false) (hsrc : t.src = s.src) (hcfg : t.cfg = s.cfg)
    (hst : t.st.begin = s.st.begin) (hdone : t.phase ≠ .idle → t.st.done = false) (hl : Live t) : Inv t := by
  have herr : t.st.err = s.st.err := (congrArg Status.err hst :)
  have hkind : t.st.errKind = s.st.errKind := (congrArg Status.errKind hst :)
  have href : t.st.refused = s.st.refused := (congrArg Status.refused hst :)
  have hreason : t.st.refReason = s.st.refReason := (congrArg Status.refReason hst :)
  have hstuck : t.st.stuck = false := by
    unfold Status.stuck at hs ⊢
    rw [herr, href, hs]
  refine ⟨hsrc ▸ h.memory, ?_, ?_, hcfg ▸ h.cfg, fun _ => hstuck, fun hp => ⟨hstuck, hdone hp⟩, fun _ => hl⟩
  · rw [herr, hkind]; exact h.errKind
  · rw [href, hreason]; exact h.refReason

/-! ## Reset -/

/-- The reset values have the invariant, whatever the registers that a reset leaves unspecified hold (R47). -/
theorem inv_reset (p : Palette) (d e : Nat) (q : Config.Params) :
    Inv { State.reset with pal := p, drawn := d, srcDraw := e, params := q } where
  memory := rfl
  errKind := ⟨Nat.zero_le _, fun _ => rfl, fun _ => rfl⟩
  refReason := ⟨Nat.zero_le _, fun _ => rfl, fun _ => rfl⟩
  cfg := show (0 : BitVec 16) &&& ~~~cfgMask = 0 by decide
  done := fun h => nomatch h
  decoding := fun h => absurd rfl h
  live := fun _ =>
    { reader := le_refl 0
      writer := fun i _ => BitVec.getLsbD_zero
      mode := show (0 : BitVec 2) ≠ 1 by decide
      dims := ⟨.inl (Nat.zero_le _), .inl (Nat.zero_le _)⟩
      budget := ⟨rfl, le_refl 0⟩
      start := fun _ => rfl
      packet := fun h => nomatch h
      planes := ⟨rfl, rfl⟩
      cursor := le_refl 0
      result := fun h => nomatch h }

/-- Settles O57. -/
theorem resetStateHasTheInvariant : Obligations.ResetStateHasTheInvariant :=
  inv_reset State.reset.pal State.reset.drawn State.reset.srcDraw State.reset.params

/-! ## The moves of a decode -/

/-- A dimension register is legal: 1 to 15, or 32 (R29, R152). -/
theorem legalDim_of_dimension {n : BitVec 4} {s : State} {d : BitVec 6} (h : dimension n s = .ok d) : LegalDim d := by
  rcases dimension_eq_ok h with ⟨-, rfl⟩ | ⟨-, -, rfl⟩
  · left
    have := n.isLt
    rw [BitVec.toNat_setWidth, Nat.mod_eq_of_lt] <;> omega
  · exact .inr rfl

/-- After an element of a plane the sequencer stays at the packets only while the plane is short (R157). -/
theorem live_afterElement {u : State} (h : Live { u with phase := .idle }) : Live (afterElement u) :=
  { h with
    start := fun hp => by
      unfold afterElement at hp
      simp only at hp
      split at hp
      · cases hp
      · split at hp <;> cases hp
    packet := fun hp => by
      unfold afterElement at hp
      simp only at hp
      split at hp
      · next hlt => exact hlt
      · split at hp <;> cases hp }

/-- A result whose sizes fit replaces the one before it (R67). -/
theorem live_result {s t : State} (h : Live s)
    (ht : ∃ w y c r p0 p1 px ra, t =
      { s with phW := w, phH := y, colOff := c, rowOff := r, p0 := p0, p1 := p1, pix := px, raster := ra, st := s.st.finish, phase := .idle })
    (hsize : t.dlW ≤ t.phW ∧ t.dlH ≤ t.phH ∧ t.p0.length = t.phW * t.phH * 8 ∧ t.p1.length = t.phW * t.phH * 8 ∧
      t.pix.length = t.phH * 8 * (t.phW * 8) ∧ t.raster.length = t.pix.length) : Live t := by
  obtain ⟨_, _, _, _, _, _, _, _, rfl⟩ := ht
  exact { h with
    start := fun hp => nomatch hp
    packet := fun hp => nomatch hp
    result := fun _ => hsize }

/-- Every move keeps the bounds (R24, R29, R31, R33, R36, R60). -/
theorem live_move {s t : State} (h : Live s) (hd : s.st.done = false) (hm : Moves s t) : Live t := by
  have undone {P : Prop} (hdone : s.st.done = true) : P := by rw [hd] at hdone; cases hdone
  cases hm with
  | header w y p tw th hp hb hw hh =>
    exact { h with
      reader := by
        show (s.advance 9).rdPos ≤ 8 * s.srcLen
        rw [rdPos_advance]; exact hb
      dims := ⟨legalDim_of_dimension hw, legalDim_of_dimension hh⟩
      budget := ⟨rfl, by show s.g1Emit ≤ _; rw [h.start hp]; exact Nat.zero_le _⟩
      start := fun hq => nomatch hq
      packet := fun hq => nomatch hq
      planes := ⟨List.length_replicate, List.length_replicate⟩
      result := undone }
  | init b hp hb =>
    refine live_afterElement { h with
      reader := ?_
      budget := ⟨h.budget.1, Nat.zero_le _⟩
      start := fun hq => nomatch hq
      packet := fun hq => nomatch hq }
    show (s.advance 1).rdPos ≤ 8 * s.srcLen
    rw [rdPos_advance]; exact hb
  | run k e hp hb hle he =>
    refine live_afterElement { h with
      reader := ?_
      budget := ⟨h.budget.1, he.elim id fun e => e ▸ h.budget.2⟩
      start := fun hq => nomatch hq
      packet := fun hq => nomatch hq }
    show (s.advance (2 * (k + 1))).rdPos ≤ 8 * s.srcLen
    rw [rdPos_advance]; exact hb
  | pair p hp hb =>
    have hlive : Live (afterElement { s.advance 2 with
        bufB := if s.g1Cur = 0 then emitPair (s.g1Th.toNat * 8) s.g1Emit p s.bufB else s.bufB
        bufC := if s.g1Cur = 0 then s.bufC else emitPair (s.g1Th.toNat * 8) s.g1Emit p s.bufC
        g1Emit := s.g1Emit + 1 }) := by
      refine live_afterElement { h with
        reader := ?_
        budget := ⟨h.budget.1, h.packet hp⟩
        start := fun hq => nomatch hq
        packet := fun hq => nomatch hq
        planes := ⟨?_, ?_⟩ }
      · show (s.advance 2).rdPos ≤ 8 * s.srcLen
        rw [rdPos_advance]; exact hb
      · dsimp only
        split
        · exact (emitPair_length _ _ _ _).trans h.planes.1
        · exact h.planes.1
      · dsimp only
        split
        · exact h.planes.2
        · exact (emitPair_length _ _ _ _).trans h.planes.2
    rw [pairElement_eq]
    exact hlive
  | switch hp hb =>
    refine live_afterElement { h with
      reader := ?_
      start := fun hq => nomatch hq
      packet := fun hq => nomatch hq }
    show (s.advance 2).rdPos ≤ 8 * s.srcLen
    rw [rdPos_advance]; exact hb
  | mode m n hp hm1 _ hb =>
    exact { h with
      reader := by
        show (s.advance n).rdPos ≤ 8 * s.srcLen
        rw [rdPos_advance]; exact hb
      mode := hm1
      start := fun hq => nomatch hq
      packet := fun hq => nomatch hq }
  | post _ hp ht =>
    obtain ⟨b, c, d, hpost, hlen⟩ := postProcess_eq s
    unfold g1Finish at ht
    rw [hpost] at ht
    obtain ⟨_, _, _, _, _, _, _, _, heq, hsize⟩ := finish_sizes ht
    obtain ⟨hb, hc⟩ := hlen (h.planes.1.trans h.planes.2.symm)
    refine live_result (s := { s with bufB := b, bufC := c, ds := d, dlW := s.g1Tw.toNat, dlH := s.g1Th.toNat })
      { h with planes := ⟨hb.trans h.planes.1, hc.trans h.planes.2⟩, result := undone } ⟨_, _, _, _, _, _, _, _, heq⟩ hsize
  | plain =>
    exact { h with
      start := fun hq => nomatch hq
      packet := fun hq => nomatch hq
      cursor := Nat.zero_le _ }
  | block _ _ _ _ hl =>
    exact { h with
      start := fun hq => nomatch hq
      packet := fun hq => nomatch hq
      cursor := hl }
  | command f ip b bs hp h1 h2 h3 => exact { h with cursor := h3 }
  | stop hp hl =>
    exact { h with
      start := fun hq => nomatch hq
      packet := fun hq => nomatch hq
      cursor := hl }
  | operand n b hp _ hl =>
    exact { h with
      start := fun hq => nomatch hq
      packet := fun hq => nomatch hq
      cursor := hl }
  | transfer =>
    exact { h with
      start := fun hq => nomatch hq
      packet := fun hq => nomatch hq }
  | layout _ _ ht =>
    obtain ⟨w, y, u, -, rfl, -, hf⟩ := g2Finish_eq_ok ht
    obtain ⟨_, _, _, _, _, _, _, _, heq, hsize⟩ := finish_sizes hf
    exact live_result (s := { s with g2Tw := w, g2Th := y, dlW := w, dlH := y }) { h with result := undone } ⟨_, _, _, _, _, _, _, _, heq⟩ hsize

theorem inv_move {s t : State} (h : Inv s) (hp : s.phase ≠ .idle) (hm : Moves s t) : Inv t := by
  obtain ⟨hst, hd⟩ := h.decoding hp
  have hf := hm.frame
  refine inv_of_live h hst hf.inputs.1 hf.inputs.2.2.2.1 hf.status (fun hne => ?_) (live_move (h.live hst) hd hm)
  rcases hm.status with he | ⟨-, hi⟩
  · rw [he, hd]
  · exact absurd hi hne

/-! ## Commands -/

theorem inv_g1Begin {s : State} (h : Inv s) (hst : s.st.stuck = false) : Inv (g1Begin s) :=
  inv_of_live h hst rfl rfl rfl (fun _ => rfl)
    { h.live hst with
      reader := Nat.zero_le _
      mode := show (0 : BitVec 2) ≠ 1 by decide
      dims := ⟨.inl (Nat.zero_le _), .inl (Nat.zero_le _)⟩
      budget := ⟨rfl, le_refl 0⟩
      start := fun _ => rfl
      packet := fun hq => nomatch hq
      planes := ⟨rfl, rfl⟩
      result := fun hq => nomatch hq }

theorem inv_g2Begin {s : State} (h : Inv s) (hst : s.st.stuck = false) : Inv (g2Begin s) :=
  inv_of_live h hst rfl rfl rfl (fun _ => rfl)
    { h.live hst with
      start := fun hq => nomatch hq
      packet := fun hq => nomatch hq
      cursor := Nat.zero_le _
      result := fun hq => nomatch hq }

/-- A decode keeps the invariant: its moves do, and so does the stop that may end it. -/
theorem inv_runDecode {start : State → State} {s t : State} (hs : Inv (start s)) (h : runDecode start s = .next t) : Inv t := by
  rcases decodeLoop_cases (P := Inv) (fun _ _ hp hu hm => inv_move hu hp hm) hs h with ⟨ht, -⟩ | ⟨u, e, hu, -, he, rfl⟩
  · exact ht
  · exact inv_stop hu (stop_idle he)

theorem writeBit_error {b : Bool} {s : State} {e : Stop} (h : writeBit b s = .error e) : e = .refuse .capacity := by
  unfold writeBit at h
  split at h
  · split at h
    · next hu => cases h; exact (emit_error hu).2
    · cases h
  · cases h

theorem writeBits_error {v n : Nat} {s : State} {e : Stop} (h : writeBits v n s = .error e) : e = .refuse .capacity := by
  induction n generalizing s with
  | zero => cases h
  | succ n ih =>
    unfold writeBits at h
    split at h
    · next hu => cases h; exact writeBit_error hu
    · exact ih h

theorem flush_error {s : State} {e : Stop} (h : flush s = .error e) : e = .refuse .capacity := by
  unfold flush at h
  split at h
  · cases h
  · split at h
    · next hu => cases h; exact (emit_error hu).2
    · cases h

theorem readField_error {s : State} {e : Stop} (h : readField s = .error e) : e = .raise .truncatedInput := by
  unfold readField at h
  rw [readBits_spec] at h
  split at h
  · next hu =>
    cases h
    split at hu <;> cases hu
    rfl
  · cases h

/-- An operation of the bit cursor keeps the invariant if its result has the bounds. -/
theorem inv_settle {s t : State} {r : Op State} (h : Inv s) (hr : ∀ u, r = .ok u → Inv u)
    (hstop : ∀ e, r = .error e → e ≠ .refuse .afterFault) (ht : settle s r = .next t) : Inv t := by
  rcases settle_cases ht with hu | ⟨e, he, rfl⟩
  · exact hr t hu
  · exact inv_stop h (stop_idle (hstop e he))

theorem inv_commandBody {i : Instr} {s t : State} (hc : i.ctx = .command) (hp : s.phase = .idle) (hst : i ≠ .reset → s.st.stuck = false)
    (h : Inv s) (ht : commandBody i s = .next t) : Inv t := by
  have idle {u : State} (hu : u.phase = s.phase) (hne : u.phase ≠ .idle) : u.st.done = false := absurd (hu.trans hp) hne
  cases i <;> cases hc
  case reset =>
    cases ht
    exact inv_reset _ _ _ _
  case bcOpen =>
    have hs := hst (by decide)
    cases ht
    exact inv_of_live h hs rfl rfl rfl (idle rfl) { h.live hs with
      reader := Nat.zero_le _
      writer := fun _ _ => BitVec.getLsbD_zero }
  case bcRead =>
    have hs := hst (by decide)
    refine inv_settle h (fun u hu => ?_) (fun e he => by rw [readField_error he]; decide) ht
    obtain ⟨n, v, rfl, hn⟩ := readField_eq_ok hu
    refine inv_of_live h hs rfl rfl rfl (idle rfl) { h.live hs with reader := ?_ }
    show (s.advance n).rdPos ≤ 8 * s.srcLen
    have hr := (h.live hs).reader
    rw [rdPos_advance]
    omega
  case bcWrite =>
    have hs := hst (by decide)
    refine inv_settle h (fun u hu => ?_) (fun e he => by rw [writeBits_error he]; decide) ht
    obtain ⟨hframe, hclean⟩ := writeBits_eq_ok hu
    obtain ⟨k, a, c, rfl⟩ : ∃ k a c, u = { s with snk := k, wrAcc := a, wrCnt := c } := ⟨_, _, _, hframe⟩
    exact inv_of_live h hs rfl rfl rfl (idle rfl) { h.live hs with writer := hclean (h.live hs).writer }
  case bcFlush =>
    have hs := hst (by decide)
    refine inv_settle h (fun u hu => ?_) (fun e he => by rw [flush_error he]; decide) ht
    rcases flush_eq_ok hu with rfl | ⟨k, rfl⟩
    · exact h
    · exact inv_of_live h hs rfl rfl rfl (idle rfl) { h.live hs with writer := fun _ _ => BitVec.getLsbD_zero }
  case g1Decode => exact inv_runDecode (inv_g1Begin h (hst (by decide))) ht
  case g2Decode => exact inv_runDecode (inv_g2Begin h (hst (by decide))) ht
  all_goals
    cases ht
    exact h

/-- The model's flag for a command to take is no part of the invariant. -/
theorem inv_issued {s : State} (b : Bool) (h : Inv s) : Inv { s with issued := b } :=
  { h with live := fun hst => { h.live hst with } }

theorem inv_command {i : Instr} {s t : State} (hc : i.ctx = .command) (hp : s.phase = .idle) (h : Inv s) (ht : exec i s = .next t) : Inv t := by
  rw [exec_command hc] at ht
  rcases command_cases ht with ⟨r, -, rfl⟩ | ⟨hpro, hb⟩
  · refine inv_stop h ?_
    cases r <;> first | rfl | exact hp
  · exact inv_commandBody hc hp (fun hr => not_stuck_of_prologue (commandCode_ne_one hc hr) hpro) h hb

/-- Settles O58: inside a decode a step is a stop or a move, between commands it is a command or the block waits. -/
theorem stepKeepsTheInvariant : Obligations.StepKeepsTheInvariant := by
  intro s t h ht
  by_cases hp : s.phase = .idle
  · cases hi : s.issued with
    | true =>
      rw [step_idle_issued hp hi] at ht
      exact inv_command (s := { s with issued := false }) (decodeCommand_ctx _) hp (inv_issued false h) ht
    | false =>
      rw [step_idle_waits hp hi] at ht
      cases ht
      exact h
  · obtain ⟨u, hu, ho⟩ := step_moves hp
    obtain rfl : u = t := by rw [hu] at ht; injection ht
    rcases ho with ⟨e, he, rfl⟩ | hm
    · exact inv_stop h (stop_idle he)
    · exact inv_move h hp hm

end Sys2Proof.Machine

/-! PROOFS. The prologue's refusals, the word of `ST`, the host port and the reader (44_host_commands.md R253; 10_state.md R24, R42 to R46;
40_bitcursor.md R132). -/

namespace Sys2Proof.Machine

/-! ## The reader -/

/-- Settles O6. -/
theorem advanceAddsToThePosition : Obligations.AdvanceAddsToThePosition :=
  fun n s => ⟨rdPos_advance n s, rfl⟩

/-- Settles O8: two fields side by side are the bits of one (R132). -/
theorem fieldsReadTheSameHoweverGrouped : Obligations.FieldsReadTheSameHoweverGrouped := by
  intro a b x y s t u ha hb
  rw [readBits_spec] at ha hb ⊢
  split at ha <;> cases ha
  next hfa =>
    rw [advance_srcBits, rdPos_advance, advance_srcLen, advance_advance] at hb
    split at hb <;> cases hb
    next hfb =>
      rw [if_pos (by omega), srcBits_append, bitsToNat_append, srcBits_length]

/-! ## The prologue's refusals (R253) -/

theorem exec_refused {i : Instr} {s : State} {r : RefReason} (hc : i.ctx = .command) (h : prologue (commandCode i) s = some r) :
    ∃ t, exec i s = .next t ∧ Refused r.code s t :=
  ⟨_, (exec_command hc s).trans (command_of_some h), refused_stop_refuse r s⟩

theorem prologue_reserved {c : BitVec 4} {s : State} (hst : s.st.stuck = false) (h : reservedCode c = true) : prologue c s = some .badCmd := by
  have h1 : c ≠ 1 := by
    rintro rfl
    cases h
  rw [prologue, if_neg h1, if_neg (by rw [hst]; decide), if_pos h]

theorem sourceTooLong_of_not_fits {s : State} (h : ¬sourceFits s) : sourceTooLong s = true := by
  unfold sourceFits at h
  push Not at h
  obtain ⟨c, hc, hlt⟩ := h
  simp [sourceTooLong, hc, hlt]

theorem badOverride_of_not_ok {s : State} (h : ¬overrideOk s) : badOverride s = true := by
  unfold overrideOk at h
  push Not at h
  obtain ⟨ho, hz⟩ := h
  by_cases hw : s.ovrW = 0
  · simp [badOverride, ho, hw]
  · simp [badOverride, ho, hz hw]

theorem prologue_too_long {c : BitVec 4} {s : State} (hc : c = 0x3 ∨ c = 0x8 ∨ c = 0x9) (hst : s.st.stuck = false) (h : ¬sourceFits s) :
    prologue c s = some .capacity := by
  rcases hc with rfl | rfl | rfl <;> simp [prologue, reservedCode, hst, sourceTooLong_of_not_fits h]

theorem fieldMax_lt {s : State} (h : 16 < s.arg1.toNat) : decide (Config.fieldMax < s.arg1.toNat) = true := decide_eq_true h

theorem prologue_too_wide_read {s : State} (hst : s.st.stuck = false) (hfit : sourceFits s) (h : 16 < s.arg1.toNat) :
    prologue 0x3 s = some .badWidth := by
  simp [prologue, reservedCode, hst, sourceTooLong_of_fits hfit, fieldMax_lt h]

theorem prologue_too_wide_write {s : State} (hst : s.st.stuck = false) (h : 16 < s.arg1.toNat) : prologue 0x4 s = some .badWidth := by
  simp [prologue, reservedCode, hst, fieldMax_lt h]

theorem prologue_bad_override {c : BitVec 4} {s : State} (hc : c = 0x8 ∨ c = 0x9) (hst : s.st.stuck = false) (hfit : sourceFits s)
    (h : ¬overrideOk s) : prologue c s = some .badOverride := by
  rcases hc with rfl | rfl <;> simp [prologue, reservedCode, hst, sourceTooLong_of_fits hfit, badOverride_of_not_ok h]

/-- Settles O13: the code of each is reserved, and only an earlier stop is tested before that. -/
theorem reservedCodesAreRefused : Obligations.ReservedCodesAreRefused := by
  intro i hi s hst
  obtain ⟨hc, hr⟩ : i.ctx = .command ∧ reservedCode (commandCode i) = true := by
    revert i
    decide
  exact exec_refused hc (prologue_reserved hst hr)

/-- Settles O16. -/
theorem resetCommandIsThePowerOnState : Obligations.ResetCommandIsThePowerOnState :=
  fun s => ⟨freePalette s.drawn, s.drawn + 1, exec_reset s⟩

/-- Settles O17: each test fires where the ones before it do not. -/
theorem prologueRefusesBadRequests : Obligations.PrologueRefusesBadRequests := by
  intro s hst
  refine ⟨fun hfit i hi => ?_, fun hw hfit => ?_, fun hw => ?_, fun hovr hfit i hi => ?_⟩
  · obtain ⟨hc, hcode⟩ : i.ctx = .command ∧ (commandCode i = 0x3 ∨ commandCode i = 0x8 ∨ commandCode i = 0x9) := by
      revert i
      decide
    exact exec_refused hc (prologue_too_long hcode hst hfit)
  · exact exec_refused (i := .bcRead) rfl (prologue_too_wide_read hst hfit hw)
  · exact exec_refused (i := .bcWrite) rfl (prologue_too_wide_write hst hw)
  · obtain ⟨hc, hcode⟩ : i.ctx = .command ∧ (commandCode i = 0x8 ∨ commandCode i = 0x9) := by
      revert i
      decide
    exact exec_refused hc (prologue_bad_override hcode hst hfit hovr)

/-! ## `ST` -/

/-- The bits of `ST`, from bit 0 up (R44). -/
theorem word_getLsbD (t : Status) (i : Nat) : t.word.getLsbD i =
    if i = 0 then t.done else if i = 1 then t.err else if i = 2 then t.refused else if i < 6 then t.errKind.getLsbD (i - 3)
    else if i < 10 then t.refReason.getLsbD (i - 6) else false := by
  unfold Status.word
  simp only [BitVec.getLsbD_append, BitVec.getLsbD_ofBool]
  split_ifs <;> first | omega | (subst_vars; rfl) | exact BitVec.getLsbD_zero

/-- Settles O18: each field is read off at its own bits. -/
theorem statusWordHasItsLayout : Obligations.StatusWordHasItsLayout := by
  intro t
  have hbit (i : Nat) : t.word.getLsbD i =
      if i = 0 then t.done else if i = 1 then t.err else if i = 2 then t.refused else if i < 6 then t.errKind.getLsbD (i - 3)
      else if i < 10 then t.refReason.getLsbD (i - 6) else false := word_getLsbD t i
  refine ⟨hbit 0, hbit 1, hbit 2, ?_, ?_, ?_⟩ <;> apply BitVec.eq_of_getLsbD_eq <;> intro i hi <;>
    rw [BitVec.getLsbD_extractLsb', decide_eq_true hi, Bool.true_and, hbit]
  · simp only [show ¬3 + i = 0 by omega, show ¬3 + i = 1 by omega, show ¬3 + i = 2 by omega, show 3 + i < 6 by omega, if_false, if_true,
      Nat.add_sub_cancel_left]
  · simp only [show ¬6 + i = 0 by omega, show ¬6 + i = 1 by omega, show ¬6 + i = 2 by omega, show ¬6 + i < 6 by omega,
      show 6 + i < 10 by omega, if_false, if_true, Nat.add_sub_cancel_left]
  · simp only [show ¬10 + i = 0 by omega, show ¬10 + i = 1 by omega, show ¬10 + i = 2 by omega, show ¬10 + i < 6 by omega,
      show ¬10 + i < 10 by omega, if_false, BitVec.ofNat_eq_ofNat, BitVec.getLsbD_zero]

/-- Settles O19: the codes are those of R271 and R280. -/
theorem stopsRecordTheFirstKind : Obligations.StopsRecordTheFirstKind :=
  fun s => ⟨faulted_stop_raise .malformedHeader s, faulted_stop_raise .overrun s, faulted_stop_raise .outOfRangeReference s,
    faulted_stop_raise .truncatedInput s, refused_stop_refuse .badCmd s, refused_stop_refuse .badWidth s,
    refused_stop_refuse .badOverride s, refused_stop_refuse .declaredExceedsPhysical s, refused_stop_refuse .afterFault s,
    refused_stop_refuse .capacity s⟩

/-! ## The host port -/

theorem hostWrite_turn {f : State → State} {s : State} (h : hostTurn s = true) : hostWrite f s = f s := if_pos h

theorem hostWrite_busy {f : State → State} {s : State} (h : hostTurn s = false) : hostWrite f s = s := if_neg (by rw [h]; decide)

theorem whenTurn_turn {α : Type} {v : State → Option α} {s : State} (h : hostTurn s = true) : whenTurn v s = v s := if_pos h

theorem whenTurn_busy {α : Type} {v : State → Option α} {s : State} (h : hostTurn s = false) : whenTurn v s = none :=
  if_neg (by rw [h]; decide)

theorem hostTurn_iff {s : State} : hostTurn s = true ↔ s.phase = .idle ∧ s.issued = false := by
  simp [hostTurn]

/-- A palette entry just written (R41). -/
theorem Palette.get_set (p : Palette) (c : Color) : ∀ i : Pixel, (p.set i c).get i = c := by
  intro i
  have hi := i.isLt
  unfold Palette.set Palette.get
  interval_cases i.toNat <;> rfl

theorem srcByte_hostWriteSrc {s : State} (h : hostTurn s = true) (a : Nat) (v : Byte) :
    (hostWriteSrc a v s).srcByte a = v ∧ ∀ b, b ≠ a → (hostWriteSrc a v s).srcByte b = s.srcByte b := by
  unfold hostWriteSrc
  rw [hostWrite_turn h]
  unfold State.srcByte
  refine ⟨?_, fun b hb => ?_⟩
  · rw [Memory.read_write_same]; rfl
  · rw [Memory.read_write_other _ _ hb]

/-- The bytes of a load stand at their indices; every other one is as it was (R263; log entry 31). -/
theorem srcByte_hostLoad {s : State} (h : hostTurn s = true) (bs : List Byte) (a : Nat) :
    (hostLoad bs s).srcByte a = if a < bs.length then bs.getD a 0 else s.srcByte a := by
  unfold hostLoad
  rw [hostWrite_turn h]
  unfold State.srcByte
  rw [Memory.read_load]
  by_cases ha : a < bs.length
  · rw [if_pos ⟨Nat.zero_le a, by omega⟩, if_pos ha, Nat.sub_zero, List.getElem?_eq_getElem ha, List.getD_eq_getElem _ _ ha]
    rfl
  · rw [if_neg (by omega), if_neg ha]

theorem hostCommand_turn {s : State} (h : hostTurn s = true) (c : BitVec 4) :
    hostCommand c s = exec (decodeCommand c) { s with cmd := c } := by
  obtain ⟨hp, hi⟩ := hostTurn_iff.mp h
  unfold hostCommand hostWriteCmd
  rw [hostWrite_turn h, step_idle_issued (s := { s with cmd := c, issued := true }) hp rfl]
  simp only [← hi]

/-- Settles O24: between commands a write is its update and a read its register; in a command neither does anything. -/
theorem hostPortReadsAndWrites : Obligations.HostPortReadsAndWrites := by
  constructor
  · intro s h
    refine ⟨fun v => ?_, fun n => ?_, fun i c => ?_, srcByte_hostWriteSrc h, fun bs a => ⟨fun ha => ?_, fun ha => ?_⟩, hostCommand_turn h,
      fun hd a r => ?_, fun hd a => ?_⟩
    · unfold hostWriteCfg
      rw [hostWrite_turn h]
      refine (whenTurn_turn (s := { s with cfg := v &&& cfgMask }) h).trans (congrArg (fun x : BitVec 16 => some x.toNat) ?_)
      show v &&& cfgMask &&& cfgMask = v &&& 0x0FF7#16
      rw [BitVec.and_assoc, BitVec.and_self]
      rfl
    · unfold hostWriteSrcLen
      rw [hostWrite_turn h]
      exact whenTurn_turn h
    · unfold hostWritePal
      rw [hostWrite_turn h]
      exact (whenTurn_turn (s := { s with pal := s.pal.set i c }) h).trans (congrArg some (Palette.get_set s.pal c i))
    · have hturn : hostTurn (hostLoad bs s) = true := by unfold hostLoad; rw [hostWrite_turn h]; exact h
      have hlen : (hostLoad bs s).srcLen = bs.length := by unfold hostLoad; rw [hostWrite_turn h]
      rw [hostReadSrc, whenTurn_turn hturn, hlen, if_pos ha, srcByte_hostLoad h, if_pos ha, List.getElem?_eq_getElem ha,
        List.getD_eq_getElem _ _ ha]
    · rw [srcByte_hostLoad h, if_neg (by omega)]
    · simp [hostReadPix, hostReadRaster, hostReadP0, hostReadP1, hostReadDone, whenDone, whenTurn_turn h, hd]
    · simp [hostReadPix, hostReadRaster, hostReadDone, whenDone, whenTurn_turn h, hd]
  · intro s h
    refine ⟨fun r d a i => ?_, fun a v w y n i c k bs => ?_⟩
    · simp [hostRead, hostReadDone, hostReadPal, hostReadSrc, hostReadSnk, hostReadD, hostReadP0, hostReadP1, hostReadPix, hostReadRaster,
        whenDone, whenTurn_busy h]
    · simp [hostWriteSrc, hostWriteSrcLen, hostWriteCfg, hostWritePal, hostWriteArg0, hostWriteArg1, hostWriteCmd, hostLoad, hostWrite_busy h]

end Sys2Proof.Machine

/-! PROOFS. The Gen1 elements and what happens where the source cuts an element short (41_gen1_decode.md R151 to R165; 60_exceptions.md
R271, R279). -/

namespace Sys2Proof.Machine

/-! ## Dimensions (R152) -/

theorem dimension_of_some {n : BitVec 4} {s : State} {d : Nat} (h : dimValue s.lenient n = some d) :
    dimension n s = .ok (.ofNat 6 d) ∧ (BitVec.ofNat 6 d).toNat = d := by
  unfold dimValue at h
  unfold dimension
  by_cases hn : n = 0
  · rw [if_pos hn] at h ⊢
    split at h <;> cases h
    next hl => exact ⟨if_pos hl, rfl⟩
  · rw [if_neg hn] at h ⊢
    cases h
    have := n.isLt
    exact ⟨congrArg Except.ok (BitVec.eq_of_toNat_eq (by simp)), toNat_ofNat_of_lt (by omega)⟩

theorem dimension_of_none {n : BitVec 4} {s : State} (h : dimValue s.lenient n = none) : dimension n s = .error (.raise .malformedHeader) := by
  unfold dimValue at h
  unfold dimension
  split at h
  · next hn =>
    split at h
    · cases h
    · next hl => rw [if_pos hn, if_neg hl]
  · cases h

theorem settle_malformed (s : State) : ∃ t, settle s (.error (.raise .malformedHeader)) = .next t ∧ Faulted 1 s t :=
  ⟨_, rfl, faulted_stop_raise .malformedHeader s⟩

theorem settle_overrun (s : State) : ∃ t, settle s (.error (.raise .overrun)) = .next t ∧ Faulted 2 s t :=
  ⟨_, rfl, faulted_stop_raise .overrun s⟩

theorem settle_outOfRange (s : State) : ∃ t, settle s (.error (.raise .outOfRangeReference)) = .next t ∧ Faulted 3 s t :=
  ⟨_, rfl, faulted_stop_raise .outOfRangeReference s⟩

/-- Two dimensions of which the policy rejects one: the first is tested first, and the fault is the same (R152, R190). -/
theorem dimension_rejects {w h : BitVec 4} {s : State} (hd : dimValue s.lenient w = none ∨ dimValue s.lenient h = none) :
    dimension w s = .error (.raise .malformedHeader) ∨ ∃ tw, dimension w s = .ok tw ∧ dimension h s = .error (.raise .malformedHeader) := by
  cases hw : dimValue s.lenient w with
  | none => exact .inl (dimension_of_none hw)
  | some tw => exact .inr ⟨_, (dimension_of_some hw).1, dimension_of_none (hd.resolve_left (by rw [hw]; nofun))⟩

/-- Settles O25. -/
theorem headerSetsUpTheImage : Obligations.HeaderSetsUpTheImage := by
  intro w h p s
  constructor
  · intro tw th hw hh
    obtain ⟨hdw, htw⟩ := dimension_of_some hw
    obtain ⟨hdh, hth⟩ := dimension_of_some hh
    have hhead : header w h p s = .ok { s.advance 9 with
        g1Tw := .ofNat 6 tw, g1Th := .ofNat 6 th, g1Total := tw * th * 32
        bufB := List.replicate (tw * th * 8) 0, bufC := List.replicate (tw * th * 8) 0
        g1Primary := p, g1Cur := p, phase := .g1Init } := by
      simp only [header, hdw, hdh, htw, hth]
      rfl
    exact congrArg (settle s) hhead
  · intro hd
    have hhead : header w h p s = .error (.raise .malformedHeader) := by
      unfold header
      rcases dimension_rejects hd with hdim | ⟨tw, hdim, hdim'⟩
      · rw [hdim]
      · simp only [hdim, hdim']
    show ∃ t, settle s (header w h p s) = .next t ∧ Faulted 1 s t
    rw [hhead]
    exact settle_malformed s

/-- Settles O51. -/
theorem prefixLoadsThePalette : Obligations.PrefixLoadsThePalette := by
  intro w h c0 c1 c2 c3 s
  constructor
  · intro pw ph hw hh
    have hload : loadPfx w h ⟨c0, c1, c2, c3⟩ s = .ok
        { s with g2Pfx := 1, g2Pw := .ofNat 6 pw, g2Ph := .ofNat 6 ph, pal := ⟨c0, c1, c2, c3⟩, g2Ip := 14, phase := .lzHeader } := by
      simp only [loadPfx, (dimension_of_some hw).1, (dimension_of_some hh).1]
      rfl
    exact congrArg (settle s) hload
  · intro hd
    have hload : loadPfx w h ⟨c0, c1, c2, c3⟩ s = .error (.raise .malformedHeader) := by
      unfold loadPfx
      rcases dimension_rejects hd with hdim | ⟨tw, hdim, hdim'⟩
      · rw [hdim]
      · simp only [hdim, hdim']
    show ∃ t, settle s (loadPfx w h ⟨c0, c1, c2, c3⟩ s) = .next t ∧ Faulted 1 s t
    rw [hload]
    exact settle_malformed s

/-! ## The elements of a sub-stream -/

/-- Settles O27: after each the plane is tested (R157). -/
theorem initAndSwitchSetTheState : Obligations.InitAndSwitchSetTheState :=
  fun _ => ⟨rfl, rfl, rfl⟩

/-- A run that fits moves the position by its length (R159). -/
theorem emitRun_fits {r : Nat} {s : State} (h : s.g1Emit + r ≤ s.g1Total) :
    emitRun r s = .ok (afterElement { s with g1Emit := s.g1Emit + r, g1State := 1 }) := by
  rw [emitRun, if_neg (by omega)]

/-- A run past the plane's end (R160): cut to the rest of the plane in lenient mode. -/
theorem emitRun_cut {r : Nat} {s : State} (h : s.g1Emit ≤ s.g1Total) (hr : s.g1Total < s.g1Emit + r) (hl : s.lenient = true) :
    emitRun r s = .ok (afterElement { s with g1Emit := s.g1Total, g1State := 1 }) := by
  rw [emitRun, if_pos hr, if_pos hl, Nat.add_sub_cancel' h]

theorem emitRun_overrun {r : Nat} {s : State} (hr : s.g1Total < s.g1Emit + r) (hl : s.lenient = false) :
    emitRun r s = .error (.raise .overrun) := by
  rw [emitRun, if_pos hr, if_neg (by rw [hl]; decide)]

/-- Settles O28. -/
theorem runEmitsZeroPairs : Obligations.RunEmitsZeroPairs := by
  intro i k v s hi hfit
  rw [exec_runParts hi, runElement, emitRun_fits (r := runLength k v) (s := s.advance (2 * (k + 1))) hfit]
  rfl

/-- Settles O29. -/
theorem runPastThePlane : Obligations.RunPastThePlane := by
  intro i k v s hi hle hlt
  rw [exec_runParts hi, runElement]
  constructor
  · intro hl
    rw [emitRun_overrun (r := runLength k v) (s := s.advance (2 * (k + 1))) hlt hl]
    exact settle_overrun s
  · intro hl
    rw [emitRun_cut (r := runLength k v) (s := s.advance (2 * (k + 1))) hle hlt hl]
    rfl

/-- Every pair row is a pair element (R161). -/
theorem exec_pairValue {i : Instr} {p : BitVec 2} (h : pairValue i = some p) (s : State) : exec i s = .next (pairElement p s) := by
  cases i <;> cases h <;> rfl

/-- Settles O30. -/
theorem pairIsOredAtItsPlace : Obligations.PairIsOredAtItsPlace := by
  intro i p s hi rows at_ put
  rw [exec_pairValue hi, pairElement_eq]
  rfl

/-- Settles O32. -/
theorem modeIsTaken : Obligations.ModeIsTaken := by
  intro i m n s hi
  cases i <;> cases hi <;> rfl

/-! ## Elements cut short -/

/-- Only at the start of a Gen2 source can there be no element without the source being cut short (R190). -/
theorem decode_notPrefix {c : Ctx} {bs : Bits} (h : decode c bs = .error .notPrefix) : c = .pfx := by
  cases c with
  | pfx => rfl
  | header =>
    simp only [decode, decodeHeader] at h
    repeat' (split at h <;> try cases h)
  | init => simp only [decode, decodeInit] at h; split at h <;> cases h
  | rle =>
    simp only [decode, decodeRun] at h
    repeat' (split at h <;> try cases h)
  | data => simp only [decode, decodeData] at h; split at h <;> cases h
  | mode => simp only [decode, decodeMode] at h; split at h <;> cases h
  | lz =>
    simp only [decode, decodeLz] at h
    repeat' (split at h <;> try cases h)
  | addr =>
    simp only [decode, decodeAddr] at h
    repeat' (split at h <;> try cases h)
  | command => simp only [decode] at h; split at h <;> cases h

/-- Where no element is read a step takes what `fetchFailed` says (R131, R192, R190). -/
theorem step_of_fetch_error {s : State} {c : Ctx} {e : DecodeError} (hc : fetchCtx s = some c) (h : fetch c s = .error e) :
    step s = fetchFailed c e s := by
  simp only [step, if_neg (phase_ne_idle_of_fetchCtx hc), elementStep, hc, h]

/-- A field of the unread source. -/
theorem takeNum_bitsFrom (s : State) {n p : Nat} (h : p + n ≤ 8 * s.srcLen) :
    takeNum n (s.bitsFrom p) = some (bitsToNat (s.srcBits n p), s.bitsFrom (p + n)) := by
  have hsplit : s.bitsFrom p = s.srcBits n p ++ s.bitsFrom (p + n) := by
    unfold State.bitsFrom
    rw [show 8 * s.srcLen - p = n + (8 * s.srcLen - (p + n)) by omega, srcBits_append]
  have htake := takeBits_append (s.srcBits n p) (s.bitsFrom (p + n))
  rw [srcBits_length] at htake
  rw [hsplit, takeNum, htake]
  rfl

theorem takeNum_bitsFrom_short (s : State) {n p : Nat} (h : 8 * s.srcLen - p < n) : takeNum n (s.bitsFrom p) = none := by
  rw [takeNum_eq, if_pos (by rw [bitsFrom_length]; exact h)]

/-- The fault of a header cut short, by what is there of it (R152, R279). -/
theorem shortHeaderFault_eq (s : State) : shortHeaderFault s =
    if s.rdPos + 8 ≤ 8 * s.srcLen ∧ s.lenient = false ∧
        (bitsToNat (s.srcBits 4 s.rdPos) = 0 ∨ bitsToNat (s.srcBits 4 (s.rdPos + 4)) = 0)
      then .malformedHeader else .truncatedInput := by
  unfold shortHeaderFault unread
  by_cases h4 : s.rdPos + 4 ≤ 8 * s.srcLen
  · rw [takeNum_bitsFrom s h4]
    dsimp only
    by_cases h8 : s.rdPos + 4 + 4 ≤ 8 * s.srcLen
    · rw [takeNum_bitsFrom s h8]
      simp [zeroDimension, show s.rdPos + 8 ≤ 8 * s.srcLen from h8]
    · rw [takeNum_bitsFrom_short s (by omega), if_neg (by omega)]
  · rw [takeNum_bitsFrom_short s (by omega), if_neg (by omega)]

/-- Settles O26: with fewer than nine bits no header is read, and the fault is the one of the nibbles that are there. -/
theorem headerCutShortFaults : Obligations.HeaderCutShortFaults := by
  intro s hp hshort
  have hc : fetchCtx s = some .header := by rw [fetchCtx, hp]
  cases hf : fetch .header s with
  | ok r =>
    obtain ⟨i, rest⟩ := r
    have hlen := decode_length hf
    have hi := decode_ctx hf
    rw [unread, bitsFrom_length] at hlen
    cases i <;> cases hi
    simp only [encode, List.length_append, natToBits_length] at hlen
    omega
  | error e =>
    cases e with
    | notPrefix => cases decode_notPrefix hf
    | truncated =>
      rw [step_of_fetch_error hc hf]
      refine ⟨_, rfl, ?_⟩
      rw [shortHeaderFault_eq]
      split
      · exact faulted_stop_raise .malformedHeader s
      · exact faulted_stop_raise .truncatedInput s

/-- Settles O34: what is decoded would be an encoding at the head of the unread bits. -/
theorem elementCutShortFaults : Obligations.ElementCutShortFaults := by
  intro s c hc hne hpfx hnone
  cases hf : fetch c s with
  | ok r =>
    obtain ⟨i, rest⟩ := r
    obtain ⟨hw, hi, hbits⟩ := decodedBitsAreTheEncoding c (unread c s) rest i hf
    exact absurd ⟨rest, hbits.symm⟩ (hnone i hw hi)
  | error e =>
    rw [step_of_fetch_error hc hf]
    cases e with
    | notPrefix =>
      obtain rfl := decode_notPrefix hf
      obtain ⟨hlen, hff⟩ := hpfx rfl
      rcases fetch_pfx_notPrefix.mp hf with h0 | hff'
      · omega
      · exact absurd hff hff'
    | truncated =>
      refine ⟨s.stop (.raise .truncatedInput), ?_, faulted_stop_raise .truncatedInput s⟩
      cases c <;> first | rfl | exact absurd rfl hne

end Sys2Proof.Machine

/-! PROOFS. Back-references, the capacity of `D` and the layout (42_gen2_lz3.md R199 to R213): the address operand is read first, then
the range checks, then the bytes are appended as far as `D` has room. -/

namespace Sys2Proof.Machine

/-! ## The address operand and the transfer -/

/-- The transfer of a back-reference by its command number, after its address operand. -/
def lzTransfer (c : Nat) : State → Op State :=
  match c with
  | 4 => repTransfer
  | 5 => brevTransfer
  | _ => backTransfer

/-- The state with a back-reference's header and address operand taken (R194, R203). -/
def referred (f : LzForm) (s : State) : State :=
  { headed f s with
    g2Ip := s.g2Ip + f.bytes + operandLen s (s.g2Ip + f.bytes), g2Start := operandStart s (s.g2Ip + f.bytes) }

/-- The command numbers of the back-references. -/
theorem backRef_cmd {i : Instr} {f : LzForm} (hf : lzForm i = some f) (hc : 4 ≤ f.cmd.toNat) : f.cmd = 4 ∨ f.cmd = 5 ∨ f.cmd = 6 := by
  obtain ⟨-, -, -, -, -, h6⟩ := exec_lzForm hf State.reset
  have h : f.cmd.toNat = 4 ∨ f.cmd.toNat = 5 ∨ f.cmd.toNat = 6 := by omega
  exact h.imp BitVec.eq_of_toNat_eq (Or.imp BitVec.eq_of_toNat_eq BitVec.eq_of_toNat_eq)

/-- A back-reference is its address operand and then its transfer (R203 to R208). -/
theorem exec_backRef {i : Instr} {f : LzForm} (hf : lzForm i = some f) (hc : 4 ≤ f.cmd.toNat) (s : State) :
    exec i s = settle s (backReference (lzTransfer f.cmd.toNat) (headed f s)) := by
  rw [(exec_lzForm hf s).1]
  rcases backRef_cmd hf hc with h | h | h <;> rw [h] <;> rfl

theorem backReference_missing {f : LzForm} {s : State} (transfer : State → Op State)
    (h : s.srcLen < s.g2Ip + f.bytes + operandLen s (s.g2Ip + f.bytes)) :
    backReference transfer (headed f s) = .error (.raise .truncatedInput) := by
  rw [backReference, readStart_spec, if_neg (by omega)]

theorem backReference_present {f : LzForm} {s : State} (transfer : State → Op State)
    (h : s.g2Ip + f.bytes + operandLen s (s.g2Ip + f.bytes) ≤ s.srcLen) :
    backReference transfer (headed f s) = transfer (referred f s) := by
  rw [backReference, readStart_spec, if_pos h]
  rfl

/-! ## The transfers, by their range checks -/

/-- The range checks of a back-reference fail (R204, R205). -/
def outside (c : Nat) (u : State) : Prop :=
  u.g2Start < 0 ∨ (u.bufD.length : Int) ≤ u.g2Start ∨
    if c = 6 then u.g2Start - (u.g2Len - 1) < 0 else (u.bufD.length : Int) < u.g2Start + u.g2Len

/-- The bytes that a back-reference appends (R206 to R208). -/
def transferred (c : Nat) (u : State) : List Byte :=
  match c with
  | 4 => forwardRange u
  | 5 => (forwardRange u).map bitReverse
  | _ => backwardRange u

theorem transferred_length (c : Nat) (u : State) : (transferred c u).length = u.g2Len := by
  unfold transferred
  split <;> simp [forwardRange, backwardRange]

theorem lzTransfer_outside {c : Nat} (hc : c = 4 ∨ c = 5 ∨ c = 6) {u : State} (h : outside c u) :
    lzTransfer c u = .error (.raise .outOfRangeReference) := by
  rcases hc with rfl | rfl | rfl
  · exact if_pos ((rangeOutside_eq u).trans (decide_eq_true h))
  · exact if_pos ((rangeOutside_eq u).trans (decide_eq_true h))
  · exact if_pos ((walkOutside_eq u).trans (decide_eq_true h))

theorem lzTransfer_inside {c : Nat} (hc : c = 4 ∨ c = 5 ∨ c = 6) {u : State} (h : ¬outside c u) :
    lzTransfer c u = appendAll (transferred c u) u := by
  rcases hc with rfl | rfl | rfl
  · exact if_neg (ne_true_of_eq_false ((rangeOutside_eq u).trans (decide_eq_false h)))
  · exact if_neg (ne_true_of_eq_false ((rangeOutside_eq u).trans (decide_eq_false h)))
  · exact if_neg (ne_true_of_eq_false ((walkOutside_eq u).trans (decide_eq_false h)))

/-- A back-reference whose operand is there, whose range checks pass and whose bytes fit. -/
theorem exec_backRef_fits {i : Instr} {f : LzForm} {s : State} (hf : lzForm i = some f) (hc : f.cmd = 4 ∨ f.cmd = 5 ∨ f.cmd = 6)
    (hr : room s f.len) (hop : s.g2Ip + f.bytes + operandLen s (s.g2Ip + f.bytes) ≤ s.srcLen) (hin : ¬outside f.cmd.toNat (referred f s)) :
    exec i s = .next { referred f s with bufD := s.bufD ++ transferred f.cmd.toNat (referred f s) } := by
  have hn : f.cmd.toNat = 4 ∨ f.cmd.toNat = 5 ∨ f.cmd.toNat = 6 := by
    rcases hc with h | h | h <;> rw [h] <;> decide
  rw [exec_backRef hf (by omega), backReference_present _ hop, lzTransfer_inside hn hin,
    appendAll_room (s := referred f s) hr (transferred_length _ _)]
  rfl

/-- Settles O42: the checks of R204 and R205 are the bounds of the range. -/
theorem repeatCopiesForward : Obligations.RepeatCopiesForward := by
  intro i f s hf hc hr a b hop h0 hend
  have hlen := lzForm_len_pos hf
  have hin : ¬outside f.cmd.toNat (referred f s) := by
    rw [hc]
    show ¬(b < 0 ∨ (s.bufD.length : Int) ≤ b ∨ (s.bufD.length : Int) < b + f.len)
    omega
  rw [exec_backRef_fits hf (.inl hc) hr hop hin, hc]
  rfl

/-- Settles O43: the bytes are those of the forward range, each reversed. -/
theorem bitReverseRepeatMirrorsBytes : Obligations.BitReverseRepeatMirrorsBytes := by
  intro i f s hf hc hr a b hop h0 hend
  have hlen := lzForm_len_pos hf
  have hin : ¬outside f.cmd.toNat (referred f s) := by
    rw [hc]
    show ¬(b < 0 ∨ (s.bufD.length : Int) ≤ b ∨ (s.bufD.length : Int) < b + f.len)
    omega
  refine ⟨(forwardRange (referred f s)).map bitReverse, by simp [forwardRange, referred, headed], fun k j hk hj => ?_, ?_⟩
  · have hbyte : ((forwardRange (referred f s)).map bitReverse).getD k 0 = bitReverse (s.bufD.getD (b.toNat + k) 0) := by
      have hk' : k < (referred f s).g2Len := hk
      simp only [forwardRange, List.map_map, List.getD_eq_getElem?_getD, List.getElem?_map, List.getElem?_range hk', Option.map_some,
        Option.getD_some]
      rfl
    rw [hbyte, bitReverse, BitVec.getLsbD_reverse, BitVec.getMsbD_eq_getLsbD, decide_eq_true hj, Bool.true_and]
  · rw [exec_backRef_fits hf (.inr (.inl hc)) hr hop hin, hc]
    rfl

/-- Settles O44: the walk down from the start stays at index 0 or above. -/
theorem backwardsRepeatWalksDown : Obligations.BackwardsRepeatWalksDown := by
  intro i f s hf hc hr a b hop hstart hend
  have hlen := lzForm_len_pos hf
  have hin : ¬outside f.cmd.toNat (referred f s) := by
    rw [hc]
    show ¬(b < 0 ∨ (s.bufD.length : Int) ≤ b ∨ b - (f.len - 1) < 0)
    omega
  rw [exec_backRef_fits hf (.inr (.inr hc)) hr hop hin, hc]
  rfl

/-- Settles O45: the operand is fetched first, then the start is tested, then the end of the range. -/
theorem badBackReferencesFault : Obligations.BadBackReferencesFault := by
  intro i f s hf hc a b
  rw [exec_backRef hf hc]
  constructor
  · intro hmiss
    rw [backReference_missing _ hmiss]
    exact settle_truncated s
  · intro hop hbad
    have hout : outside f.cmd.toNat (referred f s) := by
      refine hbad.imp id (Or.imp id ?_)
      rintro (⟨hne, hlt⟩ | ⟨h6, hlt⟩)
      · rw [if_neg (show ¬f.cmd.toNat = 6 from fun h => hne (BitVec.eq_of_toNat_eq h))]
        exact hlt
      · rw [h6]
        exact hlt
    have hn : f.cmd.toNat = 4 ∨ f.cmd.toNat = 5 ∨ f.cmd.toNat = 6 := by
      rcases backRef_cmd hf hc with h | h | h <;> rw [h] <;> decide
    rw [backReference_present _ hop, lzTransfer_outside hn hout]
    exact settle_outOfRange s

/-! ## A full `D` (R201, R65) -/

/-- The test that `Append` makes is the one for room for one more byte. -/
theorem full_bufD_iff (s : State) : full s.params.dCap s.dLen = true ↔ ¬room s 1 := by
  unfold full room
  split
  · next h => simp [h]
  · next c h =>
    rw [decide_eq_true_iff]
    simp [h, State.dLen]

theorem append_full {s : State} (v : Byte) (h : ¬room s 1) : append v s = .error (.refuse .capacity) :=
  if_pos ((full_bufD_iff s).2 h)

theorem append_room {s : State} (v : Byte) (h : room s 1) : append v s = .ok { s with bufD := s.bufD ++ [v] } :=
  append_fits (n := 0) h

/-- One byte appended takes one from the room that is left. -/
theorem room_appended (s : State) (v : Byte) (ip n : Nat) :
    room { s with g2Ip := ip, bufD := s.bufD ++ [v] } n ↔ room s (n + 1) := by
  simp only [room, List.length_append, List.length_singleton, Nat.add_assoc, Nat.add_comm 1 n]

/-- Appending more bytes than there is room for is refused at the first that does not fit. -/
theorem appendAll_full {vs : List Byte} {s : State} (hne : vs ≠ []) (h : ¬room s vs.length) : appendAll vs s = .error (.refuse .capacity) := by
  induction vs generalizing s with
  | nil => exact absurd rfl hne
  | cons v vs ih =>
    rw [appendAll]
    by_cases h1 : room s 1
    · have hvs : vs ≠ [] := by
        rintro rfl
        exact h h1
      rw [append_room v h1]
      exact ih hvs fun hr => h ((room_appended s v s.g2Ip _).mp hr)
    · rw [append_full v h1]

theorem appendAll_full_of_length {vs : List Byte} {s : State} {n : Nat} (hn : 0 < n) (hl : vs.length = n) (h : ¬room s n) :
    appendAll vs s = .error (.refuse .capacity) :=
  appendAll_full (List.ne_nil_of_length_pos (hl ▸ hn)) (hl ▸ h)

/-- Literals that are all there but do not all fit (R195, R201). -/
theorem copyLiterals_full {n : Nat} {s : State} (hn : 0 < n) (hsrc : s.g2Ip + n ≤ s.srcLen) (h : ¬room s n) :
    copyLiterals n s = .error (.refuse .capacity) := by
  induction n generalizing s with
  | zero => omega
  | succ n ih =>
    rw [copyLiterals, nextByte_of_lt (by omega)]
    dsimp only
    by_cases h1 : room s 1
    · have hpos : 0 < n := by
        rcases Nat.eq_zero_or_pos n with rfl | hpos
        · exact absurd h1 h
        · exact hpos
      rw [append_room (s := { s with g2Ip := s.g2Ip + 1 }) _ h1]
      exact ih hpos (by dsimp only; omega) fun hr => h ((room_appended s _ _ _).mp hr)
    · rw [append_full (s := { s with g2Ip := s.g2Ip + 1 }) _ h1]

theorem fillBody_full {s : State} (hn : 0 < s.g2Len) (hsrc : s.g2Ip < s.srcLen) (h : ¬room s s.g2Len) :
    fillBody s = .error (.refuse .capacity) := by
  rw [fillBody, nextByte_of_lt hsrc]
  exact appendAll_full_of_length (s := { s with g2Ip := s.g2Ip + 1 }) hn List.length_replicate h

theorem wfillBody_full {s : State} (hn : 0 < s.g2Len) (hsrc : s.g2Ip + 1 < s.srcLen) (h : ¬room s s.g2Len) :
    wfillBody s = .error (.refuse .capacity) := by
  rw [wfillBody, nextByte_of_lt (by omega : s.g2Ip < s.srcLen)]
  dsimp only
  rw [nextByte_of_lt (s := { s with g2Ip := s.g2Ip + 1 }) hsrc]
  exact appendAll_full_of_length (s := { s with g2Ip := s.g2Ip + 1 + 1 }) hn (alternate_length _ _ _) h

/-- Settles O46: every body has fetched its operands when it begins to append. -/
theorem fullOutputRefuses : Obligations.FullOutputRefuses := by
  intro i f s hf hr a b hop hstart hend hwalk
  have hlen := lzForm_len_pos hf
  obtain ⟨-, -, -, -, -, hc⟩ := exec_lzForm hf s
  have refused {c : BitVec 3} (hcmd : f.cmd = c) (hbody : lzBody c.toNat (headed f s) = .error (.refuse .capacity)) :
      ∃ t, exec i s = .next t ∧ Refused 6 s t := by
    rw [exec_of_cmd hf hcmd, hbody]
    exact settle_capacity s
  have hops {c : BitVec 3} (hcmd : f.cmd = c) : s.g2Ip + f.bytes + operandBytes { f with cmd := c } s a ≤ s.srcLen := hcmd ▸ hop
  by_cases h4 : 4 ≤ f.cmd.toNat
  · have hn : f.cmd.toNat = 4 ∨ f.cmd.toNat = 5 ∨ f.cmd.toNat = 6 := by omega
    have hpres : s.g2Ip + f.bytes + operandLen s (s.g2Ip + f.bytes) ≤ s.srcLen := by
      rcases backRef_cmd hf h4 with h | h | h <;> exact hops h
    have hin : ¬outside f.cmd.toNat (referred f s) := by
      obtain ⟨h0, hlt⟩ := hstart h4
      rintro (hneg | hge | hrange)
      · exact absurd h0 (not_le.mpr hneg)
      · exact absurd hlt (not_lt.mpr hge)
      · split at hrange
        · next h6 => exact absurd (hwalk (BitVec.eq_of_toNat_eq h6)) (not_le.mpr hrange)
        · next h6 =>
          refine absurd (hend ?_) (not_le.mpr hrange)
          rcases backRef_cmd hf h4 with h | h | h
          · exact .inl h
          · exact .inr h
          · exact absurd (by rw [h]; rfl) h6
    rw [exec_backRef hf h4, backReference_present _ hpres, lzTransfer_inside hn hin,
      appendAll_full_of_length (s := referred f s) hlen (transferred_length _ _) hr]
    exact settle_capacity s
  · have hn : f.cmd = 0 ∨ f.cmd = 1 ∨ f.cmd = 2 ∨ f.cmd = 3 := by
      have h : f.cmd.toNat = 0 ∨ f.cmd.toNat = 1 ∨ f.cmd.toNat = 2 ∨ f.cmd.toNat = 3 := by omega
      exact h.imp BitVec.eq_of_toNat_eq (Or.imp BitVec.eq_of_toNat_eq (Or.imp BitVec.eq_of_toNat_eq BitVec.eq_of_toNat_eq))
    rcases hn with h | h | h | h
    · exact refused h (copyLiterals_full (s := headed f s) hlen (hops h) hr)
    · exact refused h (fillBody_full (s := headed f s) hlen (hops h) hr)
    · exact refused h (wfillBody_full (s := headed f s) hlen (hops h) hr)
    · exact refused h (appendAll_full_of_length (s := headed f s) hlen List.length_replicate hr)

end Sys2Proof.Machine

/-! PROOFS. The ends of the LZ3 command loop (42_gen2_lz3.md R199, R203, R210) and the layout of the output (R212, R213). -/

namespace Sys2Proof.Machine

/-- Settles O47: both rows are the malformed header and nothing else. -/
theorem nestedLongHeadersFault : Obligations.NestedLongHeadersFault :=
  fun _ _ s => ⟨settle_malformed s, settle_malformed s⟩

/-- Settles O48: each element takes its own bytes and sets its registers. -/
theorem endAndAddressOperandsMoveOn : Obligations.EndAndAddressOperandsMoveOn :=
  fun _ _ _ => ⟨rfl, rfl, rfl⟩

/-! ## The address operand as an element -/

/-- The state after an address operand read as an element of its own (R203). -/
def operandTaken (s : State) : State :=
  { s with g2Ip := s.g2Ip + operandLen s s.g2Ip, g2Start := operandStart s s.g2Ip, phase := .lzCopy }

theorem execLzAddrRel_taken {s : State} (h : 128 ≤ (s.srcByte s.g2Ip).toNat) :
    execLzAddrRel (.ofNat 7 (s.srcByte s.g2Ip).toNat) s = .next (operandTaken s) := by
  have hlt := (s.srcByte s.g2Ip).isLt
  have hy : (BitVec.ofNat 7 (s.srcByte s.g2Ip).toNat).toNat = (s.srcByte s.g2Ip).toNat - 128 := by
    rw [BitVec.toNat_ofNat]
    omega
  simp only [execLzAddrRel, startRel, hy, operandTaken, operandLen, operandStart, if_pos h, State.dLen]

theorem execLzAddrAbs_taken {s : State} (h : ¬128 ≤ (s.srcByte s.g2Ip).toNat) :
    execLzAddrAbs (.ofNat 7 (s.srcByte s.g2Ip).toNat) (.ofNat 8 (s.srcByte (s.g2Ip + 1)).toNat) s = .next (operandTaken s) := by
  have hy : (BitVec.ofNat 7 (s.srcByte s.g2Ip).toNat).toNat = (s.srcByte s.g2Ip).toNat := by
    rw [BitVec.toNat_ofNat]
    omega
  simp only [execLzAddrAbs, startAbs, hy, toNat_ofNat_of_lt (s.srcByte (s.g2Ip + 1)).isLt, operandTaken, operandLen, operandStart, if_neg h]

/-- A step at an address operand: the operand when it is there, else truncated-input (R203, R192). -/
theorem step_lzOperand {s : State} (hp : s.phase = .lzOperand) :
    step s = if s.g2Ip + operandLen s s.g2Ip ≤ s.srcLen then .next (operandTaken s)
      else .next (s.stop (.raise .truncatedInput)) := by
  have hc : fetchCtx s = some .addr := by rw [fetchCtx, hp]
  have hfetch : fetch .addr s = decodeAddr (s.bitsFrom (8 * s.g2Ip)) := rfl
  have hrun {i : Instr} {rest : Bits} (h : fetch .addr s = .ok (i, rest)) : step s = exec i s :=
    (stepRunsTheDecodedInstruction s).1 _ _ _ hc h
  have hlt := (s.srcByte s.g2Ip).isLt
  unfold decodeAddr at hfetch
  rw [takeNum_byte] at hfetch
  by_cases h1 : s.g2Ip < s.srcLen
  · rw [if_pos h1] at hfetch
    dsimp only at hfetch
    by_cases h128 : 128 ≤ (s.srcByte s.g2Ip).toNat
    · rw [if_pos (by omega)] at hfetch
      rw [hrun hfetch, if_pos (by rw [operandLen, if_pos h128]; omega)]
      exact execLzAddrRel_taken h128
    · rw [if_neg (by omega), takeNum_byte] at hfetch
      rw [operandLen, if_neg h128]
      by_cases h2 : s.g2Ip + 1 < s.srcLen
      · rw [if_pos h2] at hfetch
        rw [hrun hfetch, if_pos (by omega)]
        exact execLzAddrAbs_taken h128
      · rw [if_neg h2] at hfetch
        rw [step_of_fetch_error hc hfetch, if_neg (by omega)]
        rfl
  · rw [if_neg h1] at hfetch
    rw [step_of_fetch_error hc hfetch, if_neg (by unfold operandLen; split <;> omega)]
    rfl

/-- A step inside a decode at a phase that reads no element. -/
theorem step_quiet {s : State} (hp : s.phase ≠ .idle) (hc : fetchCtx s = none) : step s = quietStep s := by
  rw [step, if_neg hp, elementStep, hc]

/-- A step at a transfer (R206 to R208). -/
theorem step_lzCopy {s : State} (hp : s.phase = .lzCopy) : step s = settle s (pendingTransfer s) := by
  rw [step_quiet (by rw [hp]; decide) (by rw [fetchCtx, hp]), quietStep, hp]

/-- The pending transfer is the one of the command number, and the next header follows. -/
theorem pendingTransfer_eq {s : State} (hc : s.g2Cmd.toNat = 4 ∨ s.g2Cmd.toNat = 5 ∨ s.g2Cmd.toNat = 6) :
    pendingTransfer s = (lzTransfer s.g2Cmd.toNat s).map fun u => { u with phase := .lzHeader } := by
  rcases hc with hc | hc | hc <;> rw [pendingTransfer, hc]
  · show _ = (repTransfer s).map _
    cases repTransfer s <;> rfl
  · show _ = (brevTransfer s).map _
    cases brevTransfer s <;> rfl
  · show _ = (backTransfer s).map _
    cases backTransfer s <;> rfl

/-- A step that stops does not end in a state without a fault or refusal. -/
theorem not_stopped {s t : State} {e : Stop} (h : settle s (.error e) = .next t) (ht : t.st.stuck = false) : False := by
  cases h
  rw [stop_stuck] at ht
  cases ht

/-- The state at the transfer of a back-reference whose operand was read as an element of its own (R203). -/
def transferring (f : LzForm) (s : State) : State := { referred f s with phase := .lzCopy }

/-- Settles O49: neither half stops, so the operand is there, the checks pass and the bytes fit; then both sides are the same state. -/
theorem operandThenTransferIsTheCommand : Obligations.OperandThenTransferIsTheCommand := by
  intro f i s t u hf hc hp ht htst hst hu hust
  have hcmd : f.cmd.toNat = 4 ∨ f.cmd.toNat = 5 ∨ f.cmd.toNat = 6 := by
    rcases backRef_cmd hf hc with h | h | h <;> rw [h] <;> decide
  have hstep := step_lzOperand (s := { headed f s with phase := .lzOperand }) rfl
  by_cases hop : s.g2Ip + f.bytes + operandLen s (s.g2Ip + f.bytes) ≤ s.srcLen
  · obtain rfl : t = transferring f s := by
      cases ht.symm.trans (hstep.trans (if_pos hop))
      rfl
    have htransfer : settle (transferring f s) ((lzTransfer f.cmd.toNat (transferring f s)).map fun u => { u with phase := .lzHeader }) = .next u := by
      rw [step_lzCopy rfl, pendingTransfer_eq hcmd] at hu
      exact hu
    by_cases hin : outside f.cmd.toNat (referred f s)
    · rw [lzTransfer_outside (u := transferring f s) hcmd hin] at htransfer
      exact (not_stopped htransfer hust).elim
    · rw [lzTransfer_inside (u := transferring f s) hcmd hin] at htransfer
      by_cases hr : room s f.len
      · rw [appendAll_room (s := transferring f s) hr (transferred_length _ _)] at htransfer
        rw [exec_backRef_fits hf (backRef_cmd hf hc) hr hop hin, ← htransfer]
        have hsame : referred f s = { referred f s with phase := .lzHeader } := by
          rw [← hp]
          rfl
        rw [hsame]
        rfl
      · rw [appendAll_full_of_length (s := transferring f s) (lzForm_len_pos hf) (transferred_length _ _) hr] at htransfer
        exact (not_stopped htransfer hust).elim
  · exact (not_stopped (e := .raise .truncatedInput) ((hstep.trans (if_neg hop)).symm.trans ht) htst).elim

/-! ## The layout (R212, R213) -/

theorem step_g2Layout {s : State} (hp : s.phase = .g2Layout) : step s = settle s (g2Finish s) := by
  rw [step_quiet (by rw [hp]; decide) (by rw [fetchCtx, hp]), quietStep, hp]

theorem g2Finish_noTile {s : State} (h : chooseDims s = .error (.raise .truncatedInput)) : g2Finish s = .error (.raise .truncatedInput) := by
  rw [g2Finish, h]

theorem checkSize_short {s : State} (h : s.bufD.length < s.g2Tw * s.g2Th * 16) : checkSize s = .error (.raise .truncatedInput) := by
  rw [checkSize_eq, if_pos h]

theorem checkSize_long {s : State} (h : s.g2Tw * s.g2Th * 16 < s.bufD.length) (hl : s.lenient = false) :
    checkSize s = .error (.raise .overrun) := by
  rw [checkSize_eq, if_neg (not_lt.mpr h.le), if_pos ⟨h, hl⟩]

theorem g2Finish_short {s : State} {w h : Nat} (hd : chooseDims s = .ok (w, h)) (hlen : s.bufD.length < w * h * 16) :
    g2Finish s = .error (.raise .truncatedInput) := by
  rw [g2Finish, hd]
  dsimp only
  rw [checkSize_short (s := { s with g2Tw := w, g2Th := h }) hlen]

theorem g2Finish_long {s : State} {w h : Nat} (hd : chooseDims s = .ok (w, h)) (hlen : w * h * 16 < s.bufD.length) (hl : s.lenient = false) :
    g2Finish s = .error (.raise .overrun) := by
  rw [g2Finish, hd]
  dsimp only
  rw [checkSize_long (s := { s with g2Tw := w, g2Th := h }) hlen hl]

theorem shapeOf_area {table : List (Nat × Nat × Nat)} {n w h : Nat} (hwf : table.all (fun row => row.2.1 * row.2.2 == row.1) = true)
    (hs : shapeOf table n = some (w, h)) : w * h = n := by
  obtain ⟨⟨k, wh⟩, hfind, rfl⟩ := Option.map_eq_some_iff.mp hs
  have harea := List.all_eq_true.mp hwf _ (List.mem_of_find?_eq_some hfind)
  have hk := List.find?_some hfind
  rw [beq_iff_eq] at harea hk
  exact harea.trans hk

/-- An inferred layout has as many tiles as the output has whole ones (R212). -/
theorem inferred_area {p : Config.Params} (hwf : p.wf = true) (n : Nat) :
    ((shapeOf p.shapeTable n).getD (1, n)).1 * ((shapeOf p.shapeTable n).getD (1, n)).2 = n := by
  cases hs : shapeOf p.shapeTable n with
  | none => exact Nat.one_mul n
  | some wh => exact shapeOf_area hwf hs

/-- Settles O52: the layout is chosen, and then its size is compared with the output. -/
theorem layoutChecksTheSize : Obligations.LayoutChecksTheSize := by
  intro s hp
  rw [step_g2Layout hp]
  refine ⟨fun ho hpf hl => ?_, fun ho hpf hl hwf hmod hlen => ?_, fun w h hsource => ?_⟩
  · rw [g2Finish_noTile ((chooseDims_inferred ho hpf).trans (if_pos hl))]
    exact settle_truncated s
  · obtain ⟨w, h, hd, harea⟩ : ∃ w h, chooseDims s = .ok (w, h) ∧ w * h = s.bufD.length / 16 :=
      ⟨_, _, (chooseDims_inferred ho hpf).trans (if_neg (not_lt.mpr hl)), inferred_area hwf _⟩
    rw [g2Finish_long hd (by omega) hlen]
    exact settle_overrun s
  · have hd : chooseDims s = .ok (w, h) := by
      rcases hsource with ⟨ho, rfl, rfl⟩ | ⟨ho, hpf, rfl, rfl⟩ | ⟨ho, hpf, hl, hwh⟩
      · exact chooseDims_override ho
      · exact chooseDims_block ho hpf
      · rw [chooseDims_inferred ho hpf, if_neg (not_lt.mpr hl), hwh]
    refine ⟨fun hlt => ?_, fun hlt hl => ?_⟩
    · rw [g2Finish_short hd hlt]
      exact settle_truncated s
    · rw [g2Finish_long hd hlt hl]
      exact settle_overrun s

end Sys2Proof.Machine

/-! PROOFS. The planes pixel by pixel: where a pair lands (41_gen1_decode.md R161), the delta-decode in closed form (R168), placement and
assembly (43_tile_assembler.md R230 to R240). -/

namespace Sys2Proof.Machine

/-! ## Pairs (R161) -/

/-- The bits of a pair at its place in a byte: place `a` of four, the high bit left. -/
theorem pairBits_getLsbD (p : BitVec 2) {a b e : Nat} (ha : a < 4) (hb : b < 4) (he : e < 2) :
    (p.setWidth 8 <<< (6 - 2 * a)).getLsbD (7 - (2 * b + e)) = (decide (b = a) && p.getLsbD (1 - e)) := by
  rw [BitVec.getLsbD_shiftLeft, BitVec.getLsbD_setWidth]
  rcases lt_trichotomy b a with h | rfl | h
  · rw [BitVec.getLsbD_of_ge p _ (by omega)]
    simp [h.ne]
  · rw [show 7 - (2 * b + e) - (6 - 2 * b) = 1 - e by omega, decide_eq_true (by omega), decide_eq_false (by omega),
      decide_eq_true (by omega)]
    simp
  · rw [decide_eq_true (show 7 - (2 * b + e) < 6 - 2 * a by omega), decide_eq_false h.ne']
    simp

/-- Settles O31: the pair's byte is the pixel's byte exactly in the pair's tile column and row, and there the bits are told apart by
their place in the byte. -/
theorem pairLandsOnTwoPixels : Obligations.PairLandsOnTwoPixels := by
  intro w h n p buf x y hl hn hx hy
  have hy' : y < h * 8 := by omega
  have hrow : n % (h * 8) < h * 8 := Nat.mod_lt _ (by omega)
  have hcol : n / (h * 8) / 4 < w := by
    have : n / (h * 8) < w * 4 := Nat.div_lt_of_lt_mul (by calc n < w * h * 32 := hn
      _ = h * 8 * (w * 4) := by ring)
    omega
  have hi : n / (h * 8) / 4 * (h * 8) + n % (h * 8) < buf.length := by
    rw [hl, Nat.mul_assoc]
    exact byteIndex_lt hcol hrow
  have hbit : planeBit (emitPair (h * 8) n p buf) (h * 8) x y = (planeBit buf (h * 8) x y ||
      (decide (x / 8 * (h * 8) + y = n / (h * 8) / 4 * (h * 8) + n % (h * 8)) &&
        (p.setWidth 8 <<< (6 - 2 * (n / (h * 8) % 4))).getLsbD (7 - x % 8))) := by
    unfold planeBit emitPair
    by_cases he : x / 8 * (h * 8) + y = n / (h * 8) / 4 * (h * 8) + n % (h * 8)
    · simp [he, List.getD_eq_getElem?_getD, hi]
    · simp [he, List.getD_eq_getElem?_getD, List.getElem?_set_ne (Ne.symm he)]
  rw [hbit, show x % 8 = 2 * (x / 2 % 4) + x % 2 by omega,
    pairBits_getLsbD p (Nat.mod_lt _ (by omega)) (Nat.mod_lt _ (by omega)) (Nat.mod_lt x (by omega)), ← Bool.and_assoc]
  congr 2
  rw [← Bool.decide_and, decide_eq_decide]
  constructor
  · rintro ⟨hidx, hplace⟩
    obtain ⟨hc, hr⟩ := byteIndex_inj hy' hrow hidx
    omega
  · rintro ⟨hr, hc⟩
    rw [hr, ← hc]
    exact ⟨by rw [show x / 2 / 4 = x / 8 by omega], rfl⟩

/-! ## The delta-decode in closed form (R168) -/

theorem parityByte_getLsbD (b : Byte) {i : Nat} (hi : i < 8) :
    (parityByte b).getLsbD i = (List.range (8 - i)).foldl (fun p j => p ^^ b.getLsbD (7 - j)) false := by
  unfold parityByte
  simp only [BitVec.getLsbD_xor, BitVec.getLsbD_ushiftRight]
  interval_cases i <;> simp [List.range_succ, Bool.xor_comm]

/-- Settles O36: bit by bit, both are the parity of the bits to the left. -/
theorem deltaDecodesAByteByShifts : Obligations.DeltaDecodesAByteByShifts := by
  intro d buf
  refine List.map_congr_left fun b _ => BitVec.eq_of_getLsbD_eq fun i hi => ?_
  have hbit := deltaByte_bit 0 b (7 - i) (by omega)
  rw [show 7 - (7 - i) = i by omega, show 7 - i + 1 = 8 - i by omega] at hbit
  exact hbit.trans (parityByte_getLsbD b hi).symm

/-- Two planes of one size with the same pixels are the same. -/
theorem plane_ext {a b : List Byte} {w rows : Nat} (ha : a.length = w * rows) (hb : b.length = w * rows)
    (h : ∀ x y, x < 8 * w → y < rows → planeBit a rows x y = planeBit b rows x y) : a = b := by
  refine List.ext_getElem (ha.trans hb.symm) fun k hk hk' => BitVec.eq_of_getLsbD_eq fun i hi => ?_
  have hrows : 0 < rows := Nat.pos_of_ne_zero fun h0 => by
    rw [ha, h0, Nat.mul_zero] at hk
    omega
  have hcol : k / rows < w := Nat.div_lt_of_lt_mul (by rw [Nat.mul_comm, ← ha]; exact hk)
  have hat : k / rows * rows + k % rows = k := Nat.div_add_mod' k rows
  have hbit := h (8 * (k / rows) + (7 - i)) (k % rows) (by omega) (Nat.mod_lt _ hrows)
  rw [planeBit_byte a _ _ _ _ (by omega), planeBit_byte b _ _ _ _ (by omega), hat, show 7 - (7 - i) = i by omega,
    List.getD_eq_getElem _ _ hk, List.getD_eq_getElem _ _ hk'] at hbit
  exact hbit

theorem deltaSpanByte_length (d : BitVec 1) (buf : List Byte) : (deltaSpanByte d buf).1.length = buf.length :=
  List.length_map _

/-- Settles O37: on one tile column every span begins at pixel 0. -/
theorem spansAgreeOnOneTileColumn : Obligations.SpansAgreeOnOneTileColumn := by
  intro rows d buf hl
  have hl1 : buf.length = 1 * rows := by omega
  refine plane_ext (w := 1) (rows := rows) ((deltaSpanByte_length d buf).trans hl1) ((planeDecoded_foldl buf d hl1 rows (le_refl rows)).length.trans hl1)
    fun x y hx hy => ?_
  rw [planeBit_deltaSpanByte d buf 1 rows x y hl1 hx hy, planeBit_deltaSpanRow d buf 1 rows x y hl1 hx hy,
    show x / 8 * 8 = 0 by omega]

/-! ## Placement and assembly (R230 to R240) -/

theorem choosePhysical_eq (gen1 : Bool) (s : State) : choosePhysical gen1 s = physicalSize gen1 s s.dlW s.dlH := by
  unfold choosePhysical physicalSize
  simp only [Bool.and_eq_true]
  rfl

/-- A pixel of a placed plane (R233): the declared pixel that many tiles up and left of it, or nothing outside the declared image. -/
theorem planeBit_placedPlane (d : List Byte) (s : State) {x y : Nat} (hx : x < s.phW * 8) (hy : y < s.phH * 8) :
    planeBit (placedPlane d s) (s.phH * 8) x y =
      (decide (8 * s.colOff ≤ x ∧ x < 8 * (s.colOff + s.dlW) ∧ 8 * s.rowOff ≤ y ∧ y < 8 * (s.rowOff + s.dlH)) &&
        planeBit d (s.dlH * 8) (x - 8 * s.colOff) (y - 8 * s.rowOff)) := by
  have hk : x / 8 * (s.phH * 8) + y < s.phW * s.phH * 8 := by
    rw [Nat.mul_assoc]
    exact byteIndex_lt (by omega) hy
  have hcol : (x / 8 * (s.phH * 8) + y) / (s.phH * 8) = x / 8 := by
    rw [Nat.mul_comm, Nat.mul_add_div (by omega), Nat.div_eq_of_lt hy, Nat.add_zero]
  have hrow : (x / 8 * (s.phH * 8) + y) % (s.phH * 8) = y := by
    rw [Nat.mul_comm, Nat.mul_add_mod, Nat.mod_eq_of_lt hy]
  rw [planeBit, List.getD_eq_getElem?_getD, placedPlane_get d s _ hk, Option.getD_some, placedByte]
  simp only [hcol, hrow]
  by_cases hin : 8 * s.colOff ≤ x ∧ x < 8 * (s.colOff + s.dlW) ∧ 8 * s.rowOff ≤ y ∧ y < 8 * (s.rowOff + s.dlH)
  · rw [if_pos (by omega), decide_eq_true hin, Bool.true_and, planeBit, show (x - 8 * s.colOff) / 8 = x / 8 - s.colOff by omega,
      show (x - 8 * s.colOff) % 8 = x % 8 by omega, Nat.mul_comm 8 s.rowOff]
  · rw [if_neg (by omega), decide_eq_false hin, Bool.false_and]
    exact BitVec.getLsbD_zero

/-- The state after placement (R231 to R233). -/
def placed (gen1 : Bool) (d0 d1 : List Byte) (s : State) : State :=
  let ph := physicalSize gen1 s s.dlW s.dlH
  let u := { s with phW := ph.1, phH := ph.2, colOff := (ph.1 - s.dlW + 1) / 2, rowOff := ph.2 - s.dlH }
  { u with p0 := placedPlane d0 u, p1 := placedPlane d1 u }

/-- The state after a decode whose image fits. -/
def shown (gen1 : Bool) (d0 d1 : List Byte) (s : State) : State :=
  { assemble (placed gen1 d0 d1 s) with st := s.st.finish, phase := .idle }

theorem finish_fits {gen1 : Bool} {d0 d1 : List Byte} {s : State} (hw : s.dlW ≤ (physicalSize gen1 s s.dlW s.dlH).1)
    (hh : s.dlH ≤ (physicalSize gen1 s s.dlW s.dlH).2) : finish gen1 d0 d1 s = .ok (shown gen1 d0 d1 s) := by
  have hplace : place gen1 d0 d1 s = .ok (placed gen1 d0 d1 s) := by
    rw [place, choosePhysical_eq]
    exact if_neg (by omega)
  rw [finish, hplace]
  rfl

theorem finish_misfit {gen1 : Bool} (d0 d1 : List Byte) {s : State}
    (h : (physicalSize gen1 s s.dlW s.dlH).1 < s.dlW ∨ (physicalSize gen1 s s.dlW s.dlH).2 < s.dlH) :
    finish gen1 d0 d1 s = .error (.refuse .declaredExceedsPhysical) := by
  have hplace : place gen1 d0 d1 s = .error (.refuse .declaredExceedsPhysical) := by
    rw [place, choosePhysical_eq]
    exact if_pos h
  rw [finish, hplace]

/-- A pixel of the physical image: the colour index of the declared pixel it shows, or 0 (R233, R236). -/
theorem shown_pix (gen1 : Bool) (d0 d1 : List Byte) (s : State) {x y : Nat} (hx : x < 8 * (shown gen1 d0 d1 s).phW)
    (hy : y < 8 * (shown gen1 d0 d1 s).phH) :
    (shown gen1 d0 d1 s).pix[y * ((shown gen1 d0 d1 s).phW * 8) + x]? = some (pixelAt (placed gen1 d0 d1 s) x y) :=
  pixels_get (placed gen1 d0 d1 s) x y (by rw [Nat.mul_comm]; exact hx) (by rw [Nat.mul_comm]; exact hy)

theorem planeBit_placed (gen1 : Bool) (d0 d1 d : List Byte) {s : State} {x y : Nat} (hx : x < 8 * (shown gen1 d0 d1 s).phW)
    (hy : y < 8 * (shown gen1 d0 d1 s).phH) :
    planeBit (placedPlane d (shown gen1 d0 d1 s)) ((shown gen1 d0 d1 s).phH * 8) x y =
      (decide (8 * (shown gen1 d0 d1 s).colOff ≤ x ∧ x < 8 * ((shown gen1 d0 d1 s).colOff + s.dlW) ∧
          8 * (shown gen1 d0 d1 s).rowOff ≤ y ∧ y < 8 * ((shown gen1 d0 d1 s).rowOff + s.dlH)) &&
        planeBit d (s.dlH * 8) (x - 8 * (shown gen1 d0 d1 s).colOff) (y - 8 * (shown gen1 d0 d1 s).rowOff)) := by
  have hw : (shown gen1 d0 d1 s).dlW = s.dlW := rfl
  have hh : (shown gen1 d0 d1 s).dlH = s.dlH := rfl
  have hbit := planeBit_placedPlane d (shown gen1 d0 d1 s) (x := x) (y := y) (by omega) (by omega)
  rwa [hw, hh] at hbit

/-- The declared image stands inside the physical one (R231, R232). -/
theorem shown_offsets {gen1 : Bool} {s : State} (d0 d1 : List Byte) (hw : s.dlW ≤ (physicalSize gen1 s s.dlW s.dlH).1)
    (hh : s.dlH ≤ (physicalSize gen1 s s.dlW s.dlH).2) :
    (shown gen1 d0 d1 s).colOff + s.dlW ≤ (shown gen1 d0 d1 s).phW ∧ (shown gen1 d0 d1 s).rowOff + s.dlH = (shown gen1 d0 d1 s).phH := by
  refine ⟨?_, Nat.sub_add_cancel hh⟩
  show ((physicalSize gen1 s s.dlW s.dlH).1 - s.dlW + 1) / 2 + s.dlW ≤ (physicalSize gen1 s s.dlW s.dlH).1
  omega

/-- What fits is shown at its place (R233, R236). -/
theorem shown_shows {gen1 : Bool} {s : State} (d0 d1 : List Byte) (hw : s.dlW ≤ (physicalSize gen1 s s.dlW s.dlH).1)
    (hh : s.dlH ≤ (physicalSize gen1 s s.dlW s.dlH).2) :
    Shows gen1 s (shown gen1 d0 d1 s) s.dlW s.dlH
      (fun x y => BitVec.ofBool (planeBit d1 (s.dlH * 8) x y) ++ BitVec.ofBool (planeBit d0 (s.dlH * 8) x y)) := by
  obtain ⟨hcol, hrow⟩ := shown_offsets d0 d1 hw hh
  refine ⟨rfl, rfl, ⟨rfl, rfl⟩, rfl, ⟨rfl, rfl⟩, ?_, fun x y hx hy => ?_, fun x y hx hy hout => ?_, rfl⟩
  · refine ⟨?_, ?_, ?_⟩
    · exact (List.length_map _).trans List.length_range
    · exact (List.length_map _).trans List.length_range
    · exact (List.length_map _).trans List.length_range
  · have hx' : x + 8 * (shown gen1 d0 d1 s).colOff < 8 * (shown gen1 d0 d1 s).phW := by omega
    have hy' : y + 8 * (shown gen1 d0 d1 s).rowOff < 8 * (shown gen1 d0 d1 s).phH := by omega
    have hin : 8 * (shown gen1 d0 d1 s).colOff ≤ x + 8 * (shown gen1 d0 d1 s).colOff ∧
        x + 8 * (shown gen1 d0 d1 s).colOff < 8 * ((shown gen1 d0 d1 s).colOff + s.dlW) ∧
        8 * (shown gen1 d0 d1 s).rowOff ≤ y + 8 * (shown gen1 d0 d1 s).rowOff ∧
        y + 8 * (shown gen1 d0 d1 s).rowOff < 8 * ((shown gen1 d0 d1 s).rowOff + s.dlH) := by omega
    have hbit (d : List Byte) := planeBit_placed gen1 d0 d1 d hx' hy'
    simp only [decide_eq_true hin, Bool.true_and, Nat.add_sub_cancel] at hbit
    rw [← hbit d0, ← hbit d1]
    exact shown_pix gen1 d0 d1 s hx' hy'
  · have hin : ¬(8 * (shown gen1 d0 d1 s).colOff ≤ x ∧ x < 8 * ((shown gen1 d0 d1 s).colOff + s.dlW) ∧
        8 * (shown gen1 d0 d1 s).rowOff ≤ y ∧ y < 8 * ((shown gen1 d0 d1 s).rowOff + s.dlH)) :=
      fun ⟨h1, h2, h3, _⟩ => hout ⟨h1, h2, h3⟩
    have hbit (d : List Byte) := planeBit_placed gen1 d0 d1 d hx hy
    simp only [decide_eq_false hin, Bool.false_and] at hbit
    have hzero : (0 : Pixel) = BitVec.ofBool false ++ BitVec.ofBool false := rfl
    rw [hzero]
    nth_rw 1 [← hbit d1]
    rw [← hbit d0]
    exact shown_pix gen1 d0 d1 s hx hy

/-- Settles O53. -/
theorem placementShowsTheDeclaredImage : Obligations.PlacementShowsTheDeclaredImage :=
  fun _ d0 d1 _ _ _ => ⟨fun hw hh => ⟨_, finish_fits hw hh, rfl, shown_shows d0 d1 hw hh⟩, finish_misfit d0 d1⟩

end Sys2Proof.Machine

/-! PROOFS. Write and read are symmetric (40_bitcursor.md R140): the sink holds the fields bit by bit, and then zeros to the end of its
last byte; the reader takes the same bits apart again. -/

namespace Sys2Proof.Machine

/-! ## The bits from a position on -/

theorem bitsFrom_eq_append (s : State) {n p : Nat} (h : p + n ≤ 8 * s.srcLen) : s.bitsFrom p = s.srcBits n p ++ s.bitsFrom (p + n) := by
  unfold State.bitsFrom
  rw [show 8 * s.srcLen - p = n + (8 * s.srcLen - (p + n)) by omega, srcBits_append]

theorem bitsFrom_advance (n p : Nat) (s : State) : (s.advance n).bitsFrom p = s.bitsFrom p := advance_srcBits n _ p s

/-- Where the source continues with `xs` and then `rest`: `xs` is there, and behind it stands `rest`. -/
theorem bitsFrom_split {s : State} {p : Nat} {xs rest : Bits} (h : s.bitsFrom p = xs ++ rest) :
    s.srcBits xs.length p = xs ∧ s.bitsFrom (p + xs.length) = rest ∧ (xs = [] ∨ p + xs.length ≤ 8 * s.srcLen) := by
  by_cases hxs : xs = []
  · subst hxs
    exact ⟨rfl, h, .inl rfl⟩
  · have hlen := congrArg List.length h
    have hpos := List.length_pos_of_ne_nil hxs
    rw [bitsFrom_length, List.length_append] at hlen
    have hle : p + xs.length ≤ 8 * s.srcLen := by omega
    rw [bitsFrom_eq_append s hle] at h
    obtain ⟨h1, h2⟩ := List.append_inj h (srcBits_length _ _ _)
    exact ⟨h1, h2, .inr hle⟩

/-! ## Writing -/

/-- The bits of a list of fields (R91). -/
def fieldBits (fs : List (Nat × Nat)) : Bits := fs.flatMap fun f => natToBits f.2 f.1

theorem fieldBits_cons (v n : Nat) (fs : List (Nat × Nat)) : fieldBits ((v, n) :: fs) = natToBits n v ++ fieldBits fs := rfl

theorem fieldBits_length (fs : List (Nat × Nat)) : (fieldBits fs).length = (fs.map Prod.snd).sum := by
  simp [fieldBits, List.length_flatMap]

/-- Fields written with room in the sink for every byte they complete (R135, R140). -/
theorem writeFields_spec (fs : List (Nat × Nat)) (s : State) (hc : writerClean s)
    (hr : sinkRoom s ((s.wrCnt.toNat + (fs.map Prod.snd).sum) / 8)) :
    ∃ t, writeFields fs s = .ok t ∧ t.params = s.params ∧ writtenBits t = writtenBits s ++ fieldBits fs ∧
      t.snkLen = s.snkLen + (s.wrCnt.toNat + (fs.map Prod.snd).sum) / 8 ∧
      t.wrCnt.toNat = (s.wrCnt.toNat + (fs.map Prod.snd).sum) % 8 ∧ writerClean t := by
  induction fs generalizing s with
  | nil =>
    have hlt := s.wrCnt.isLt
    refine ⟨s, rfl, rfl, (List.append_nil _).symm, ?_, ?_, hc⟩
    · rw [List.map_nil, List.sum_nil, Nat.add_zero, Nat.div_eq_of_lt hlt, Nat.add_zero]
    · rw [List.map_nil, List.sum_nil, Nat.add_zero, Nat.mod_eq_of_lt hlt]
  | cons f fs ih =>
    obtain ⟨v, n⟩ := f
    simp only [List.map_cons, List.sum_cons] at hr ⊢
    obtain ⟨t, ht, hframe, hbits, hlen, hcnt, -, hclean⟩ :=
      writeBits_spec v n s hc fun c hcap => by
        have := hr c hcap
        omega
    have hparams : t.params = s.params := by rw [hframe]
    obtain ⟨u, hu, hparams', hbits', hlen', hcnt', hclean'⟩ := ih t hclean fun c hcap => by
      have := hr c (hparams ▸ hcap)
      have hl : t.snk.length = s.snk.length + (s.wrCnt.toNat + n) / 8 := hlen
      omega
    refine ⟨u, ?_, hparams'.trans hparams, ?_, by omega, by omega, hclean'⟩
    · rw [writeFields, ht]
      exact hu
    · rw [hbits', hbits, fieldBits_cons, List.append_assoc]

/-! ## Flushing -/

/-- The pending byte is its pending bits and then zeros (R25). -/
theorem pendingByte_bits {s : State} (hc : writerClean s) :
    natToBits 8 s.wrAcc.toNat = pendingBits s.wrAcc s.wrCnt.toNat ++ List.replicate (8 - s.wrCnt.toNat) false := by
  have hlt := s.wrCnt.isLt
  have hl := pendingBits_len s.wrAcc s.wrCnt.toNat (by omega)
  rw [← pendingBits_full]
  refine pendingBits_ext _ _ (le_refl 8) _ ?_ fun i hi => ?_
  · rw [List.length_append, hl, List.length_replicate]
    omega
  · by_cases h : i < s.wrCnt.toNat
    · rw [List.getElem?_append_left (by omega), pendingBits_get _ _ _ (by omega) h]
    · rw [List.getElem?_append_right (by omega), hl, List.getElem?_replicate, if_pos (by omega), hc (7 - i) (by omega)]

theorem bytesToBits_snoc (bs : List Byte) (b : Byte) : bytesToBits (bs ++ [b]) = bytesToBits bs ++ natToBits 8 b.toNat := by
  simp [bytesToBits]

/-- After a flush the sink holds every bit written, and zeros to the end of its last byte (R137). -/
theorem flush_spec {s : State} (hc : writerClean s) (hr : s.wrCnt ≠ 0 → sinkRoom s 1) :
    ∃ t k, flush s = .ok t ∧ k < 8 ∧ bytesToBits t.snk = writtenBits s ++ List.replicate k false := by
  by_cases h : s.wrCnt = 0
  · refine ⟨s, 0, flush_empty h, by omega, ?_⟩
    rw [writtenBits, h]
    simp [pendingBits]
  · have hne : s.wrCnt.toNat ≠ 0 := fun h0 => h (BitVec.eq_of_toNat_eq h0)
    refine ⟨_, 8 - s.wrCnt.toNat, flush_room h (hr h), by omega, ?_⟩
    rw [bytesToBits_snoc, pendingByte_bits hc, writtenBits, List.append_assoc]

/-! ## Reading -/

/-- Fields that stand at the reader are read back (R132, R140). -/
theorem readFields_spec (fs : List (Nat × Nat)) (s : State) (rest : Bits) (hfs : ∀ f ∈ fs, f.1 < 2 ^ f.2)
    (h : s.bitsFrom s.rdPos = fieldBits fs ++ rest) : ∃ t, readFields (fs.map Prod.snd) s = .ok (fs.map Prod.fst, t) := by
  induction fs generalizing s with
  | nil => exact ⟨s, rfl⟩
  | cons f fs ih =>
    obtain ⟨v, n⟩ := f
    rw [fieldBits_cons, List.append_assoc] at h
    obtain ⟨hbits, hrest, hfits⟩ := bitsFrom_split h
    rw [natToBits_length] at hbits hrest hfits
    have hread : readBits n s = .ok (v, s.advance n) := by
      have hfits' : n = 0 ∨ s.rdPos + n ≤ 8 * s.srcLen := hfits.imp_left fun h0 => by
        rw [← natToBits_length n v, h0, List.length_nil]
      rw [readBits_spec, if_pos hfits', hbits, bitsToNat_natToBits, Nat.mod_eq_of_lt (hfs (v, n) List.mem_cons_self)]
    obtain ⟨t, ht⟩ := ih (s.advance n) (fun f hf => hfs f (List.mem_cons_of_mem _ hf)) (by
      rw [rdPos_advance, bitsFrom_advance]
      exact hrest)
    refine ⟨t, ?_⟩
    simp only [List.map_cons, readFields, hread, ht]

theorem bitsFrom_reading (bs : List Byte) (s : State) : (reading bs s).bitsFrom 0 = bytesToBits bs := by
  show (reading bs s).srcBits (8 * bs.length) 0 = _
  rw [srcBits_reading bs s _ 0 (by omega), List.drop_zero, List.take_of_length_le (by rw [bytesToBits_length])]

/-- Settles O12: the sink holds the bits of the fields and fewer than 8 zeros, so the fields read back and the rest is zero. -/
theorem whatIsWrittenIsReadBack : Obligations.WhatIsWrittenIsReadBack := by
  intro s fs hfs hcap
  have hclean : writerClean (openCursors s) := fun i _ => BitVec.getLsbD_zero
  obtain ⟨t, ht, hparams, hbits, hlen, hcnt, htclean⟩ := writeFields_spec fs (openCursors s) hclean fun c hc => by
    have := hcap c hc
    show 0 + (0 + _) / 8 ≤ c
    omega
  have hlen' : t.snk.length = 0 + (0 + (fs.map Prod.snd).sum) / 8 := hlen
  have hcnt' : t.wrCnt.toNat = (0 + (fs.map Prod.snd).sum) % 8 := hcnt
  have hroom (h : t.wrCnt ≠ 0) : sinkRoom t 1 := fun c hc => by
    have := hcap c (hparams ▸ hc)
    have hne : t.wrCnt.toNat ≠ 0 := fun h0 => h (BitVec.eq_of_toNat_eq h0)
    omega
  obtain ⟨u, k, hu, hk, hsnk⟩ := flush_spec htclean hroom
  have hopen : writtenBits (openCursors s) = [] := rfl
  rw [hbits, hopen, List.nil_append] at hsnk
  have hsize : 8 * u.snk.length = (fs.map Prod.snd).sum + k := by
    rw [← bytesToBits_length, hsnk, List.length_append, fieldBits_length, List.length_replicate]
  obtain ⟨v, hv⟩ := readFields_spec fs (reading u.snk s) _ hfs ((bitsFrom_reading u.snk s).trans hsnk)
  refine ⟨t, u, v, ht, hu, ?_, hv, fun p hp hlt => ?_⟩
  · show u.snk.length = _
    omega
  · have hlt' : p < 8 * u.snk.length := hlt
    have hbit := reading_srcBit u.snk s p hlt'
    rw [hsnk, List.getElem?_append_right (by rw [fieldBits_length]; exact hp), List.getElem?_replicate, fieldBits_length,
      if_pos (by omega)] at hbit
    exact Option.some.inj hbit

end Sys2Proof.Machine

/-! PROOFS. A Gen1 sub-stream element by element (41_gen1_decode.md R157 to R163): from the sequencer's passes to the pairs that a plane
is filled with. -/

namespace Sys2Proof.Machine

/-! ## Passes of a decode -/

/-- One pass of a decode (R150, R193). -/
def Pass (s t : State) : Prop := s.phase ≠ .idle ∧ step s = .next t

/-- A list of passes. -/
abbrev Passes : State → State → Prop := Relation.ReflTransGen Pass

/-- The passes that lead to an idle state are those of the element loop. -/
theorem decodeLoop_of_passes {s t : State} (h : Passes s t) (ht : t.phase = .idle) {n : Nat} (hn : passesLeft s ≤ n) :
    decodeLoop n s = .next t := by
  induction h using Relation.ReflTransGen.head_induction_on generalizing n with
  | refl => exact decodeLoop_idle n ht
  | head hpass _ ih =>
    obtain ⟨hp, hstep⟩ := hpass
    obtain ⟨v, hv, hlt⟩ := step_passesLeft hp
    obtain rfl : _ = v := Host.Outcome.next.inj (hstep.symm.trans hv)
    obtain ⟨m, rfl⟩ : ∃ m, n = m + 1 := ⟨n - 1, by omega⟩
    rw [decodeLoop_step m hp hstep]
    exact ih (by omega)

/-- An element that stands at the cursor is decoded and run in one pass. -/
theorem pass_element {u t : State} {i : Instr} {rest : Bits} (hc : fetchCtx u = some i.ctx) (hwf : i.wf = true)
    (hbits : unread i.ctx u = encode i ++ rest) (hexec : exec i u = .next t) : Pass u t := by
  refine ⟨phase_ne_idle_of_fetchCtx hc, ?_⟩
  rw [(stepRunsTheDecodedInstruction u).1 _ i rest hc (hbits ▸ decodeReadsBackEveryEncoding i rest hwf), hexec]

/-! ## Reading a Gen1 stream -/

/-- Inside a Gen1 decode of the state `s`, with `bits` of its source unread. -/
structure ReadsGen1 (s u : State) (bits : Bits) : Prop where
  frame : withoutGen1 u = withoutGen1 s
  status : u.st = s.st.begin
  unread : u.bitsFrom u.rdPos = bits
  position : u.rdPos + bits.length = 8 * s.srcLen

theorem bitsFrom_congr {s t : State} (h : SameInputs s t) (p : Nat) : t.bitsFrom p = s.bitsFrom p := by
  have hlen : t.srcLen = s.srcLen := h.2.2.1
  have hbits (n p : Nat) : t.srcBits n p = s.srcBits n p := by
    induction n generalizing p with
    | zero => rfl
    | succ n ih => rw [State.srcBits, State.srcBits, ih, State.srcBit, State.srcBit, srcByte_congr h]
  rw [State.bitsFrom, State.bitsFrom, hlen, hbits]

theorem unread_gen1 {c : Ctx} (hg : c.byteGranular = false) (hc : c ≠ .command) (u : State) : unread c u = u.bitsFrom u.rdPos := by
  cases c with
  | header | init | rle | data | mode => rfl
  | pfx | lz | addr => cases hg
  | command => exact absurd rfl hc

/-- A Gen1 element that stands at the cursor and does not stop takes its own bits (R108). -/
theorem ReadsGen1.element {s u t : State} {i : Instr} {rest : Bits} (h : ReadsGen1 s u (encode i ++ rest)) (hst : s.st.stuck = false)
    (hc : fetchCtx u = some i.ctx) (hwf : i.wf = true) (hg : i.ctx.byteGranular = false) (hexec : exec i u = .next t)
    (hkept : t.st = u.st) : Pass u t ∧ ReadsGen1 s t rest := by
  obtain ⟨hframe, hstatus, hunread, hpos⟩ := h
  have hne := fetchCtx_ne_command hc
  refine ⟨pass_element hc hwf ((unread_gen1 hg hne u).trans hunread) hexec, ?_⟩
  rcases exec_gen1_element hg hne hexec with ⟨e, rfl⟩ | ⟨htframe, -, htpos⟩
  · have hstuck := stop_stuck e u
    rw [hkept, hstatus] at hstuck
    exact absurd (hst.symm.trans hstuck) (by decide)
  · obtain ⟨-, hrest, -⟩ := bitsFrom_split hunread
    refine ⟨htframe.trans hframe, hkept.trans hstatus, ?_, ?_⟩
    · rw [htpos, bitsFrom_congr (DecodeFrame.of_withoutGen1 htframe).inputs, hrest]
    · rw [List.length_append] at hpos
      omega

/-! ## Filling a plane -/

/-- The pairs `q` ORed in from pair number `e` on (R161). -/
def putPairs (rows : Nat) : Nat → List (BitVec 2) → List Byte → List Byte
  | _, [], buf => buf
  | e, p :: q, buf => putPairs rows (e + 1) q (emitPair rows e p buf)

theorem putPairs_append (rows e : Nat) (q q' : List (BitVec 2)) (buf : List Byte) :
    putPairs rows e (q ++ q') buf = putPairs rows (e + q.length) q' (putPairs rows e q buf) := by
  induction q generalizing e buf with
  | nil => rfl
  | cons p q ih =>
    rw [List.cons_append, putPairs, ih, putPairs, List.length_cons, Nat.add_assoc, Nat.add_comm 1]

theorem emitPair_zero (rows n : Nat) (buf : List Byte) : emitPair rows n 0 buf = buf := by
  have hor (b : Byte) (k : Nat) : b ||| ((0 : BitVec 2).setWidth 8 <<< k) = b := by
    rw [show (0 : BitVec 2).setWidth 8 = 0#8 from rfl, BitVec.zero_shiftLeft, BitVec.or_zero]
  unfold emitPair
  dsimp only
  rw [hor]
  refine List.ext_getElem? fun j => ?_
  by_cases hj : n / rows / 4 * rows + n % rows = j
  · subst hj
    rw [List.getElem?_set_self', List.getD_eq_getElem?_getD]
    cases buf[n / rows / 4 * rows + n % rows]? <;> rfl
  · rw [List.getElem?_set_ne hj]

/-- Zero pairs change nothing (R159). -/
theorem putPairs_zeros (rows e r : Nat) (buf : List Byte) : putPairs rows e (List.replicate r 0) buf = buf := by
  induction r generalizing e with
  | zero => rfl
  | succ r ih => rw [List.replicate_succ, putPairs, emitPair_zero, ih]

/-- The state `u` after the pairs `q` have been put into the current plane; the reader and the state of the sub-stream as given. -/
def walked (q : List (BitVec 2)) (u : State) (a : Nat) (b : BitVec 3) (st : BitVec 1) : State :=
  { u with
    rdByte := a, rdBit := b, g1State := st
    bufB := if u.g1Cur = 0 then putPairs (u.g1Th.toNat * 8) u.g1Emit q u.bufB else u.bufB
    bufC := if u.g1Cur = 0 then u.bufC else putPairs (u.g1Th.toNat * 8) u.g1Emit q u.bufC
    g1Emit := u.g1Emit + q.length, phase := planePhase u (u.g1Emit + q.length) }

theorem walked_walked (q q' : List (BitVec 2)) (u : State) (a a' : Nat) (b b' : BitVec 3) (st st' : BitVec 1) :
    walked q' (walked q u a b st) a' b' st' = walked (q ++ q') u a' b' st' := by
  have hB : (walked q' (walked q u a b st) a' b' st').bufB = (walked (q ++ q') u a' b' st').bufB := by
    simp only [walked, putPairs_append]
    split_ifs <;> rfl
  have hC : (walked q' (walked q u a b st) a' b' st').bufC = (walked (q ++ q') u a' b' st').bufC := by
    simp only [walked, putPairs_append]
    split_ifs <;> rfl
  have hn : u.g1Emit + q.length + q'.length = u.g1Emit + (q ++ q').length := by rw [List.length_append, Nat.add_assoc]
  have hrest : walked q' (walked q u a b st) a' b' st' = { walked (q ++ q') u a' b' st' with
      bufB := (walked q' (walked q u a b st) a' b' st').bufB
      bufC := (walked q' (walked q u a b st) a' b' st').bufC
      g1Emit := u.g1Emit + q.length + q'.length, phase := planePhase u (u.g1Emit + q.length + q'.length) } := rfl
  rw [hrest, hB, hC, hn]
  rfl

/-- Zero pairs put into a plane (R159). -/
theorem walked_zeros (r : Nat) (u : State) (a : Nat) (b : BitVec 3) (st : BitVec 1) : walked (List.replicate r 0) u a b st =
    { u with rdByte := a, rdBit := b, g1State := st, g1Emit := u.g1Emit + r, phase := planePhase u (u.g1Emit + r) } := by
  rw [walked, putPairs_zeros, putPairs_zeros, ite_self, ite_self, List.length_replicate]

/-- A run puts its zero pairs, as many as there is room for (R159, R160). -/
theorem exec_run_walked {i : Instr} {k v r n : Nat} {u : State} (hi : runParts i = some (k, v)) (hn : u.g1Emit + n = u.g1Total)
    (hr : r = min (2 ^ (k + 1) - 1 + v) n) (hfit : 2 ^ (k + 1) - 1 + v ≤ n ∨ u.lenient = true) :
    ∃ a b, exec i u = .next (walked (List.replicate r 0) u a b 1) := by
  simp only [walked_zeros]
  by_cases h : 2 ^ (k + 1) - 1 + v ≤ n
  · rw [hr, Nat.min_eq_left h]
    exact ⟨_, _, runEmitsZeroPairs i k v u hi (by omega)⟩
  · rw [hr, Nat.min_eq_right (by omega), hn]
    exact ⟨_, _, (runPastThePlane i k v u hi (by omega) (by omega)).2 (hfit.resolve_left h)⟩

theorem exec_pair_walked {i : Instr} {p : BitVec 2} (hi : pairValue i = some p) (u : State) :
    ∃ a b, exec i u = .next (walked [p] u a b u.g1State) := by
  rw [exec_pairValue hi, pairElement_eq]
  exact ⟨_, _, rfl⟩

theorem exec_switch_walked (u : State) : ∃ a b, exec .g1Switch u = .next (walked [] u a b 0) := by
  obtain ⟨-, -, h⟩ := initAndSwitchSetTheState u
  have hw (a : Nat) (b : BitVec 3) : walked [] u a b 0 = { u with rdByte := a, rdBit := b, g1State := 0, phase := planePhase u u.g1Emit } :=
    walked_zeros 0 u a b 0
  simp only [hw]
  exact ⟨_, _, h⟩

/-! ## The elements of a plane -/

theorem runParts_ctx {i : Instr} {kv : Nat × Nat} (h : runParts i = some kv) : i.ctx = .rle := by
  cases i <;> cases h <;> rfl

theorem pairValue_ctx {i : Instr} {p : BitVec 2} (h : pairValue i = some p) : i.ctx = .data := by
  cases i <;> cases h <;> rfl

theorem rle_data_gen1 {c : Ctx} (h : c = .rle ∨ c = .data) : c.byteGranular = false := by
  rcases h with rfl | rfl <;> rfl

/-- The first element of a plane's list: a run in state RLE, a pair or the switch in state DATA (R157). -/
theorem planePairs_cons {l : Bool} {st : BitVec 1} {n : Nat} {i : Instr} {is : List Instr} {q : List (BitVec 2)}
    (h : planePairs l st n (i :: is) = some q) :
    0 < n ∧
      ((st = 0 ∧ ∃ k v q', runParts i = some (k, v) ∧ (2 ^ (k + 1) - 1 + v ≤ n ∨ l = true) ∧
          planePairs l 1 (n - min (2 ^ (k + 1) - 1 + v) n) is = some q' ∧ q = List.replicate (min (2 ^ (k + 1) - 1 + v) n) 0 ++ q') ∨
        (st ≠ 0 ∧ ∃ p q', pairValue i = some p ∧ planePairs l 1 (n - 1) is = some q' ∧ q = p :: q') ∨
        (st ≠ 0 ∧ i = .g1Switch ∧ planePairs l 0 n is = some q)) := by
  cases n with
  | zero => cases h
  | succ n =>
    refine ⟨n.succ_pos, ?_⟩
    rw [planePairs] at h
    by_cases hst : st = 0
    · left
      rw [if_pos hst] at h
      refine ⟨hst, ?_⟩
      cases hi : runParts i with
      | none => rw [hi] at h; cases h
      | some kv =>
        obtain ⟨k, v⟩ := kv
        rw [hi] at h
        dsimp only at h
        by_cases hr : 2 ^ (k + 1) - 1 + v ≤ n + 1
        · rw [if_pos hr] at h
          obtain ⟨q', hq', rfl⟩ := Option.map_eq_some_iff.mp h
          exact ⟨k, v, q', rfl, .inl hr, by rw [Nat.min_eq_left hr]; exact hq', by rw [Nat.min_eq_left hr]⟩
        · rw [if_neg hr] at h
          cases l with
          | false => cases h
          | true =>
            obtain ⟨q', hq', rfl⟩ := Option.map_eq_some_iff.mp h
            have hmin : min (2 ^ (k + 1) - 1 + v) (n + 1) = n + 1 := by omega
            exact ⟨k, v, q', rfl, .inr rfl, by rw [hmin, Nat.sub_self]; exact hq', by rw [hmin]⟩
    · right
      rw [if_neg hst] at h
      cases hi : pairValue i with
      | some p =>
        rw [hi] at h
        obtain ⟨q', hq', rfl⟩ := Option.map_eq_some_iff.mp h
        exact .inl ⟨hst, p, q', rfl, hq', rfl⟩
      | none =>
        rw [hi] at h
        dsimp only at h
        by_cases hsw : i = .g1Switch
        · rw [if_pos hsw] at h
          exact .inr ⟨hst, hsw, h⟩
        · rw [if_neg hsw] at h
          cases h

/-- The first element of a plane's list, run where it stands. -/
theorem plane_element {u : State} {n : Nat} {i : Instr} {is : List Instr} {q : List (BitVec 2)}
    (h : planePairs u.lenient u.g1State n (i :: is) = some q) (hn : u.g1Emit + n = u.g1Total) (hp : u.phase = planePhase u u.g1Emit) :
    ∃ q1 q' a b st n', fetchCtx u = some i.ctx ∧ i.ctx.byteGranular = false ∧ exec i u = .next (walked q1 u a b st) ∧
      planePairs u.lenient st n' is = some q' ∧ q = q1 ++ q' ∧ n = q1.length + n' := by
  obtain ⟨hpos, hfirst⟩ := planePairs_cons h
  have hpacket : fetchCtx u = if u.g1State = 0 then some .rle else some .data := by
    rw [fetchCtx, hp, planePhase, if_pos (by omega)]
  rcases hfirst with ⟨hst, k, v, q', hi, hfit, hq', rfl⟩ | ⟨hst, p, q', hi, hq', rfl⟩ | ⟨hst, rfl, hq⟩
  · obtain ⟨a, b, hexec⟩ := exec_run_walked hi hn rfl hfit
    refine ⟨_, q', a, b, 1, _, ?_, rle_data_gen1 (.inl (runParts_ctx hi)), hexec, hq', rfl, ?_⟩
    · rw [hpacket, if_pos hst, runParts_ctx hi]
    · rw [List.length_replicate]
      omega
  · obtain ⟨a, b, hexec⟩ := exec_pair_walked hi u
    have hst1 : u.g1State = 1 := by
      have hlt := u.g1State.isLt
      have hne : u.g1State.toNat ≠ 0 := fun h0 => hst (BitVec.eq_of_toNat_eq h0)
      exact BitVec.eq_of_toNat_eq (show u.g1State.toNat = 1 by omega)
    refine ⟨[p], q', a, b, _, n - 1, ?_, rle_data_gen1 (.inr (pairValue_ctx hi)), hexec, by rw [hst1]; exact hq', rfl, ?_⟩
    · rw [hpacket, if_neg hst, pairValue_ctx hi]
    · rw [List.length_singleton]
      omega
  · obtain ⟨a, b, hexec⟩ := exec_switch_walked u
    refine ⟨[], q, a, b, 0, n, ?_, rfl, hexec, hq, rfl, (Nat.zero_add n).symm⟩
    rw [hpacket, if_neg hst]
    rfl

theorem walked_nil {u : State} (hp : u.phase = planePhase u u.g1Emit) : walked [] u u.rdByte u.rdBit u.g1State = u := by
  have h : walked [] u u.rdByte u.rdBit u.g1State = { u with phase := planePhase u u.g1Emit } := walked_zeros 0 u _ _ _
  rw [h, ← hp]

/-- A sub-stream whose elements fill the plane is run to its end: the current plane has its pairs (R157 to R163). -/
theorem plane_passes {s : State} (hst : s.st.stuck = false) (rest : Bits) (is : List Instr) (hwf : ∀ i ∈ is, i.wf = true) {u : State} {n : Nat}
    {q : List (BitVec 2)} (hq : planePairs u.lenient u.g1State n is = some q) (hn : u.g1Emit + n = u.g1Total)
    (hp : u.phase = planePhase u u.g1Emit) (hread : ReadsGen1 s u (is.flatMap encode ++ rest)) :
    ∃ a b st, q.length = n ∧ Passes u (walked q u a b st) ∧ ReadsGen1 s (walked q u a b st) rest := by
  induction is generalizing u n q with
  | nil =>
    cases n with
    | succ n => cases hq
    | zero =>
      cases hq
      refine ⟨u.rdByte, u.rdBit, u.g1State, rfl, ?_, ?_⟩
      · rw [walked_nil hp]
      · rw [walked_nil hp]
        exact hread
  | cons i is ih =>
    obtain ⟨q1, q', a, b, st, n', hc, hg, hexec, hq', rfl, rfl⟩ := plane_element hq hn hp
    rw [List.flatMap_cons, List.append_assoc] at hread
    obtain ⟨hpass, hread'⟩ := hread.element hst hc (hwf i List.mem_cons_self) hg hexec rfl
    obtain ⟨a', b', st', hlen, hpasses, hread''⟩ :=
      ih (fun j hj => hwf j (List.mem_cons_of_mem _ hj)) (u := walked q1 u a b st) hq' ((Nat.add_assoc _ _ _).trans hn) rfl hread'
    rw [walked_walked] at hpasses hread''
    exact ⟨a', b', st', by rw [List.length_append, hlen], .head hpass hpasses, hread''⟩

end Sys2Proof.Machine

/-! PROOFS. The image of a Gen1 stream (41_gen1_decode.md R161 to R171): the planes by their pairs, the post-processing pixel by pixel,
and the whole decode. -/

namespace Sys2Proof.Machine

/-! ## Planes by their pairs -/

theorem putPairs_length (rows e : Nat) (q : List (BitVec 2)) (buf : List Byte) : (putPairs rows e q buf).length = buf.length := by
  induction q generalizing e buf with
  | nil => rfl
  | cons p q ih => rw [putPairs, ih, emitPair_length]

/-- The pair number `k` of a list that begins at pair number `e`. -/
theorem getLsbD_pair_cons (p : BitVec 2) (q : List (BitVec 2)) (e k b : Nat) :
    (decide (k = e) && p.getLsbD b || decide (e + 1 ≤ k) && (q.getD (k - (e + 1)) 0).getLsbD b) =
      (decide (e ≤ k) && ((p :: q).getD (k - e) 0).getLsbD b) := by
  rcases lt_trichotomy k e with hk | rfl | hk
  · rw [decide_eq_false (by omega), decide_eq_false (by omega), decide_eq_false (by omega)]
    rfl
  · rw [decide_eq_true rfl, decide_eq_false (by omega), decide_eq_true (le_refl k), Nat.sub_self]
    simp
  · rw [decide_eq_false (by omega), decide_eq_true (by omega), decide_eq_true (by omega), show k - e = k - (e + 1) + 1 by omega]
    rfl

/-- Each pixel is ORed with its bit of the pair that lands on it (R161). -/
theorem planeBit_putPairs {w h e : Nat} {q : List (BitVec 2)} {buf : List Byte} {x y : Nat} (hl : buf.length = w * h * 8)
    (he : e + q.length ≤ w * h * 32) (hx : x < 8 * w) (hy : y < 8 * h) :
    planeBit (putPairs (h * 8) e q buf) (h * 8) x y =
      (planeBit buf (h * 8) x y ||
        (decide (e ≤ x / 2 * (h * 8) + y) && (q.getD (x / 2 * (h * 8) + y - e) 0).getLsbD (1 - x % 2))) := by
  induction q generalizing e buf with
  | nil => simp [putPairs]
  | cons p q ih =>
    rw [List.length_cons] at he
    have hplace : (y = e % (h * 8) ∧ x / 2 = e / (h * 8)) ↔ x / 2 * (h * 8) + y = e := by
      constructor
      · rintro ⟨rfl, hcol⟩
        rw [hcol]
        exact Nat.div_add_mod' e (h * 8)
      · rintro rfl
        have hy' : y < h * 8 := by omega
        rw [Nat.mul_comm, Nat.mul_add_mod, Nat.mod_eq_of_lt hy', Nat.mul_add_div (by omega), Nat.div_eq_of_lt hy']
        exact ⟨rfl, rfl⟩
    rw [putPairs, ih (by rw [emitPair_length, hl]) (by omega), pairLandsOnTwoPixels w h e p buf x y hl (by omega) hx hy,
      decide_eq_decide.mpr hplace, Bool.or_assoc]
    exact congrArg _ (getLsbD_pair_cons p q e _ _)

/-- A plane filled from zero shows its pairs (R153, R161). -/
theorem planeBit_filled {w h : Nat} {q : List (BitVec 2)} {x y : Nat} (hq : q.length = w * h * 32) (hx : x < 8 * w) (hy : y < 8 * h) :
    planeBit (putPairs (h * 8) 0 q (List.replicate (w * h * 8) 0)) (h * 8) x y = rawBit (h * 8) q x y := by
  have hzero : planeBit (List.replicate (w * h * 8) 0) (h * 8) x y = false := by
    have hbyte (k : Nat) : (List.replicate (w * h * 8) (0 : Byte)).getD k 0 = 0 := by
      rw [List.getD_eq_getElem?_getD, List.getElem?_replicate]
      split <;> rfl
    rw [planeBit, hbyte]
    exact BitVec.getLsbD_zero
  rw [planeBit_putPairs List.length_replicate (by omega) hx hy, hzero, decide_eq_true (Nat.zero_le _), Nat.sub_zero]
  rfl

/-- The parity of a filled plane's pixels is that of its pairs (R168). -/
theorem rowParity_filled {span : Config.DeltaSpan} {plane : List Byte} {w rows : Nat} {q : List (BitVec 2)} {x y : Nat}
    (hplane : ∀ x, x < 8 * w → planeBit plane rows x y = rawBit rows q x y) (hx : x < 8 * w) :
    rowParity plane rows (spanStart span x) x y = parityBit span rows q x y := by
  have hstart : spanStart span x ≤ x := by
    cases span with
    | byte => exact Nat.div_mul_le_self x 8
    | row => exact Nat.zero_le x
  refine List.foldl_ext _ _ _ fun p j hj => ?_
  have hj : j < x + 1 - spanStart span x := List.mem_range.mp hj
  rw [hplane _ (by omega)]

/-! ## Post-processing (R166 to R172) -/

/-- The primary buffer (R169). -/
def primaryBuf (s : State) : List Byte := if s.g1Primary = 0 then s.bufB else s.bufC

/-- The other buffer (R169). -/
def otherBuf (s : State) : List Byte := if s.g1Primary = 0 then s.bufC else s.bufB

theorem planeBit_xorInto {a b : List Byte} {rows x y : Nat} (hl : a.length = b.length) (hi : x / 8 * rows + y < a.length) :
    planeBit (xorInto a b) rows x y = (planeBit a rows x y ^^ planeBit b rows x y) := by
  have hi' : x / 8 * rows + y < b.length := hl ▸ hi
  unfold planeBit xorInto
  rw [List.getD_eq_getElem _ _ (by rw [List.length_zipWith, hl, Nat.min_self]; exact hi'), List.getElem_zipWith, BitVec.getLsbD_xor,
    List.getD_eq_getElem _ _ hi, List.getD_eq_getElem _ _ hi']

/-- The plane `out` is the delta-decode of `buf`, with the size and the span of the state `s` (R168). -/
structure Decodes (s : State) (buf out : List Byte) : Prop where
  length : out.length = buf.length
  pixels : buf.length = s.g1Tw.toNat * (s.g1Th.toNat * 8) → ∀ x y, x < 8 * s.g1Tw.toNat → y < 8 * s.g1Th.toNat →
    planeBit out (s.g1Th.toNat * 8) x y = rowParity buf (s.g1Th.toNat * 8) (spanStart s.params.deltaSpan x) x y

theorem decodes_deltaDecode (s : State) (buf : List Byte) : Decodes s buf (deltaDecode s buf).1 where
  length := deltaDecode_length s buf
  pixels := fun hl x y hx hy => deltaDecodeIsTheRunningParity s buf x y hl hx hy

/-- The delta-decode of `C` after that of `B`: `DS` is all that has changed. -/
theorem decodes_after_deltaB (s : State) (buf : List Byte) : Decodes s buf (deltaDecode (deltaB s) buf).1 :=
  ⟨(decodes_deltaDecode (deltaB s) buf).length, (decodes_deltaDecode (deltaB s) buf).pixels⟩

theorem decodes_both (s : State) :
    Decodes s (primaryBuf s) (primaryBuf (deltaC (deltaB s))) ∧ Decodes s (otherBuf s) (otherBuf (deltaC (deltaB s))) := by
  have hprimary : (deltaC (deltaB s)).g1Primary = s.g1Primary := rfl
  have hB : (deltaC (deltaB s)).bufB = (deltaDecode s s.bufB).1 := rfl
  have hC : (deltaC (deltaB s)).bufC = (deltaDecode (deltaB s) s.bufC).1 := rfl
  unfold primaryBuf otherBuf
  rw [hprimary, hB, hC]
  split
  · exact ⟨decodes_deltaDecode s _, decodes_after_deltaB s _⟩
  · exact ⟨decodes_after_deltaB s _, decodes_deltaDecode s _⟩

theorem decodes_other (s : State) :
    primaryBuf (deltaOther s) = primaryBuf s ∧ Decodes s (otherBuf s) (otherBuf (deltaOther s)) := by
  by_cases hp : s.g1Primary = 0
  · have hd : deltaOther s = deltaC s := if_pos hp
    have hp' : (deltaC s).g1Primary = 0 := hp
    rw [hd, primaryBuf, primaryBuf, otherBuf, otherBuf, if_pos hp, if_pos hp, if_pos hp', if_pos hp']
    exact ⟨rfl, decodes_deltaDecode s _⟩
  · have hd : deltaOther s = deltaB s := if_neg hp
    have hp' : ¬(deltaB s).g1Primary = 0 := hp
    rw [hd, primaryBuf, primaryBuf, otherBuf, otherBuf, if_neg hp, if_neg hp, if_neg hp', if_neg hp']
    exact ⟨rfl, decodes_deltaDecode s _⟩

theorem xorPrimary_bufs (s : State) :
    primaryBuf (xorPrimary s) = xorInto (primaryBuf s) (otherBuf s) ∧ otherBuf (xorPrimary s) = otherBuf s := by
  unfold xorPrimary primaryBuf otherBuf
  by_cases hp : s.g1Primary = 0
  · simp only [if_pos hp, and_self]
  · simp only [if_neg hp, and_self]

/-- The post-processing pixel by pixel, by the mode (R166, R169, R170). -/
theorem postProcess_pixels {s : State} (hpri : (primaryBuf s).length = s.g1Tw.toNat * (s.g1Th.toNat * 8))
    (hoth : (otherBuf s).length = s.g1Tw.toNat * (s.g1Th.toNat * 8)) (hm : s.g1Mode = 0 ∨ s.g1Mode = 2 ∨ s.g1Mode = 3) {x y : Nat}
    (hx : x < 8 * s.g1Tw.toNat) (hy : y < 8 * s.g1Th.toNat) :
    let rows := s.g1Th.toNat * 8
    let a := spanStart s.params.deltaSpan x
    planeBit (otherBuf (postProcess s)) rows x y = rowParity (otherBuf s) rows a x y ∧
      planeBit (primaryBuf (postProcess s)) rows x y =
        if s.g1Mode = 0 then rowParity (primaryBuf s) rows a x y
        else if s.g1Mode = 2 then planeBit (primaryBuf s) rows x y ^^ rowParity (otherBuf s) rows a x y
        else rowParity (primaryBuf s) rows a x y ^^ rowParity (otherBuf s) rows a x y := by
  intro rows a
  have hi : x / 8 * rows + y < s.g1Tw.toNat * (s.g1Th.toNat * 8) := byteIndex_lt (by omega) (show y < s.g1Th.toNat * 8 by omega)
  obtain ⟨hpriBoth, hothBoth⟩ := decodes_both s
  obtain ⟨hpriOnly, hothOnly⟩ := decodes_other s
  rcases hm with hm | hm | hm
  · have hpost : postProcess s = deltaC (deltaB s) := by
      rw [postProcess, hm]
      rfl
    rw [hpost, if_pos hm]
    exact ⟨hothBoth.pixels hoth x y hx hy, hpriBoth.pixels hpri x y hx hy⟩
  · have hpost : postProcess s = xorPrimary (deltaOther s) := by
      rw [postProcess, hm]
      rfl
    obtain ⟨hxorPri, hxorOth⟩ := xorPrimary_bufs (deltaOther s)
    have hbit := hothOnly.pixels hoth x y hx hy
    rw [hpost, hxorPri, hxorOth, hpriOnly, planeBit_xorInto (hpri.trans (hothOnly.length.trans hoth).symm) (hpri ▸ hi), hbit, hm]
    exact ⟨rfl, rfl⟩
  · have hpost : postProcess s = xorPrimary (deltaC (deltaB s)) := by
      rw [postProcess, hm]
      rfl
    obtain ⟨hxorPri, hxorOth⟩ := xorPrimary_bufs (deltaC (deltaB s))
    have hlen := hpriBoth.length.trans hpri
    rw [hpost, hxorPri, hxorOth, planeBit_xorInto (hlen.trans (hothBoth.length.trans hoth).symm) (hlen ▸ hi),
      hothBoth.pixels hoth x y hx hy, hpriBoth.pixels hpri x y hx hy, hm]
    exact ⟨rfl, rfl⟩

end Sys2Proof.Machine

/-! PROOFS. The whole of `G1.DECODE` (41_gen1_decode.md R150): header, sub-stream, mode, sub-stream, post-processing, placement. -/

namespace Sys2Proof.Machine

theorem initElement_ctx (b : BitVec 1) : (initElement b).ctx = .init := by
  unfold initElement
  split <;> rfl

theorem initElement_wf (b : BitVec 1) : (initElement b).wf = true := by
  unfold initElement
  split <;> rfl

theorem exec_initElement (b : BitVec 1) (u : State) :
    exec (initElement b) u = .next { u.advance 1 with g1State := b, g1Emit := 0, phase := planePhase u 0 } := by
  obtain ⟨hrle, hdata, -⟩ := initAndSwitchSetTheState u
  by_cases hb : b = 0
  · subst hb
    exact hrle
  · have hne : b.toNat ≠ 0 := fun h0 => hb (BitVec.eq_of_toNat_eq h0)
    have hlt := b.isLt
    obtain rfl : b = 1 := BitVec.eq_of_toNat_eq (show b.toNat = 1 by omega)
    exact hdata

theorem ReadsGen1.lenient {s u : State} {bits : Bits} (h : ReadsGen1 s u bits) : u.lenient = s.lenient :=
  congrArg (fun c : BitVec 16 => c.getLsbD 0) (congrArg State.cfg h.frame :)

/-- The state after a sub-stream that puts the pairs `q` into the current plane (R156 to R163). -/
def planeDone (q : List (BitVec 2)) (u : State) (a : Nat) (b : BitVec 3) (st : BitVec 1) : State := walked q { u with g1Emit := 0 } a b st

/-- A sub-stream from its leading bit to the end of its plane (R156 to R163). -/
theorem subStream_passes {s u : State} (hst : s.st.stuck = false) {b : BitVec 1} {plane : List Instr} {rest : Bits} {q : List (BitVec 2)}
    (hp : u.phase = .g1Init) (hwf : ∀ i ∈ plane, i.wf = true) (hq : planePairs s.lenient b u.g1Total plane = some q)
    (hread : ReadsGen1 s u (encode (initElement b) ++ (plane.flatMap encode ++ rest))) :
    ∃ a c st, q.length = u.g1Total ∧ Passes u (planeDone q u a c st) ∧ ReadsGen1 s (planeDone q u a c st) rest := by
  have hc : fetchCtx u = some (initElement b).ctx := by rw [fetchCtx, hp, initElement_ctx]
  obtain ⟨hpass, hread'⟩ := hread.element hst hc (initElement_wf b) (by rw [initElement_ctx]; rfl) (exec_initElement b u) rfl
  rw [← hread.lenient] at hq
  obtain ⟨a, c, st, hlen, hpasses, hread''⟩ :=
    plane_passes hst rest plane hwf (u := { u.advance 1 with g1State := b, g1Emit := 0, phase := planePhase u 0 }) hq (Nat.zero_add _) rfl hread'
  exact ⟨a, c, st, hlen, .head hpass hpasses, hread''⟩

/-! ## Which buffer a sub-stream fills (R155, R165) -/

theorem bit_cases (b : BitVec 1) : b = 0 ∨ b = 1 := by
  have hlt := b.isLt
  rcases Nat.lt_or_ge b.toNat 1 with h | h
  · exact .inl (BitVec.eq_of_toNat_eq (show b.toNat = 0 by omega))
  · exact .inr (BitVec.eq_of_toNat_eq (show b.toNat = 1 by omega))

theorem bit_flip_ne (b : BitVec 1) : 1 - b ≠ b := by
  rcases bit_cases b with rfl | rfl <;> decide

/-- After the first plane comes the mode field, after the second the post-processing (R150). -/
theorem planeDone_phase {q : List (BitVec 2)} {u : State} (hq : q.length = u.g1Total) (a : Nat) (b : BitVec 3) (st : BitVec 1) :
    (planeDone q u a b st).phase = if u.g1Cur = u.g1Primary then .g1Mode else .g1Post := by
  show planePhase { u with g1Emit := 0 } (0 + q.length) = _
  rw [hq, Nat.zero_add]
  exact if_neg (Nat.lt_irrefl _)

theorem planeDone_primary {u : State} (h : u.g1Cur = u.g1Primary) (q : List (BitVec 2)) (a : Nat) (b : BitVec 3) (st : BitVec 1) :
    primaryBuf (planeDone q u a b st) = putPairs (u.g1Th.toNat * 8) 0 q (primaryBuf u) ∧ otherBuf (planeDone q u a b st) = otherBuf u := by
  simp only [primaryBuf, otherBuf, planeDone, walked, h]
  split <;> exact ⟨rfl, rfl⟩

theorem planeDone_other {u : State} (h : u.g1Cur = 1 - u.g1Primary) (q : List (BitVec 2)) (a : Nat) (b : BitVec 3) (st : BitVec 1) :
    primaryBuf (planeDone q u a b st) = primaryBuf u ∧ otherBuf (planeDone q u a b st) = putPairs (u.g1Th.toNat * 8) 0 q (otherBuf u) := by
  have hcur : u.g1Cur = 0 ↔ ¬u.g1Primary = 0 := by
    rw [h]
    rcases bit_cases u.g1Primary with hp | hp <;> rw [hp] <;> decide
  simp only [primaryBuf, otherBuf, planeDone, walked, hcur]
  by_cases hp : u.g1Primary = 0
  · simp only [hp, not_true, if_true, if_false, and_self]
  · simp only [hp, not_false_iff, if_true, if_false, and_self]

/-- Both planes of a stream are filled and its mode is known: what is left is the post-processing (R150). -/
structure PlanesFilled (s v : State) (p : BitVec 1) (tw th : Nat) (m : BitVec 2) (q1 q2 : List (BitVec 2)) (rest : Bits) : Prop where
  reads : ReadsGen1 s v rest
  phase : v.phase = .g1Post
  width : v.g1Tw.toNat = tw
  height : v.g1Th.toNat = th
  primary : v.g1Primary = p
  mode : v.g1Mode = m
  primaryPlane : primaryBuf v = putPairs (th * 8) 0 q1 (List.replicate (tw * th * 8) 0)
  otherPlane : otherBuf v = putPairs (th * 8) 0 q2 (List.replicate (tw * th * 8) 0)
  primaryPairs : q1.length = tw * th * 32
  otherPairs : q2.length = tw * th * 32

/-- The start of the decode reads the whole source (R257). -/
theorem reads_g1Begin {s : State} {bits : Bits} (h : s.bitsFrom 0 = bits) : ReadsGen1 s (g1Begin s) bits where
  frame := withoutGen1_g1Begin s
  status := rfl
  unread := (bitsFrom_congr (DecodeFrame.of_withoutGen1 (withoutGen1_g1Begin s)).inputs 0).trans h
  position := by
    rw [← h, bitsFrom_length]
    exact Nat.zero_add _

/-- The state after the header (R151 to R155). -/
def headerTaken (p : BitVec 1) (tw th : Nat) (u : State) : State :=
  { u.advance 9 with
    g1Tw := .ofNat 6 tw, g1Th := .ofNat 6 th, g1Total := tw * th * 32
    bufB := List.replicate (tw * th * 8) 0, bufC := List.replicate (tw * th * 8) 0
    g1Primary := p, g1Cur := p, phase := .g1Init }

/-- The state after the mode field: the second sub-stream fills the other buffer (R164, R165). -/
def modeTaken (m : BitVec 2) (n : Nat) (u : State) : State :=
  { u.advance n with g1Mode := m, g1Cur := 1 - u.g1Primary, phase := .g1Init }

theorem headerTaken_bufs (p : BitVec 1) (tw th : Nat) (u : State) :
    primaryBuf (headerTaken p tw th u) = List.replicate (tw * th * 8) 0 ∧ otherBuf (headerTaken p tw th u) = List.replicate (tw * th * 8) 0 :=
  ⟨ite_self _, ite_self _⟩

/-- The passes of a whole stream up to its post-processing (R150). -/
theorem gen1_passes {s : State} {g : Gen1Stream} {rest : Bits} {tw th : Nat} {m : BitVec 2} {n : Nat} {q1 q2 : List (BitVec 2)}
    (hst : s.st.stuck = false) (hbits : s.bitsFrom 0 = g.bits ++ rest) (hwf : ∀ i ∈ g.plane1 ++ g.plane2, i.wf = true)
    (hw : dimValue s.lenient g.w = some tw) (hh : dimValue s.lenient g.h = some th) (hm : modeParts g.mode = some (m, n))
    (hq1 : planePairs s.lenient g.init1 (tw * th * 32) g.plane1 = some q1)
    (hq2 : planePairs s.lenient g.init2 (tw * th * 32) g.plane2 = some q2) :
    ∃ v, Passes (g1Begin s) v ∧ PlanesFilled s v g.p tw th m q1 q2 rest := by
  have hread : ReadsGen1 s (g1Begin s) (encode (.g1Hdr g.w g.h g.p) ++ (encode (initElement g.init1) ++ (g.plane1.flatMap encode ++
      (encode g.mode ++ (encode (initElement g.init2) ++ (g.plane2.flatMap encode ++ rest)))))) :=
    reads_g1Begin (by rw [hbits, Gen1Stream.bits]; simp only [List.append_assoc])
  have htw : (BitVec.ofNat 6 tw).toNat = tw := (dimension_of_some (s := s) hw).2
  have hth : (BitVec.ofNat 6 th).toNat = th := (dimension_of_some (s := s) hh).2
  have hmode : g.mode.ctx = .mode ∧ g.mode.wf = true := by
    revert hm
    cases g.mode <;> intro hm <;> cases hm <;> exact ⟨rfl, rfl⟩
  obtain ⟨hpass0, hread1⟩ := hread.element hst rfl rfl rfl ((headerSetsUpTheImage g.w g.h g.p (g1Begin s)).1 tw th hw hh) rfl
  obtain ⟨a1, b1, st1, hlen1, hpasses1, hread2⟩ := subStream_passes (u := headerTaken g.p tw th (g1Begin s)) hst rfl
    (fun i hi => hwf i (List.mem_append_left _ hi)) hq1 hread1
  obtain ⟨hpri1, hoth1⟩ := planeDone_primary (u := headerTaken g.p tw th (g1Begin s)) rfl q1 a1 b1 st1
  obtain ⟨hzero, hzero'⟩ := headerTaken_bufs g.p tw th (g1Begin s)
  have hphase1 := (planeDone_phase (u := headerTaken g.p tw th (g1Begin s)) hlen1 a1 b1 st1).trans (if_pos rfl)
  generalize hu : planeDone q1 (headerTaken g.p tw th (g1Begin s)) a1 b1 st1 = u at hpasses1 hread2 hpri1 hoth1 hphase1
  have hgeom : u.g1Tw = .ofNat 6 tw ∧ u.g1Th = .ofNat 6 th ∧ u.g1Total = tw * th * 32 ∧ u.g1Primary = g.p := by
    rw [← hu]
    exact ⟨rfl, rfl, rfl, rfl⟩
  obtain ⟨hgw, hgh, hgt, hgp⟩ := hgeom
  obtain ⟨hpass2, hread3⟩ := hread2.element hst (by rw [fetchCtx, hphase1, hmode.1]) hmode.2 (by rw [hmode.1]; rfl)
    (modeIsTaken g.mode m n u hm) rfl
  obtain ⟨a3, b3, st3, hlen3, hpasses3, hread4⟩ := subStream_passes (u := modeTaken m n u) hst rfl
    (fun i hi => hwf i (List.mem_append_right _ hi)) (hgt.symm ▸ hq2) hread3
  obtain ⟨hpri3, hoth3⟩ := planeDone_other (u := modeTaken m n u) rfl q2 a3 b3 st3
  refine ⟨_, .trans (.head hpass0 hpasses1) (.head hpass2 hpasses3), hread4, ?_, ?_, ?_, hgp, rfl, ?_, ?_, hlen1, hlen3.trans hgt⟩
  · exact (planeDone_phase hlen3 a3 b3 st3).trans (if_neg (bit_flip_ne _))
  · exact (congrArg BitVec.toNat hgw).trans htw
  · exact (congrArg BitVec.toNat hgh).trans hth
  · have h : primaryBuf (modeTaken m n u) = primaryBuf u := rfl
    have hrows : (headerTaken g.p tw th (g1Begin s)).g1Th.toNat = th := hth
    rw [hpri3, h, hpri1, hzero, hrows]
  · have h : otherBuf (modeTaken m n u) = otherBuf u := rfl
    have hrows : (modeTaken m n u).g1Th.toNat = th := (congrArg BitVec.toNat hgh).trans hth
    rw [hoth3, h, hoth1, hzero', hrows]

/-! ## The image -/

theorem modeParts_mode {i : Instr} {m : BitVec 2} {n : Nat} (h : modeParts i = some (m, n)) : m = 0 ∨ m = 2 ∨ m = 3 := by
  cases i <;> cases h
  · exact .inl rfl
  · exact .inr (.inl rfl)
  · exact .inr (.inr rfl)

/-- The post-processed planes of a filled stream show the image of its pairs (R166 to R171). -/
theorem PlanesFilled.pixel {s v : State} {p : BitVec 1} {tw th : Nat} {m : BitVec 2} {q1 q2 : List (BitVec 2)} {rest : Bits}
    (h : PlanesFilled s v p tw th m q1 q2 rest) (hm : m = 0 ∨ m = 2 ∨ m = 3) {x y : Nat} (hx : x < 8 * tw) (hy : y < 8 * th) :
    BitVec.ofBool (planeBit (postProcess v).bufC (th * 8) x y) ++ BitVec.ofBool (planeBit (postProcess v).bufB (th * 8) x y) =
      gen1Index s.params.deltaSpan m p (th * 8) q1 q2 x y := by
  obtain ⟨hread, -, rfl, rfl, rfl, rfl, hpri, hoth, hlen1, hlen2⟩ := h
  have hparams : v.params = s.params := (congrArg State.params hread.frame :)
  have hlen (q : List (BitVec 2)) : (putPairs (v.g1Th.toNat * 8) 0 q (List.replicate (v.g1Tw.toNat * v.g1Th.toNat * 8) 0)).length =
      v.g1Tw.toNat * (v.g1Th.toNat * 8) := by
    rw [putPairs_length, List.length_replicate, Nat.mul_assoc]
  obtain ⟨hothPix, hpriPix⟩ := postProcess_pixels ((congrArg List.length hpri).trans (hlen q1)) ((congrArg List.length hoth).trans (hlen q2)) hm hx hy
  have hraw1 (x : Nat) (hx : x < 8 * v.g1Tw.toNat) : planeBit (primaryBuf v) (v.g1Th.toNat * 8) x y = rawBit (v.g1Th.toNat * 8) q1 x y := by
    rw [hpri, planeBit_filled hlen1 hx hy]
  have hraw2 (x : Nat) (hx : x < 8 * v.g1Tw.toNat) : planeBit (otherBuf v) (v.g1Th.toNat * 8) x y = rawBit (v.g1Th.toNat * 8) q2 x y := by
    rw [hoth, planeBit_filled hlen2 hx hy]
  rw [rowParity_filled hraw2 hx, hparams] at hothPix
  rw [rowParity_filled hraw1 hx, rowParity_filled hraw2 hx, hraw1 x hx, hparams] at hpriPix
  have hprimary : (postProcess v).g1Primary = v.g1Primary := by
    obtain ⟨_, _, _, hpost, -⟩ := postProcess_eq v
    rw [hpost]
  rw [gen1Index, ← hpriPix, ← hothPix, primaryBuf, otherBuf, hprimary]
  by_cases hp : v.g1Primary = 0
  · rw [if_pos hp, if_pos hp, if_pos hp]
  · rw [if_neg hp, if_neg hp, if_neg hp]

theorem physicalSize_congr {s t : State} (h : t.cfg = s.cfg) (gen1 : Bool) (w k : Nat) : physicalSize gen1 t w k = physicalSize gen1 s w k := by
  rw [physicalSize, physicalSize, h]

/-- What is shown, told of the state the decode began in. -/
theorem shows_congr {gen1 : Bool} {s u t : State} {w h : Nat} {f g : Nat → Nat → Pixel} (hs : Shows gen1 u t w h f)
    (hst : { u.st with done := true } = { s.st with done := true }) (hcfg : u.cfg = s.cfg)
    (hfg : ∀ x y, x < 8 * w → y < 8 * h → f x y = g x y) : Shows gen1 s t w h g :=
  { hs with
    done := hs.done.trans hst
    physical := hs.physical.trans (physicalSize_congr hcfg gen1 w h)
    inside := fun x y hx hy => (hs.inside x y hx hy).trans (congrArg some (hfg x y hx hy)) }

/-- The post-processed planes handed to the TileAssembler (R171, R174). -/
def handedOver (v : State) (b c : List Byte) (d : BitVec 1) : State :=
  { v with bufB := b, bufC := c, ds := d, dlW := v.g1Tw.toNat, dlH := v.g1Th.toNat }

theorem step_g1Post {v : State} (h : v.phase = .g1Post) : step v = settle v (g1Finish v) := by
  rw [step_quiet (by rw [h]; decide) (by rw [fetchCtx, h]), quietStep, h]

/-- Settles O59: the passes of the stream fill both planes, and the end of the decode shows them post-processed. -/
theorem gen1StreamIsDecoded : Obligations.Gen1StreamIsDecoded := by
  intro s g rest tw th m n q1 q2 hacc hbits hwf hw hh hm hq1 hq2 hfitw hfith
  obtain ⟨v, hpasses, hfilled⟩ := gen1_passes hacc.1 hbits hwf hw hh hm hq1 hq2
  obtain ⟨b, c, d, hpost, -⟩ := postProcess_eq v
  have hpixel {x y : Nat} (hx : x < 8 * tw) (hy : y < 8 * th) := hfilled.pixel (modeParts_mode hm) hx hy
  obtain ⟨hread, hphase, rfl, rfl, hp, hmode, -, -, -, -⟩ := hfilled
  obtain ⟨hframe, hstatus, -, hpos⟩ := hread
  have hcfg : v.cfg = s.cfg := (congrArg State.cfg hframe :)
  have hsize := physicalSize_congr (s := s) (t := handedOver v b c d) hcfg true v.g1Tw.toNat v.g1Th.toNat
  have hfw : v.g1Tw.toNat ≤ (physicalSize true (handedOver v b c d) v.g1Tw.toNat v.g1Th.toNat).1 := by
    rw [hsize]
    exact hfitw
  have hfh : v.g1Th.toNat ≤ (physicalSize true (handedOver v b c d) v.g1Tw.toNat v.g1Th.toNat).2 := by
    rw [hsize]
    exact hfith
  have hstep : step v = .next (shown true b c (handedOver v b c d)) := by
    have hfin : g1Finish v = .ok (shown true b c (handedOver v b c d)) := by
      rw [g1Finish, hpost]
      exact finish_fits hfw hfh
    rw [step_g1Post hphase, hfin, settle_ok]
  refine ⟨shown true b c (handedOver v b c d), ?_, ?_, rfl, rfl, hp, hmode, (congrArg State.pal hframe :), ?_⟩
  · rw [exec_g1Decode hacc]
    exact decodeLoop_of_passes (hpasses.tail ⟨by rw [hphase]; decide, hstep⟩) rfl (passesLeft_g1Begin s)
  · have hlen := congrArg List.length hbits
    rw [bitsFrom_length, List.length_append] at hlen
    have hrd : (shown true b c (handedOver v b c d)).rdPos = v.rdPos := rfl
    omega
  · refine shows_congr (shown_shows (s := handedOver v b c d) b c hfw hfh) ?_ hcfg fun x y hx hy => ?_
    · show { v.st with done := true } = _
      rw [hstatus]
      rfl
    · have hxy := hpixel hx hy
      rw [hpost] at hxy
      exact hxy

end Sys2Proof.Machine

/-! PROOFS. The whole of `G2.DECODE` (42_gen2_lz3.md R193): the optional block, the commands, the terminator, the layout, placement. -/

namespace Sys2Proof.Machine

/-! ## Source bits that are whole bytes (R91) -/

/-- Where the source continues with the bytes `bs`, they are its bytes. -/
theorem srcBytes_of_bits {s : State} {a : Nat} {bs : List Byte} {rest : Bits} (h : s.bitsFrom (8 * a) = bytesToBits bs ++ rest) :
    srcBytes s a bs.length = bs ∧ (bs = [] ∨ a + bs.length ≤ s.srcLen) := by
  induction bs generalizing a with
  | nil => exact ⟨rfl, .inl rfl⟩
  | cons b bs ih =>
    have hcons : bytesToBits (b :: bs) = natToBits 8 b.toNat ++ bytesToBits bs := rfl
    rw [hcons, List.append_assoc] at h
    have htake := takeNum_byte s a
    rw [h, takeNum_natToBits_of_lt b.isLt] at htake
    by_cases ha : a < s.srcLen
    · rw [if_pos ha] at htake
      obtain ⟨hb, hrest⟩ := Prod.mk.inj (Option.some.inj htake)
      obtain ⟨hbs, hfit⟩ := ih hrest.symm
      refine ⟨?_, .inr ?_⟩
      · rw [srcBytes, List.length_cons, List.range_succ_eq_map, List.map_cons, List.map_map, Nat.add_zero, ← BitVec.eq_of_toNat_eq hb]
        refine congrArg _ (Eq.trans (List.map_congr_left fun k _ => ?_) hbs)
        exact congrArg s.srcByte (by show a + (k + 1) = a + 1 + k; omega)
      · rw [List.length_cons]
        rcases hfit with rfl | hfit
        · exact ha
        · omega
    · rw [if_neg ha] at htake
      cases htake

/-! ## The operands of a command (R104, R105) -/

theorem srcByte_of_srcBytes {s : State} {a : Nat} {bs : List Byte} (h : srcBytes s a bs.length = bs) {k : Nat} {b : Byte} (hk : bs[k]? = some b) :
    s.srcByte (a + k) = b := by
  obtain ⟨hlt, -⟩ := List.getElem?_eq_some_iff.mp hk
  rw [← h, srcBytes, List.getElem?_map, List.getElem?_range hlt] at hk
  exact Option.some.inj hk

/-- An address operand in the source gives its length and its start (R203). -/
theorem operand_of_startOf {s : State} {a : Nat} {ops : List Byte} {b : Int} (hops : srcBytes s a ops.length = ops)
    (h : startOf ops s.bufD.length = some b) : operandLen s a = ops.length ∧ operandStart s a = b := by
  unfold startOf at h
  split at h
  · next ay =>
    have hay : s.srcByte a = ay := srcByte_of_srcBytes hops (k := 0) rfl
    split at h
    · next h128 =>
      rw [operandLen, operandStart, hay, if_pos h128, if_pos h128]
      exact ⟨rfl, Option.some.inj h⟩
    · cases h
  · next ay lo =>
    have hay : s.srcByte a = ay := srcByte_of_srcBytes hops (k := 0) rfl
    have hlo : s.srcByte (a + 1) = lo := srcByte_of_srcBytes hops (k := 1) rfl
    split at h
    · next h128 =>
      rw [operandLen, operandStart, hay, hlo, if_neg (by omega), if_neg (by omega)]
      exact ⟨rfl, Option.some.inj h⟩
    · cases h
  · cases h

/-! ## One command (R195 to R208) -/

theorem four_le_of_ne {n : Nat} (h0 : n ≠ 0) (h1 : n ≠ 1) (h2 : n ≠ 2) (h3 : n ≠ 3) : 4 ≤ n := by omega

/-- What a back-reference that applies says: its start, its range checks, the bytes it appends. -/
theorem lzApply_backRef {f : LzForm} {ops d d' : List Byte} (hc : 4 ≤ f.cmd.toNat) (h : lzApply f ops d = some d') :
    ∃ b, startOf ops d.length = some b ∧ 0 ≤ b ∧ b < (d.length : Int) ∧
      (f.cmd.toNat = 6 ∧ 0 ≤ b - (f.len - 1) ∧ d' = d ++ (List.range f.len).map (fun k => d.getD (b.toNat - k) 0) ∨
        f.cmd.toNat = 5 ∧ b + f.len ≤ (d.length : Int) ∧ d' = d ++ (List.range f.len).map (fun k => (d.getD (b.toNat + k) 0).reverse) ∨
        f.cmd.toNat ≠ 5 ∧ f.cmd.toNat ≠ 6 ∧ b + f.len ≤ (d.length : Int) ∧
          d' = d ++ (List.range f.len).map (fun k => d.getD (b.toNat + k) 0)) := by
  unfold lzApply at h
  split at h
  case h_1 h0 => omega
  case h_2 h0 => omega
  case h_3 h0 => omega
  case h_4 h0 => omega
  case h_5 =>
    split at h
    · cases h
    · next b hb =>
      refine ⟨b, hb, ?_⟩
      split_ifs at h with h1 h2 h3 h4 h5 <;> cases h
      · exact ⟨by omega, by omega, .inl ⟨h2, by omega, rfl⟩⟩
      · exact ⟨by omega, by omega, .inr (.inl ⟨h5, by omega, rfl⟩)⟩
      · exact ⟨by omega, by omega, .inr (.inr ⟨h5, h2, by omega, rfl⟩)⟩

/-- The state after a command that appends: header and operands taken, the output `d`. -/
def applied (f : LzForm) (n : Nat) (b : Int) (d : List Byte) (u : State) : State :=
  { headed f u with g2Ip := u.g2Ip + f.bytes + n, g2Start := b, bufD := d }

/-- A back-reference that applies, with its operand in the source and room in `D`. -/
theorem exec_backRef_applied {i : Instr} {f : LzForm} {u : State} {ops d : List Byte} (hf : lzForm i = some f) (hc : 4 ≤ f.cmd.toNat)
    (hr : room u f.len) (hops : srcBytes u (u.g2Ip + f.bytes) ops.length = ops) (hsrc : u.g2Ip + f.bytes + ops.length ≤ u.srcLen)
    (h : lzApply f ops u.bufD = some d) : ∃ b, exec i u = .next (applied f ops.length b d u) := by
  obtain ⟨b, hb, h0, hlt, hrange⟩ := lzApply_backRef hc h
  obtain ⟨hlen, hstart⟩ := operand_of_startOf hops hb
  have hcmd := backRef_cmd hf hc
  have href : (referred f u).g2Start = b := hstart
  have hfwd : forwardRange (referred f u) = (List.range f.len).map fun k => u.bufD.getD (b.toNat + k) 0 := by
    rw [forwardRange, href]
    rfl
  have hback : backwardRange (referred f u) = (List.range f.len).map fun k => u.bufD.getD (b.toNat - k) 0 := by
    rw [backwardRange, href]
    rfl
  obtain ⟨hin, hd⟩ : ¬outside f.cmd.toNat (referred f u) ∧ d = u.bufD ++ transferred f.cmd.toNat (referred f u) := by
    have hlow : ¬b < 0 := not_lt.mpr h0
    have hhigh : ¬(u.bufD.length : Int) ≤ b := not_le.mpr hlt
    rw [outside, href]
    rcases hrange with ⟨h6, hwalk, rfl⟩ | ⟨h5, hend, rfl⟩ | ⟨h5, h6, hend, rfl⟩
    · rw [h6, if_pos rfl]
      exact ⟨fun hout => hout.elim hlow fun h => h.elim hhigh (not_lt.mpr hwalk), by rw [← hback]; rfl⟩
    · rw [h5, if_neg (by decide)]
      refine ⟨fun hout => hout.elim hlow fun h => h.elim hhigh (not_lt.mpr hend), ?_⟩
      show _ = u.bufD ++ (forwardRange (referred f u)).map bitReverse
      rw [hfwd, List.map_map]
      rfl
    · have h4 : f.cmd.toNat = 4 := by
        rcases hcmd with h | h | h <;> rw [h] at h5 h6 ⊢
        · rfl
        · exact absurd rfl h5
        · exact absurd rfl h6
      rw [h4, if_neg (by decide)]
      exact ⟨fun hout => hout.elim hlow fun h => h.elim hhigh (not_lt.mpr hend), by rw [← hfwd]; rfl⟩
  refine ⟨b, ?_⟩
  rw [exec_backRef_fits hf hcmd hr (by rw [hlen]; exact hsrc) hin, ← hd, applied, referred, hlen, hstart]

/-- A command that applies, with its operands in the source and room in `D` (R195 to R208). -/
theorem exec_applied {i : Instr} {f : LzForm} {u : State} {ops d : List Byte} (hf : lzForm i = some f) (hr : room u f.len)
    (hops : srcBytes u (u.g2Ip + f.bytes) ops.length = ops) (hsrc : u.g2Ip + f.bytes + ops.length ≤ u.srcLen)
    (h : lzApply f ops u.bufD = some d) : ∃ b, exec i u = .next (applied f ops.length b d u) := by
  by_cases hc : 4 ≤ f.cmd.toNat
  · exact exec_backRef_applied hf hc hr hops hsrc h
  · refine ⟨u.g2Start, ?_⟩
    unfold lzApply at h
    split at h
    case h_1 h0 =>
      split at h
      · next hlen =>
        cases h
        rw [hlen] at hops hsrc ⊢
        rw [(copyAppendsLiterals i f u hf (BitVec.eq_of_toNat_eq h0) hr).1 hsrc, hops]
        rfl
      · cases h
    case h_2 h1 =>
      split at h
      · next v =>
        cases h
        have hv : u.srcByte (u.g2Ip + f.bytes) = v := srcByte_of_srcBytes hops (k := 0) rfl
        rw [(fillRepeatsAByte i f u hf (BitVec.eq_of_toNat_eq h1) hr).1 hsrc, hv]
        rfl
      · cases h
    case h_3 h2 =>
      split at h
      · next v1 v2 =>
        cases h
        have hv1 : u.srcByte (u.g2Ip + f.bytes) = v1 := srcByte_of_srcBytes hops (k := 0) rfl
        have hv2 : u.srcByte (u.g2Ip + f.bytes + 1) = v2 := srcByte_of_srcBytes hops (k := 1) rfl
        rw [(wordFillAlternates i f u hf (BitVec.eq_of_toNat_eq h2) hr).1 hsrc, hv1, hv2]
        rfl
      · cases h
    case h_4 h3 =>
      split at h
      · cases h
        exact zeroFillAppendsZeros i f u hf (BitVec.eq_of_toNat_eq h3) hr
      · cases h
    case h_5 _ h0 h1 h2 h3 => exact (hc (four_le_of_ne h0 h1 h2 h3)).elim

/-- A command that applies appends its length (R216). -/
theorem lzApply_length {f : LzForm} {ops d d' : List Byte} (h : lzApply f ops d = some d') : d'.length = d.length + f.len := by
  by_cases hc : 4 ≤ f.cmd.toNat
  · obtain ⟨b, -, -, -, ⟨-, -, rfl⟩ | ⟨-, -, rfl⟩ | ⟨-, -, -, rfl⟩⟩ := lzApply_backRef hc h <;> simp
  · unfold lzApply at h
    split at h
    case h_5 _ h0 h1 h2 h3 => exact (hc (four_le_of_ne h0 h1 h2 h3)).elim
    case h_1 =>
      split at h
      · next hlen =>
        cases h
        rw [List.length_append, hlen]
      · cases h
    all_goals
      split at h <;> cases h
      simp

theorem lzRun_length {items : List LzItem} {d out : List Byte} (h : lzRun items d = some out) : d.length ≤ out.length := by
  induction items generalizing d with
  | nil =>
    cases h
    exact le_refl _
  | cons c cs ih =>
    rw [lzRun] at h
    split at h
    · cases h
    · next f _ =>
      obtain ⟨d', hd', hrun⟩ := Option.bind_eq_some_iff.mp h
      have hlen := lzApply_length hd'
      have hrest := ih hrun
      omega

/-! ## Reading a Gen2 source -/

/-- Inside a Gen2 decode of the state `s`, with `bits` of its source from `G2_IP` on unread. -/
structure ReadsGen2 (s u : State) (bits : Bits) : Prop where
  frame : withoutGen2 u = withoutGen2 s
  status : u.st = s.st.begin
  unread : u.bitsFrom (8 * u.g2Ip) = bits
  position : 8 * u.g2Ip + bits.length = 8 * s.srcLen

/-- A step of the decode takes the bytes it has read. -/
theorem ReadsGen2.move {s u t : State} {xs rest : Bits} (h : ReadsGen2 s u (xs ++ rest)) (hframe : withoutGen2 t = withoutGen2 u) (hst : t.st = u.st)
    (hip : 8 * t.g2Ip = 8 * u.g2Ip + xs.length) : ReadsGen2 s t rest := by
  obtain ⟨hframe', hstatus, hunread, hpos⟩ := h
  obtain ⟨-, hrest, -⟩ := bitsFrom_split hunread
  refine ⟨hframe.trans hframe', hst.trans hstatus, ?_, ?_⟩
  · rw [hip, bitsFrom_congr (DecodeFrame.of_withoutGen2 hframe).inputs, hrest]
  · rw [List.length_append] at hpos
    omega

/-- The bits of one command. -/
def itemBits (c : LzItem) : Bits := encode c.head ++ bytesToBits c.ops

theorem lzForm_ctx {i : Instr} {f : LzForm} (h : lzForm i = some f) : i.ctx = .lz ∧ i.wf = true := by
  cases i <;> cases h <;> exact ⟨rfl, rfl⟩

/-- One command that applies is one pass (R194). -/
theorem item_pass {s u : State} {c : LzItem} {f : LzForm} {rest : Bits} {d : List Byte} (hp : u.phase = .lzHeader) (hf : lzForm c.head = some f)
    (h : lzApply f c.ops u.bufD = some d) (hread : ReadsGen2 s u (itemBits c ++ rest)) (hr : room u f.len) :
    ∃ b, Pass u (applied f c.ops.length b d u) ∧ ReadsGen2 s (applied f c.ops.length b d u) rest := by
  obtain ⟨hctx, hwf⟩ := lzForm_ctx hf
  obtain ⟨-, -, -, -, hbytes, -⟩ := exec_lzForm hf u
  have hunread := hread.unread
  rw [itemBits, List.append_assoc] at hunread
  obtain ⟨-, hops, hfit⟩ := bitsFrom_split hunread
  rw [← hbytes, ← Nat.mul_add] at hops
  obtain ⟨hsrc, hfit'⟩ := srcBytes_of_bits hops
  have hlen : u.g2Ip + f.bytes + c.ops.length ≤ u.srcLen := by
    rcases hfit' with h0 | hle
    · rcases hfit with hnil | hle
      · have := congrArg List.length hnil
        rw [List.length_nil] at this
        have hpos := (exec_lzForm hf u).2.2.2.1
        omega
      · rw [h0, List.length_nil]
        omega
    · exact hle
  obtain ⟨b, hexec⟩ := exec_applied hf hr hsrc hlen h
  refine ⟨b, pass_element (by rw [fetchCtx, hp, hctx]) hwf (by rw [hctx]; exact hunread) hexec, hread.move rfl rfl ?_⟩
  show 8 * (u.g2Ip + f.bytes + c.ops.length) = _
  rw [itemBits, List.length_append, bytesToBits_length]
  omega

/-- What the commands of a source leave alone of the Gen2 unit: the block's registers, `PAL`, and the phase. -/
structure SameBlock (u v : State) : Prop where
  phase : v.phase = u.phase
  pfx : v.g2Pfx = u.g2Pfx
  width : v.g2Pw = u.g2Pw
  height : v.g2Ph = u.g2Ph
  palette : v.pal = u.pal

theorem SameBlock.trans {u v w : State} (h : SameBlock u v) (h' : SameBlock v w) : SameBlock u w :=
  ⟨h'.phase.trans h.phase, h'.pfx.trans h.pfx, h'.width.trans h.width, h'.height.trans h.height, h'.palette.trans h.palette⟩

/-- The commands of a source that all apply are run one after the other (R194). -/
theorem items_passes {s : State} {out : List Byte} (hcap : ∀ c, s.params.dCap = some c → out.length ≤ c) (rest : Bits) (items : List LzItem)
    {u : State} (hp : u.phase = .lzHeader) (hrun : lzRun items u.bufD = some out) (hread : ReadsGen2 s u (items.flatMap itemBits ++ rest)) :
    ∃ v, Passes u v ∧ ReadsGen2 s v rest ∧ v.bufD = out ∧ SameBlock u v := by
  induction items generalizing u with
  | nil => exact ⟨u, .refl, hread, Option.some.inj hrun, rfl, rfl, rfl, rfl, rfl⟩
  | cons c cs ih =>
    rw [lzRun] at hrun
    split at hrun
    · cases hrun
    · next f hf =>
      obtain ⟨d, hd, hrun'⟩ := Option.bind_eq_some_iff.mp hrun
      have hparams : u.params = s.params := (congrArg State.params hread.frame :)
      have hr : room u f.len := fun k hk => by
        have hlen := lzApply_length hd
        have hle := lzRun_length hrun'
        have := hcap k (hparams ▸ hk)
        omega
      rw [List.flatMap_cons, List.append_assoc] at hread
      obtain ⟨b, hpass, hread'⟩ := item_pass hp hf hd hread hr
      obtain ⟨v, hpasses, hreadv, hout, hsame⟩ := ih (u := applied f c.ops.length b d u) hp hrun' hread'
      exact ⟨v, .head hpass hpasses, hreadv, hout, .trans (v := applied f c.ops.length b d u) ⟨rfl, rfl, rfl, rfl, rfl⟩ hsame⟩

/-! ## The block (R190, R191) -/

/-- After the block, or where there is none: the commands begin, and the layout will see what the block said. -/
structure BlockTaken (s u : State) (b : Option SizePalette) : Prop where
  phase : u.phase = .lzHeader
  output : u.bufD = []
  palette : u.pal = (b.map SizePalette.pal).getD s.pal
  pfx : u.g2Pfx = if b.isSome then 1 else 0
  size : ∀ p, b = some p → dimValue s.lenient p.w = some u.g2Pw.toNat ∧ dimValue s.lenient p.h = some u.g2Ph.toNat

theorem reads_g2Begin {s : State} {bits : Bits} (h : s.bitsFrom 0 = bits) : ReadsGen2 s (g2Begin s) bits where
  frame := withoutGen2_g2Begin s
  status := rfl
  unread := (bitsFrom_congr (DecodeFrame.of_withoutGen2 (withoutGen2_g2Begin s)).inputs 0).trans h
  position := by
    rw [← h, bitsFrom_length]
    exact Nat.zero_add _

/-- A source that begins with a command has no block: its first byte is not `0xFF` (R114, R190). -/
theorem fetch_pfx_of_command {s : State} {i : Instr} {f : LzForm} {rest : Bits} (hf : lzForm i = some f) (h : s.bitsFrom 0 = encode i ++ rest) :
    fetch .pfx s = .error .notPrefix := by
  refine fetch_pfx_notPrefix.mpr (or_iff_not_imp_left.mpr fun hne hff => ?_)
  have hdec := decodeLz_lzForm hf rest
  have htake := takeNum_byte s 0
  rw [Nat.mul_zero, if_pos (Nat.pos_of_ne_zero hne), hff] at htake
  rw [← h, decodeLz, htake] at hdec
  cases hdec
  cases hf

/-- The pass over the block of a source, or over its absence (R190, R191). -/
theorem block_pass {s : State} {b : Option SizePalette} {rest : Bits} (hread : ReadsGen2 s (g2Begin s) (blockBits b ++ rest))
    (hsize : ∀ p, b = some p → ∃ w h, dimValue s.lenient p.w = some w ∧ dimValue s.lenient p.h = some h)
    (hcmd : b = none → ∃ i f tail, lzForm i = some f ∧ rest = encode i ++ tail) :
    ∃ u, Pass (g2Begin s) u ∧ ReadsGen2 s u rest ∧ BlockTaken s u b := by
  cases b with
  | none =>
    obtain ⟨i, f, tail, hf, rfl⟩ := hcmd rfl
    have hfetch := fetch_pfx_of_command (s := g2Begin s) hf hread.unread
    refine ⟨{ g2Begin s with g2Pfx := 0, g2Ip := 0, phase := .lzHeader }, ⟨phase_ne_idle_of_fetchCtx (c := .pfx) rfl, step_of_fetch_error rfl hfetch⟩,
      hread.move (xs := []) rfl rfl rfl, rfl, rfl, rfl, rfl, fun p hp => nomatch hp⟩
  | some p =>
    obtain ⟨w, h, hw, hh⟩ := hsize p rfl
    have hexec := (prefixLoadsThePalette p.w p.h p.pal.e0 p.pal.e1 p.pal.e2 p.pal.e3 (g2Begin s)).1 w h hw hh
    refine ⟨_, pass_element (i := .g2Prefix p.w p.h p.pal.e0 p.pal.e1 p.pal.e2 p.pal.e3) rfl rfl hread.unread hexec, hread.move rfl rfl rfl, rfl, rfl, rfl, rfl, fun p' hp' => ?_⟩
    cases hp'
    have hw' : (BitVec.ofNat 6 w).toNat = w := (dimension_of_some hw).2
    have hh' : (BitVec.ofNat 6 h).toNat = h := (dimension_of_some hh).2
    refine ⟨hw.trans (congrArg some hw'.symm), hh.trans (congrArg some hh'.symm)⟩

/-! ## The layout and the end (R212 to R215) -/

/-- The declared size of a source is the one that `ChooseDims()` finds (R212). -/
theorem chooseDims_declared {s v : State} {b : Option SizePalette} {w h : Nat} (hcfg : v.cfg = s.cfg) (hparams : v.params = s.params)
    (hpfx : v.g2Pfx = if b.isSome then 1 else 0)
    (hsize : ∀ p, b = some p → dimValue s.lenient p.w = some v.g2Pw.toNat ∧ dimValue s.lenient p.h = some v.g2Ph.toNat)
    (hd : declaredSize s b v.bufD.length = some (w, h)) : chooseDims v = .ok (w, h) := by
  have hovr : v.ovrEn = s.ovrEn ∧ v.ovrW = s.ovrW ∧ v.ovrH = s.ovrH := by
    unfold State.ovrEn State.ovrW State.ovrH
    rw [hcfg]
    exact ⟨rfl, rfl, rfl⟩
  obtain ⟨hen, how, hoh⟩ := hovr
  unfold declaredSize at hd
  cases b with
  | none =>
    dsimp only at hd
    cases ho : s.ovrEn with
    | true =>
      rw [ho, if_pos rfl] at hd
      cases hd
      rw [chooseDims_override (hen.trans ho), how, hoh]
    | false =>
      rw [ho, if_neg (by decide)] at hd
      rw [chooseDims_inferred (hen.trans ho) hpfx, hparams]
      split at hd
      · cases hd
      · rw [if_neg (by omega), ← Option.some.inj hd]
  | some p =>
    obtain ⟨hw, hh⟩ := hsize p rfl
    dsimp only at hd
    rw [hw, hh] at hd
    dsimp only [Option.map_some] at hd
    cases ho : s.ovrEn with
    | true =>
      rw [ho, if_pos rfl] at hd
      cases hd
      rw [chooseDims_override (hen.trans ho), how, hoh]
    | false =>
      rw [ho, if_neg (by decide)] at hd
      cases hd
      exact chooseDims_block (hen.trans ho) hpfx

/-- A block whose size is declared has two dimensions that the policy accepts (R190). -/
theorem declaredSize_block {s : State} {b : Option SizePalette} {n : Nat} {wh : Nat × Nat} (hd : declaredSize s b n = some wh) (p : SizePalette)
    (hb : b = some p) : ∃ w h, dimValue s.lenient p.w = some w ∧ dimValue s.lenient p.h = some h := by
  subst hb
  unfold declaredSize at hd
  cases hw : dimValue s.lenient p.w with
  | none => simp [hw] at hd
  | some w =>
    cases hh : dimValue s.lenient p.h with
    | none => simp [hw, hh] at hd
    | some h => exact ⟨w, h, rfl, rfl⟩

/-- A pixel of a plane of the output (R214). -/
theorem planeBit_g2Plane {s : State} (p : Nat) {x y : Nat} (hx : x < 8 * s.g2Tw) (hy : y < 8 * s.g2Th) :
    planeBit (g2Plane p s) (s.g2Th * 8) x y = outputBit s.bufD p s.g2Th x y := by
  have hk : x / 8 * (s.g2Th * 8) + y < s.g2Tw * s.g2Th * 8 := by
    rw [Nat.mul_assoc]
    exact byteIndex_lt (by omega) (by omega)
  unfold planeBit g2Plane outputBit
  rw [List.getD_eq_getElem?_getD, List.getElem?_map, List.getElem?_range hk]
  rfl

/-- The output handed to the TileAssembler (R212, R215). -/
def laidOut (v : State) (w h : Nat) : State := { v with g2Tw := w, g2Th := h, dlW := w, dlH := h }

theorem planeBit_laidOut (p : Nat) {v : State} {w h x y : Nat} (hx : x < 8 * w) (hy : y < 8 * h) :
    planeBit (g2Plane p (laidOut v w h)) (h * 8) x y = outputBit v.bufD p h x y :=
  planeBit_g2Plane (s := laidOut v w h) p hx hy

/-- The pixels of the output (R214, R236). -/
theorem laidOut_pixel {v : State} {w h x y : Nat} (hx : x < 8 * w) (hy : y < 8 * h) :
    BitVec.ofBool (planeBit (g2Plane 1 (laidOut v w h)) (h * 8) x y) ++ BitVec.ofBool (planeBit (g2Plane 0 (laidOut v w h)) (h * 8) x y) =
      gen2Index v.bufD h x y := by
  rw [planeBit_laidOut 1 hx hy, planeBit_laidOut 0 hx hy, gen2Index]

/-- Placement and assembly leave the Gen2 unit and `PAL` alone (R230 to R240). -/
theorem shown_gen2 (gen1 : Bool) (d0 d1 : List Byte) (s : State) :
    (shown gen1 d0 d1 s).bufD = s.bufD ∧ (shown gen1 d0 d1 s).g2Ip = s.g2Ip ∧ (shown gen1 d0 d1 s).g2Tw = s.g2Tw ∧
      (shown gen1 d0 d1 s).g2Th = s.g2Th ∧ (shown gen1 d0 d1 s).g2Pfx = s.g2Pfx ∧ (shown gen1 d0 d1 s).pal = s.pal := by
  simp only [shown, assemble, placed, and_self]

/-- The output has the size of its layout and fits: it is shown (R213 to R215). -/
theorem g2Finish_fits {v : State} {w h : Nat} (hd : chooseDims v = .ok (w, h)) (hle : w * h * 16 ≤ v.bufD.length)
    (hsize : v.bufD.length = w * h * 16 ∨ v.lenient = true) (hw : w ≤ (physicalSize false (laidOut v w h) w h).1)
    (hh : h ≤ (physicalSize false (laidOut v w h) w h).2) :
    g2Finish v = .ok (shown false (g2Plane 0 (laidOut v w h)) (g2Plane 1 (laidOut v w h)) (laidOut v w h)) := by
  have hcheck : checkSize { v with g2Tw := w, g2Th := h } = .ok { v with g2Tw := w, g2Th := h } := by
    rw [checkSize_eq]
    refine (if_neg (not_lt.mpr hle)).trans (if_neg ?_)
    rintro ⟨hlt, hl⟩
    rcases hsize with heq | hlen
    · exact absurd hlt (by rw [heq]; exact Nat.lt_irrefl _)
    · exact absurd (hl.symm.trans hlen) (by decide)
  rw [g2Finish, hd]
  dsimp only
  rw [hcheck]
  exact finish_fits (s := laidOut v w h) hw hh

/-- A source has been read up to and with its terminator: what is left is the layout (R193). -/
structure SourceRead (s z : State) (b : Option SizePalette) (out : List Byte) (rest : Bits) : Prop where
  reads : ReadsGen2 s z rest
  phase : z.phase = .g2Layout
  output : z.bufD = out
  palette : z.pal = (b.map SizePalette.pal).getD s.pal
  pfx : z.g2Pfx = if b.isSome then 1 else 0
  size : ∀ p, b = some p → dimValue s.lenient p.w = some z.g2Pw.toNat ∧ dimValue s.lenient p.h = some z.g2Ph.toNat

/-- A source whose commands put something out begins, without a block, with a command. -/
theorem items_begin {items : List LzItem} {out : List Byte} (hrun : lzRun items [] = some out) (hpos : 0 < out.length) (rest : Bits) :
    ∃ i f tail, lzForm i = some f ∧ items.flatMap itemBits ++ rest = encode i ++ tail := by
  cases items with
  | nil =>
    cases hrun
    exact absurd hpos (Nat.lt_irrefl 0)
  | cons c cs =>
    rw [lzRun] at hrun
    split at hrun
    · cases hrun
    · next f hf =>
      exact ⟨c.head, f, _, hf, by rw [List.flatMap_cons, itemBits, List.append_assoc, List.append_assoc]⟩

/-- The passes of a whole source up to its layout (R193). -/
theorem gen2_passes {s : State} {g : Gen2Stream} {rest : Bits} {out : List Byte} {wh : Nat × Nat} (hbits : s.bitsFrom 0 = g.bits ++ rest)
    (hrun : lzRun g.items [] = some out) (hcap : ∀ c, s.params.dCap = some c → out.length ≤ c)
    (hdecl : declaredSize s g.block out.length = some wh) (hpos : 0 < out.length) :
    ∃ z, Passes (g2Begin s) z ∧ SourceRead s z g.block out rest := by
  have hread : ReadsGen2 s (g2Begin s) (blockBits g.block ++ (g.items.flatMap itemBits ++ (encode .lzEnd ++ rest))) :=
    reads_g2Begin (by rw [hbits, Gen2Stream.bits]; simp only [List.append_assoc]; rfl)
  obtain ⟨u, hpass0, hread0, hphase, houtput, hpal, hpfx, hdims⟩ :=
    block_pass hread (declaredSize_block hdecl) fun _ => items_begin hrun hpos _
  obtain ⟨v, hpasses, hreadv, hout, hvphase, hvpfx, hvw, hvh, hvpal⟩ :=
    items_passes hcap _ g.items hphase (by rw [houtput]; exact hrun) hread0
  have hpassEnd : Pass v { v with g2Ip := v.g2Ip + 1, phase := .g2Layout } :=
    pass_element (i := .lzEnd) (by rw [fetchCtx, hvphase, hphase]; rfl) rfl hreadv.unread rfl
  refine ⟨_, .trans (.head hpass0 hpasses) (.single hpassEnd), hreadv.move rfl rfl (Nat.mul_succ 8 _), rfl, hout, hvpal.trans hpal,
    hvpfx.trans hpfx, fun p hp => ?_⟩
  show _ = some v.g2Pw.toNat ∧ _ = some v.g2Ph.toNat
  rw [hvw, hvh]
  exact hdims p hp

/-- Settles O60: the passes of the source give the output, and the end of the decode lays it out and shows it. -/
theorem gen2StreamIsDecoded : Obligations.Gen2StreamIsDecoded := by
  intro s g rest out w h hacc hbits hrun hcap hdecl hpos hle hsize hfitw hfith
  obtain ⟨z, hpasses, hread, hphase, rfl, hpal, hpfx, hdims⟩ := gen2_passes hbits hrun hcap hdecl hpos
  have hcfg : z.cfg = s.cfg := (congrArg State.cfg hread.frame :)
  have hparams : z.params = s.params := (congrArg State.params hread.frame :)
  have hlenient : z.lenient = s.lenient := congrArg (fun c : BitVec 16 => c.getLsbD 0) hcfg
  have hphys := physicalSize_congr (s := s) (t := laidOut z w h) hcfg false w h
  have hfitw' : w ≤ (physicalSize false (laidOut z w h) w h).1 := by
    rw [hphys]
    exact hfitw
  have hfith' : h ≤ (physicalSize false (laidOut z w h) w h).2 := by
    rw [hphys]
    exact hfith
  have hstep : step z = .next (shown false (g2Plane 0 (laidOut z w h)) (g2Plane 1 (laidOut z w h)) (laidOut z w h)) := by
    rw [step_g2Layout hphase, g2Finish_fits (chooseDims_declared hcfg hparams hpfx hdims hdecl) hle (by rw [hlenient]; exact hsize) hfitw' hfith',
      settle_ok]
  obtain ⟨hD, hip, htw, hth, hsp, hspal⟩ := shown_gen2 false (g2Plane 0 (laidOut z w h)) (g2Plane 1 (laidOut z w h)) (laidOut z w h)
  have hshows := shown_shows (s := laidOut z w h) (g2Plane 0 (laidOut z w h)) (g2Plane 1 (laidOut z w h)) hfitw' hfith'
  refine ⟨_, ?_, hD, ?_, htw, hth, hsp.trans hpfx, hspal.trans hpal, shows_congr hshows ?_ hcfg fun x y hx hy => laidOut_pixel hx hy⟩
  · rw [exec_g2Decode hacc]
    exact decodeLoop_of_passes (hpasses.tail ⟨by rw [hphase]; decide, hstep⟩) rfl (passesLeft_g2Begin s)
  · have hlen := congrArg List.length hbits
    have hposition := hread.position
    have hip' : _ = z.g2Ip := hip
    rw [bitsFrom_length, List.length_append] at hlen
    omega
  · show { z.st with done := true } = _
    rw [hread.status]
    rfl

end Sys2Proof.Machine

/-! PROOFS. A decode is a function of its inputs (70_reset_and_hazards.md R303): what a decode does not read can be exchanged before it or
after it, with the same outcome. -/

namespace Sys2Proof.Machine

/-! ## Exchanging what a decode does not read -/

/-- The state `s` with the source memory, the writer, the host registers and the Gen2 unit of `o`: what a Gen1 decode does not read,
but for the source bytes. -/
def graft1 (o s : State) : State :=
  { s with
    src := o.src, srcDraw := o.srcDraw, wrAcc := o.wrAcc, wrCnt := o.wrCnt, snk := o.snk
    cmd := o.cmd, arg0 := o.arg0, arg1 := o.arg1, res := o.res, issued := o.issued, drawn := o.drawn
    g2Ip := o.g2Ip, bufD := o.bufD, g2Cmd := o.g2Cmd, g2Len := o.g2Len, g2Start := o.g2Start, g2Long := o.g2Long, g2Pfx := o.g2Pfx
    g2Pw := o.g2Pw, g2Ph := o.g2Ph, g2Tw := o.g2Tw, g2Th := o.g2Th }

/-- The state `s` with the source memory, the writer, the host registers, the reader and the Gen1 unit of `o`: what a Gen2 decode does
not read, but for the source bytes. -/
def graft2 (o s : State) : State :=
  { s with
    src := o.src, srcDraw := o.srcDraw, wrAcc := o.wrAcc, wrCnt := o.wrCnt, snk := o.snk
    cmd := o.cmd, arg0 := o.arg0, arg1 := o.arg1, res := o.res, issued := o.issued, drawn := o.drawn
    rdByte := o.rdByte, rdBit := o.rdBit, g1Tw := o.g1Tw, g1Th := o.g1Th, g1Primary := o.g1Primary, g1Mode := o.g1Mode
    g1State := o.g1State, g1Emit := o.g1Emit, g1Total := o.g1Total, g1Cur := o.g1Cur, ds := o.ds, bufB := o.bufB, bufC := o.bufC }

/-- The source of `o` has the bytes of the source of `s`. -/
def Agrees (o s : State) : Prop := ∀ a, a < s.srcLen → o.srcByte a = s.srcByte a

theorem bitsFrom_agree {s t : State} (hlen : t.srcLen = s.srcLen) (h : Agrees t s) (p : Nat) : t.bitsFrom p = s.bitsFrom p := by
  rw [State.bitsFrom, State.bitsFrom, hlen]
  refine List.ext_getElem? fun i => ?_
  by_cases hi : i < 8 * s.srcLen - p
  · rw [srcBits_get _ _ _ _ hi, srcBits_get _ _ _ _ hi, State.srcBit, State.srcBit, h _ (by omega)]
  · rw [List.getElem?_eq_none (by rw [srcBits_length]; omega), List.getElem?_eq_none (by rw [srcBits_length]; omega)]

theorem bitsFrom_graft1 {o s : State} (h : Agrees o s) (p : Nat) : (graft1 o s).bitsFrom p = s.bitsFrom p :=
  bitsFrom_agree (s := s) (t := graft1 o s) rfl h p

theorem bitsFrom_graft2 {o s : State} (h : Agrees o s) (p : Nat) : (graft2 o s).bitsFrom p = s.bitsFrom p :=
  bitsFrom_agree (s := s) (t := graft2 o s) rfl h p

/-- The agreement is on what no operation changes. -/
theorem Agrees.of_inputs {o s t : State} (h : Agrees o s) (hin : SameInputs s t) : Agrees o t := by
  intro a ha
  have hlen : t.srcLen = s.srcLen := hin.2.2.1
  rw [h a (hlen ▸ ha), srcByte_congr hin]

/-! ## The loop -/

/-- Where every step settles the same operation with and without the exchange `g`, so does the loop. -/
theorem decodeLoop_blind {g : State → State} {P : State → Prop} (hphase : ∀ u, (g u).phase = u.phase)
    (hafter : ∀ u : State, (g u).stop (.refuse .afterFault) = g (u.stop (.refuse .afterFault)))
    (hkept : ∀ u v, u.phase ≠ .idle → P u → step u = .next v → P v)
    (hstep : ∀ u, u.phase ≠ .idle → P u → ∃ r, step u = settle u r ∧ step (g u) = settle (g u) (r.map g))
    {n : Nat} {u t : State} (hP : P u) (h : decodeLoop n u = .next t) :
    ∃ t', decodeLoop n (g u) = .next t' ∧ (t' = g t ∨ ∃ v e, t = v.stop e ∧ t' = (g v).stop e) := by
  induction n generalizing u with
  | zero =>
    unfold decodeLoop at h
    split at h
    · next hp =>
      cases h
      exact ⟨g t, decodeLoop_idle 0 ((hphase t).trans hp), .inl rfl⟩
    · cases h
  | succ n ih =>
    by_cases hp : u.phase = .idle
    · rw [decodeLoop_idle _ hp] at h
      cases h
      exact ⟨g t, decodeLoop_idle _ ((hphase t).trans hp), .inl rfl⟩
    · obtain ⟨r, hu, hg⟩ := hstep u hp hP
      have hp' : (g u).phase ≠ .idle := fun hi => hp ((hphase u).symm.trans hi)
      cases r with
      | ok v =>
        rw [decodeLoop_step n hp hu] at h
        rw [decodeLoop_step n hp' hg]
        exact ih (hkept u v hp hP hu) h
      | error e =>
        rw [decodeLoop_step n hp hu] at h
        rw [decodeLoop_step n hp' hg]
        by_cases he : e = .refuse .afterFault
        · subst he
          rw [hafter]
          exact ih (hkept u _ hp hP hu) h
        · rw [decodeLoop_idle n (stop_idle he)] at h
          cases h
          exact ⟨_, decodeLoop_idle n (stop_idle he), .inr ⟨u, e, rfl, rfl⟩⟩

/-- An element that stands at the cursor, or the fault of one that does not, with and without the exchange. -/
theorem step_blind_fetch {g : State → State} {u : State} {c : Ctx} (hc : fetchCtx u = some c) (hc' : fetchCtx (g u) = some c)
    (hunread : unread c (g u) = unread c u) (hlenient : (g u).lenient = u.lenient)
    (hplain : c = .pfx → { g u with g2Pfx := 0, g2Ip := 0, phase := .lzHeader } = g { u with g2Pfx := 0, g2Ip := 0, phase := .lzHeader })
    (hexec : ∀ i, i.ctx = c → ∃ f : State → Op State, (∀ v, exec i v = settle v (f v)) ∧ f (g u) = (f u).map g) :
    ∃ r, step u = settle u r ∧ step (g u) = settle (g u) (r.map g) := by
  have hfetch : fetch c (g u) = fetch c u := congrArg (decode c) hunread
  cases hf : fetch c u with
  | ok r =>
    obtain ⟨i, rest⟩ := r
    obtain ⟨f, hrun, hg⟩ := hexec i (decode_ctx hf)
    refine ⟨f u, ?_, ?_⟩
    · rw [(stepRunsTheDecodedInstruction u).1 c i rest hc hf, hrun]
    · rw [(stepRunsTheDecodedInstruction (g u)).1 c i rest hc' (hfetch.trans hf), hrun, hg]
  | error e =>
    rw [step_of_fetch_error hc hf, step_of_fetch_error hc' (hfetch.trans hf)]
    cases e with
    | notPrefix =>
      obtain rfl := decode_notPrefix hf
      exact ⟨.ok { u with g2Pfx := 0, g2Ip := 0, phase := .lzHeader }, rfl, congrArg Host.Outcome.next (hplain rfl)⟩
    | truncated =>
      cases c with
      | header =>
        have hshort : shortHeaderFault (g u) = shortHeaderFault u := by
          have hzero (w h : Nat) : zeroDimension w h (g u) = zeroDimension w h u := by rw [zeroDimension, zeroDimension, hlenient]
          simp only [shortHeaderFault, hunread, hzero]
        refine ⟨.error (.raise (shortHeaderFault u)), rfl, ?_⟩
        rw [← hshort]
        rfl
      | init | rle | data | mode | pfx | lz | addr | command => exact ⟨.error (.raise .truncatedInput), rfl, rfl⟩

/-! ## Gen1 -/

theorem finish_graft1 (gen1 : Bool) (d0 d1 : List Byte) (o u : State) :
    finish gen1 d0 d1 (graft1 o u) = (finish gen1 d0 d1 u).map (graft1 o) := by
  by_cases h : u.dlW ≤ (physicalSize gen1 u u.dlW u.dlH).1 ∧ u.dlH ≤ (physicalSize gen1 u u.dlW u.dlH).2
  · rw [finish_fits h.1 h.2, finish_fits (s := graft1 o u) h.1 h.2]
    rfl
  · have h' : (physicalSize gen1 u u.dlW u.dlH).1 < u.dlW ∨ (physicalSize gen1 u u.dlW u.dlH).2 < u.dlH := by omega
    rw [finish_misfit d0 d1 h', finish_misfit d0 d1 (s := graft1 o u) h']
    rfl

theorem postProcess_graft1 (o u : State) : postProcess (graft1 o u) = graft1 o (postProcess u) := by
  have hmode : (graft1 o u).g1Mode = u.g1Mode := rfl
  have hxor (v : State) : xorPrimary (graft1 o v) = graft1 o (xorPrimary v) := by
    have hp : (graft1 o v).g1Primary = v.g1Primary := rfl
    unfold xorPrimary
    rw [hp]
    split <;> rfl
  have hother (v : State) : deltaOther (graft1 o v) = graft1 o (deltaOther v) := by
    have hp : (graft1 o v).g1Primary = v.g1Primary := rfl
    unfold deltaOther
    rw [hp]
    split <;> rfl
  unfold postProcess
  rw [hmode]
  split
  · rfl
  · rw [hother, hxor]
  · exact hxor (deltaC (deltaB u))
  · rfl

/-- The state with the declared size of a Gen1 image handed over (R171). -/
def declared (s : State) : State := { s with dlW := s.g1Tw.toNat, dlH := s.g1Th.toNat }

theorem g1Finish_graft1 (o u : State) : g1Finish (graft1 o u) = (g1Finish u).map (graft1 o) := by
  have h := finish_graft1 true (postProcess u).bufB (postProcess u).bufC o (declared (postProcess u))
  rw [g1Finish, postProcess_graft1]
  exact h

theorem header_graft1 (w h : BitVec 4) (p : BitVec 1) (o u : State) : header w h p (graft1 o u) = (header w h p u).map (graft1 o) := by
  have hdim (n : BitVec 4) : dimension n (graft1 o u) = dimension n u := rfl
  unfold header
  rw [hdim, hdim]
  cases dimension w u with
  | error e => rfl
  | ok tw =>
    cases dimension h u with
    | error e => rfl
    | ok th => rfl

theorem runElement_graft1 (k v : Nat) (o u : State) : runElement k v (graft1 o u) = (runElement k v u).map (graft1 o) := by
  unfold runElement emitRun
  by_cases hover : (u.advance (2 * (k + 1))).g1Total < (u.advance (2 * (k + 1))).g1Emit + runLength k v
  · rw [if_pos hover, if_pos (show ((graft1 o u).advance _).g1Total < ((graft1 o u).advance _).g1Emit + _ from hover)]
    have hl : ((graft1 o u).advance (2 * (k + 1))).lenient = (u.advance (2 * (k + 1))).lenient := rfl
    rw [hl]
    split <;> rfl
  · rw [if_neg hover, if_neg (show ¬((graft1 o u).advance _).g1Total < ((graft1 o u).advance _).g1Emit + _ from hover)]
    rfl

theorem pairElement_graft1 (p : BitVec 2) (o u : State) : pairElement p (graft1 o u) = graft1 o (pairElement p u) := by
  rw [pairElement_eq, pairElement_eq]
  rfl

/-- Every Gen1 element is the same operation with and without the exchange. -/
theorem exec_graft1 {i : Instr} (hg : i.ctx.byteGranular = false) (hc : i.ctx ≠ .command) (o u : State) :
    ∃ f : State → Op State, (∀ v, exec i v = settle v (f v)) ∧ f (graft1 o u) = (f u).map (graft1 o) := by
  cases hx : i.ctx with
  | header =>
    cases i <;> cases hx
    exact ⟨_, fun _ => rfl, header_graft1 _ _ _ o u⟩
  | init =>
    cases i <;> cases hx
    · exact ⟨fun v => .ok (initState 0 v), fun _ => rfl, rfl⟩
    · exact ⟨fun v => .ok (initState 1 v), fun _ => rfl, rfl⟩
  | rle =>
    obtain ⟨k, v, hr, -⟩ := rle_is_run hx
    exact ⟨runElement k v, exec_runParts hr, runElement_graft1 k v o u⟩
  | data =>
    obtain ⟨-, ⟨p, hp⟩ | hs⟩ := data_is_pair hx
    · exact ⟨fun v => .ok (pairElement p v), hp, congrArg Except.ok (pairElement_graft1 p o u)⟩
    · exact ⟨fun v => .ok (switchElement v), hs, rfl⟩
  | mode =>
    obtain ⟨m, n, -, -, -, hm⟩ := mode_is_mode hx
    exact ⟨fun v => .ok (modeElement m n v), hm, rfl⟩
  | pfx | lz | addr => rw [hx] at hg; cases hg
  | command => exact absurd hx hc

/-- Inside a Gen1 decode an element of a Gen1 stream is read, or the post-processing runs (R150, R157). -/
theorem gen1_place {u : State} (hp : u.phase ≠ .idle) (hg : u.phase.inG2 = false) :
    u.phase = .g1Post ∨ ∃ c, fetchCtx u = some c ∧ c.byteGranular = false := by
  cases hph : u.phase with
  | idle => exact absurd hph hp
  | g1Header => exact .inr ⟨.header, by rw [fetchCtx, hph], rfl⟩
  | g1Init => exact .inr ⟨.init, by rw [fetchCtx, hph], rfl⟩
  | g1Packet =>
    by_cases hst : u.g1State = 0
    · exact .inr ⟨.rle, by rw [fetchCtx, hph]; exact if_pos hst, rfl⟩
    · exact .inr ⟨.data, by rw [fetchCtx, hph]; exact if_neg hst, rfl⟩
  | g1Mode => exact .inr ⟨.mode, by rw [fetchCtx, hph], rfl⟩
  | g1Post => exact .inl rfl
  | g2Prefix | lzHeader | lzOperand | lzCopy | g2Layout => rw [hph] at hg; cases hg

/-- A step of a Gen1 decode does not see the exchange. -/
theorem step_graft1 {o u : State} (hp : u.phase ≠ .idle) (hg : u.phase.inG2 = false) (h : Agrees o u) :
    ∃ r, step u = settle u r ∧ step (graft1 o u) = settle (graft1 o u) (r.map (graft1 o)) := by
  rcases gen1_place hp hg with hpost | ⟨c, hc, hgc⟩
  · exact ⟨g1Finish u, step_g1Post hpost, (step_g1Post (v := graft1 o u) hpost).trans (congrArg _ (g1Finish_graft1 o u))⟩
  · have hne := fetchCtx_ne_command hc
    refine step_blind_fetch (g := graft1 o) hc hc ?_ rfl (fun hpfx => ?_) fun i hi => exec_graft1 (hi ▸ hgc) (hi ▸ hne) o u
    · rw [unread_gen1 hgc hne, unread_gen1 hgc hne]
      exact bitsFrom_graft1 h _
    · rw [hpfx] at hgc
      cases hgc

/-! ## Gen2: the bytes of the source and of the output -/

theorem nextByte_graft2 {o u : State} (h : Agrees o u) :
    nextByte (graft2 o u) = (nextByte u).map fun r => (r.1, graft2 o r.2) := by
  by_cases hlt : u.g2Ip < u.srcLen
  · have hbyte : (graft2 o u).srcByte u.g2Ip = u.srcByte u.g2Ip := h _ hlt
    rw [nextByte_of_lt hlt, nextByte_of_lt (s := graft2 o u) hlt]
    show Except.ok ((graft2 o u).srcByte u.g2Ip, _) = _
    rw [hbyte]
    rfl
  · rw [nextByte_trunc (s := u) (by omega), nextByte_trunc (s := graft2 o u) (show u.srcLen ≤ u.g2Ip by omega)]
    rfl

theorem append_graft2 (v : Byte) (o u : State) : append v (graft2 o u) = (append v u).map (graft2 o) := by
  by_cases hr : room u 1
  · rw [append_room v hr, append_room (s := graft2 o u) v hr]
    rfl
  · rw [append_full v hr, append_full (s := graft2 o u) v hr]
    rfl

theorem appendAll_graft2 (vs : List Byte) (o u : State) : appendAll vs (graft2 o u) = (appendAll vs u).map (graft2 o) := by
  induction vs generalizing u with
  | nil => rfl
  | cons v vs ih =>
    rw [appendAll, appendAll, append_graft2]
    cases append v u with
    | error e => rfl
    | ok w => exact ih w

theorem copyLiterals_graft2 {o : State} (n : Nat) {u : State} (h : Agrees o u) :
    copyLiterals n (graft2 o u) = (copyLiterals n u).map (graft2 o) := by
  induction n generalizing u with
  | zero => rfl
  | succ n ih =>
    rw [copyLiterals, copyLiterals, nextByte_graft2 h]
    by_cases hlt : u.g2Ip < u.srcLen
    · rw [nextByte_of_lt hlt]
      simp only [Except.map]
      rw [append_graft2]
      by_cases hr : room u 1
      · rw [append_room (s := { u with g2Ip := u.g2Ip + 1 }) _ hr]
        exact ih (u := { u with g2Ip := u.g2Ip + 1, bufD := u.bufD ++ [u.srcByte u.g2Ip] }) h
      · rw [append_full (s := { u with g2Ip := u.g2Ip + 1 }) _ hr]
        rfl
    · rw [nextByte_trunc (by omega)]
      rfl

theorem fillBody_graft2 {o u : State} (h : Agrees o u) : fillBody (graft2 o u) = (fillBody u).map (graft2 o) := by
  rw [fillBody, fillBody, nextByte_graft2 h]
  cases nextByte u with
  | error e => rfl
  | ok r => exact appendAll_graft2 _ o r.2

theorem wfillBody_graft2 {o u : State} (h : Agrees o u) : wfillBody (graft2 o u) = (wfillBody u).map (graft2 o) := by
  rw [wfillBody, wfillBody, nextByte_graft2 h]
  by_cases hlt : u.g2Ip < u.srcLen
  · rw [nextByte_of_lt hlt]
    simp only [Except.map]
    rw [nextByte_graft2 (u := { u with g2Ip := u.g2Ip + 1 }) h]
    cases nextByte { u with g2Ip := u.g2Ip + 1 } with
    | error e => rfl
    | ok r => exact appendAll_graft2 _ o r.2
  · rw [nextByte_trunc (by omega)]
    rfl

/-! ## Gen2: back-references -/

theorem readStart_graft2 {o u : State} (h : Agrees o u) : readStart (graft2 o u) = (readStart u).map (graft2 o) := by
  rw [readStart, readStart, nextByte_graft2 h]
  by_cases hlt : u.g2Ip < u.srcLen
  · rw [nextByte_of_lt hlt]
    simp only [Except.map]
    split
    · rfl
    · rw [nextByte_graft2 (u := { u with g2Ip := u.g2Ip + 1 }) h]
      cases nextByte { u with g2Ip := u.g2Ip + 1 } <;> rfl
  · rw [nextByte_trunc (by omega)]
    rfl

theorem lzTransfer_graft2 {c : Nat} (hc : c = 4 ∨ c = 5 ∨ c = 6) (o u : State) :
    lzTransfer c (graft2 o u) = (lzTransfer c u).map (graft2 o) := by
  have hbytes : transferred c (graft2 o u) = transferred c u := by
    rcases hc with rfl | rfl | rfl <;> rfl
  by_cases hout : outside c u
  · rw [lzTransfer_outside hc hout, lzTransfer_outside (u := graft2 o u) hc hout]
    rfl
  · rw [lzTransfer_inside hc hout, lzTransfer_inside (u := graft2 o u) hc hout, hbytes]
    exact appendAll_graft2 _ o u

theorem backReference_graft2 {c : Nat} (hc : c = 4 ∨ c = 5 ∨ c = 6) {o u : State} (h : Agrees o u) :
    backReference (lzTransfer c) (graft2 o u) = (backReference (lzTransfer c) u).map (graft2 o) := by
  rw [backReference, backReference, readStart_graft2 h]
  cases readStart u with
  | error e => rfl
  | ok v => exact lzTransfer_graft2 hc o v

/-- No other command has a transfer pending. -/
theorem pendingTransfer_other {s : State} (hc : ¬(s.g2Cmd.toNat = 4 ∨ s.g2Cmd.toNat = 5 ∨ s.g2Cmd.toNat = 6)) :
    pendingTransfer s = .ok { s with phase := .lzHeader } := by
  unfold pendingTransfer
  split
  · next h => exact absurd (.inl h) hc
  · next h => exact absurd (.inr (.inl h)) hc
  · next h => exact absurd (.inr (.inr h)) hc
  · rfl

theorem pendingTransfer_graft2 (o u : State) : pendingTransfer (graft2 o u) = (pendingTransfer u).map (graft2 o) := by
  by_cases hc : u.g2Cmd.toNat = 4 ∨ u.g2Cmd.toNat = 5 ∨ u.g2Cmd.toNat = 6
  · rw [pendingTransfer_eq hc, pendingTransfer_eq (s := graft2 o u) hc]
    show (lzTransfer u.g2Cmd.toNat (graft2 o u)).map _ = _
    rw [lzTransfer_graft2 hc]
    cases lzTransfer u.g2Cmd.toNat u <;> rfl
  · rw [pendingTransfer_other hc, pendingTransfer_other (s := graft2 o u) hc]
    rfl

/-! ## Gen2: the elements -/

/-- The body of a command is the same operation with and without the exchange. -/
theorem lzBody_graft2 {c : Nat} (hc : c ≤ 6) {o u : State} (h : Agrees o u) : lzBody c (graft2 o u) = (lzBody c u).map (graft2 o) := by
  match c, hc with
  | 0, _ => exact copyLiterals_graft2 u.g2Len h
  | 1, _ => exact fillBody_graft2 h
  | 2, _ => exact wfillBody_graft2 h
  | 3, _ => exact appendAll_graft2 _ o u
  | 4, _ => exact backReference_graft2 (c := 4) (.inl rfl) h
  | 5, _ => exact backReference_graft2 (c := 5) (.inr (.inl rfl)) h
  | 6, _ => exact backReference_graft2 (c := 6) (.inr (.inr rfl)) h

theorem loadPfx_graft2 (w h : BitVec 4) (p : Palette) (o u : State) : loadPfx w h p (graft2 o u) = (loadPfx w h p u).map (graft2 o) := by
  have hdim (n : BitVec 4) : dimension n (graft2 o u) = dimension n u := rfl
  unfold loadPfx
  rw [hdim, hdim]
  cases dimension w u with
  | error e => rfl
  | ok tw =>
    cases dimension h u with
    | error e => rfl
    | ok th => rfl

theorem finish_graft2 (gen1 : Bool) (d0 d1 : List Byte) (o u : State) :
    finish gen1 d0 d1 (graft2 o u) = (finish gen1 d0 d1 u).map (graft2 o) := by
  by_cases h : u.dlW ≤ (physicalSize gen1 u u.dlW u.dlH).1 ∧ u.dlH ≤ (physicalSize gen1 u u.dlW u.dlH).2
  · rw [finish_fits h.1 h.2, finish_fits (s := graft2 o u) h.1 h.2]
    rfl
  · have h' : (physicalSize gen1 u u.dlW u.dlH).1 < u.dlW ∨ (physicalSize gen1 u u.dlW u.dlH).2 < u.dlH := by omega
    rw [finish_misfit d0 d1 h', finish_misfit d0 d1 (s := graft2 o u) h']
    rfl

theorem checkSize_graft2 (o u : State) : checkSize (graft2 o u) = (checkSize u).map (graft2 o) := by
  have hD : (graft2 o u).bufD = u.bufD ∧ (graft2 o u).g2Tw = u.g2Tw ∧ (graft2 o u).g2Th = u.g2Th ∧ (graft2 o u).lenient = u.lenient :=
    ⟨rfl, rfl, rfl, rfl⟩
  obtain ⟨hD, hw, hh, hl⟩ := hD
  rw [checkSize_eq, checkSize_eq, hD, hw, hh, hl]
  split
  · rfl
  · split <;> rfl

theorem g2Finish_graft2 (o u : State) : g2Finish (graft2 o u) = (g2Finish u).map (graft2 o) := by
  have hdims : chooseDims (graft2 o u) = chooseDims u := rfl
  rw [g2Finish, g2Finish, hdims]
  cases chooseDims u with
  | error e => rfl
  | ok wh =>
    obtain ⟨w, h⟩ := wh
    dsimp only
    have hcheck : checkSize { graft2 o u with g2Tw := w, g2Th := h } = (checkSize { u with g2Tw := w, g2Th := h }).map (graft2 o) :=
      checkSize_graft2 o { u with g2Tw := w, g2Th := h }
    rw [hcheck]
    cases checkSize { u with g2Tw := w, g2Th := h } with
    | error e => rfl
    | ok v => exact finish_graft2 false (g2Plane 0 v) (g2Plane 1 v) o { v with dlW := v.g2Tw, dlH := v.g2Th }

/-- Every Gen2 element is the same operation with and without the exchange. -/
theorem exec_graft2 {i : Instr} (hg : i.ctx.byteGranular = true) {o u : State} (h : Agrees o u) :
    ∃ f : State → Op State, (∀ v, exec i v = settle v (f v)) ∧ f (graft2 o u) = (f u).map (graft2 o) := by
  cases hx : i.ctx with
  | pfx =>
    cases i <;> cases hx
    exact ⟨_, fun _ => rfl, loadPfx_graft2 _ _ _ o u⟩
  | lz =>
    rcases lz_is_command hx with ⟨f, hf⟩ | rfl | hill
    · exact ⟨fun v => lzBody f.cmd.toNat (headed f v), fun v => (exec_lzForm hf v).1,
        lzBody_graft2 (exec_lzForm hf u).2.2.2.2.2 (u := headed f u) h⟩
    · exact ⟨fun v => .ok { v with g2Ip := v.g2Ip + 1, phase := .g2Layout }, fun _ => rfl, rfl⟩
    · exact ⟨fun _ => .error (.raise .malformedHeader), hill, rfl⟩
  | addr =>
    cases i <;> cases hx
    · exact ⟨fun v => .ok { startRel _ { v with g2Ip := v.g2Ip + 1 } with phase := .lzCopy }, fun _ => rfl, rfl⟩
    · exact ⟨fun v => .ok { startAbs _ _ { v with g2Ip := v.g2Ip + 2 } with phase := .lzCopy }, fun _ => rfl, rfl⟩
  | header | init | rle | data | mode | command => rw [hx] at hg; cases hg

theorem unread_gen2 {o u : State} {c : Ctx} (hg : c.byteGranular = true) (h : Agrees o u) : unread c (graft2 o u) = unread c u := by
  cases c with
  | pfx => exact bitsFrom_graft2 h 0
  | lz | addr => exact bitsFrom_graft2 h (8 * u.g2Ip)
  | header | init | rle | data | mode | command => cases hg

/-- Inside a Gen2 decode an element of a Gen2 source is read, or a transfer or the layout runs (R193, R194). -/
theorem gen2_place {u : State} (hg : u.phase.inG2 = true) :
    u.phase = .lzCopy ∨ u.phase = .g2Layout ∨ ∃ c : Ctx, c.byteGranular = true ∧ ∀ v : State, v.phase = u.phase → fetchCtx v = some c := by
  cases hph : u.phase with
  | g2Prefix => exact .inr (.inr ⟨.pfx, rfl, fun v hv => by rw [fetchCtx, hv]⟩)
  | lzHeader => exact .inr (.inr ⟨.lz, rfl, fun v hv => by rw [fetchCtx, hv]⟩)
  | lzOperand => exact .inr (.inr ⟨.addr, rfl, fun v hv => by rw [fetchCtx, hv]⟩)
  | lzCopy => exact .inl rfl
  | g2Layout => exact .inr (.inl rfl)
  | idle | g1Header | g1Init | g1Packet | g1Mode | g1Post => rw [hph] at hg; cases hg

/-- A step of a Gen2 decode does not see the exchange. -/
theorem step_graft2 {o u : State} (hg : u.phase.inG2 = true) (h : Agrees o u) :
    ∃ r, step u = settle u r ∧ step (graft2 o u) = settle (graft2 o u) (r.map (graft2 o)) := by
  rcases gen2_place hg with hcopy | hlayout | ⟨c, hgc, hc⟩
  · exact ⟨pendingTransfer u, step_lzCopy hcopy, (step_lzCopy (s := graft2 o u) hcopy).trans (congrArg _ (pendingTransfer_graft2 o u))⟩
  · exact ⟨g2Finish u, step_g2Layout hlayout, (step_g2Layout (s := graft2 o u) hlayout).trans (congrArg _ (g2Finish_graft2 o u))⟩
  · exact step_blind_fetch (g := graft2 o) (hc u rfl) (hc (graft2 o u) rfl) (unread_gen2 hgc h) rfl (fun _ => rfl) fun i hi => exec_graft2 (hi ▸ hgc) h

/-! ## The two decodes -/

theorem stop_st_congr {s t : State} (h : t.st.begin = s.st.begin) (e : Stop) : (t.stop e).st = (s.stop e).st := by
  have herr : t.st.err = s.st.err := (congrArg Status.err h :)
  have href : t.st.refused = s.st.refused := (congrArg Status.refused h :)
  have hkind : t.st.errKind = s.st.errKind := (congrArg Status.errKind h :)
  have hreason : t.st.refReason = s.st.refReason := (congrArg Status.refReason h :)
  have hraise (k : ErrKind) : t.st.raise k = s.st.raise k := by simp only [Status.raise, herr, href, hkind, hreason]
  have hrefuse (r : RefReason) : t.st.refuse r = s.st.refuse r := by simp only [Status.refuse, herr, href, hkind, hreason]
  rcases e with k | r
  · exact hraise k
  · cases r <;> exact hrefuse _

/-- How two decodes that see the same inputs end: in states that the exchange `g` tells apart at most, or stopped alike. -/
def EndsAlike (g : State → State) (t t' : State) : Prop := t' = g t ∨ (t'.st = t.st ∧ t.st.done = false)

theorem decode_blind {g start : State → State} {P : State → Prop} {s s' t t' : State} (hphase : ∀ u, (g u).phase = u.phase)
    (hst : ∀ u, (g u).st = u.st) (hafter : ∀ u : State, (g u).stop (.refuse .afterFault) = g (u.stop (.refuse .afterFault)))
    (hkept : ∀ u v, u.phase ≠ .idle → P u → step u = .next v → P v)
    (hstep : ∀ u, u.phase ≠ .idle → P u → ∃ r, step u = settle u r ∧ step (g u) = settle (g u) (r.map g))
    (hP : P (start s)) (hstart : start s' = g (start s)) (hlen : s'.srcLen = s.srcLen) (h : runDecode start s = .next t)
    (h' : runDecode start s' = .next t') : EndsAlike g t t' := by
  obtain ⟨t'', ht'', hout⟩ := decodeLoop_blind hphase hafter hkept hstep hP h
  rw [runDecode, hstart, loopBound, hlen] at h'
  obtain rfl : t'' = t' := Host.Outcome.next.inj (ht''.symm.trans h')
  rcases hout with rfl | ⟨v, e, rfl, rfl⟩
  · exact .inl rfl
  · exact .inr ⟨stop_st_congr (by rw [hst]) e, stop_not_done e v⟩

/-- What a step of a decode keeps: the inputs, and the unit that decodes. -/
theorem step_inputs {u v : State} (hp : u.phase ≠ .idle) (h : step u = .next v) : SameInputs u v := by
  obtain ⟨w, hw, ho⟩ := step_moves hp
  obtain rfl : w = v := Host.Outcome.next.inj (hw.symm.trans h)
  rcases ho with ⟨e, -, rfl⟩ | hm
  · exact stop_inputs e u
  · exact hm.frame.inputs

theorem step_inG2 {u v : State} (hp : u.phase ≠ .idle) (h : step u = .next v) :
    (u.phase.inG2 = false → v.phase.inG2 = false) ∧ (u.phase.inG2 = true → v.phase = .idle ∨ v.phase.inG2 = true) := by
  obtain ⟨w, hw, ho⟩ := step_moves hp
  obtain rfl : w = v := Host.Outcome.next.inj (hw.symm.trans h)
  rcases ho with ⟨e, he, rfl⟩ | hm
  · exact ⟨fun _ => inG2_of_phase (stop_idle he), fun _ => .inl (stop_idle he)⟩
  · exact ⟨fun hg => (hm.gen1_frame hg).2, fun hg => (hm.gen2_frame hg).2.1.symm⟩

/-- Two states with the same inputs of a decode, without a fault or a refusal (R303). -/
structure SameDecodeInputs (s s' : State) : Prop where
  status : s'.st.begin = s.st.begin
  length : s'.srcLen = s.srcLen
  bytes : Agrees s' s
  cfg : s'.cfg = s.cfg
  pal : s'.pal = s.pal
  params : s'.params = s.params

theorem g1Begin_graft1 {s s' : State} (h : SameDecodeInputs s s') : g1Begin s' = graft1 s' (g1Begin s) := by
  obtain ⟨hst, hlen, -, hcfg, hpal, hparams⟩ := h
  simp only [g1Begin, clearAssembler, graft1, ← hst, ← hlen, ← hcfg, ← hpal, ← hparams]

theorem g2Begin_graft2 {s s' : State} (h : SameDecodeInputs s s') : g2Begin s' = graft2 s' (g2Begin s) := by
  obtain ⟨hst, hlen, -, hcfg, hpal, hparams⟩ := h
  simp only [g2Begin, clearAssembler, graft2, ← hst, ← hlen, ← hcfg, ← hpal, ← hparams]

theorem g1Decode_alike {s s' t t' : State} (h : SameDecodeInputs s s') (ht : runDecode g1Begin s = .next t)
    (ht' : runDecode g1Begin s' = .next t') : EndsAlike (graft1 s') t t' :=
  decode_blind (P := fun u => Agrees s' u ∧ u.phase.inG2 = false) (fun _ => rfl) (fun _ => rfl) (fun _ => rfl)
    (fun _ _ hp hu hv => ⟨hu.1.of_inputs (step_inputs hp hv), (step_inG2 hp hv).1 hu.2⟩) (fun _ hp hu => step_graft1 hp hu.2 hu.1)
    ⟨h.bytes, rfl⟩ (g1Begin_graft1 h) h.length ht ht'

theorem g2Decode_alike {s s' t t' : State} (h : SameDecodeInputs s s') (ht : runDecode g2Begin s = .next t)
    (ht' : runDecode g2Begin s' = .next t') : EndsAlike (graft2 s') t t' :=
  decode_blind (P := fun u => Agrees s' u ∧ (u.phase = .idle ∨ u.phase.inG2 = true)) (fun _ => rfl) (fun _ => rfl) (fun _ => rfl)
    (fun _ _ hp hu hv => ⟨hu.1.of_inputs (step_inputs hp hv), (step_inG2 hp hv).2 (hu.2.resolve_left hp)⟩)
    (fun _ hp hu => step_graft2 (hu.2.resolve_left hp) hu.1)
    ⟨h.bytes, .inr rfl⟩ (g2Begin_graft2 h) h.length ht ht'

theorem prologue_decode_congr {c : BitVec 4} {s s' : State} (hst : s.st.stuck = false) (hst' : s'.st.stuck = false) (h : SameDecodeInputs s s')
    (hc : c = 0x8 ∨ c = 0x9) : prologue c s' = prologue c s := by
  have hlong : sourceTooLong s' = sourceTooLong s := by rw [sourceTooLong, sourceTooLong, h.params, h.length]
  have hovr : badOverride s' = badOverride s := by
    simp only [badOverride, State.ovrEn, State.ovrW, State.ovrH, h.cfg]
  rcases hc with rfl | rfl <;> simp only [prologue, hst, hst', hlong, hovr] <;> rfl

/-- A decode command with the same inputs: refused alike, or the two decodes end alike (R253). -/
theorem command_alike {c : BitVec 4} {start g : State → State} {s s' t t' : State} (hst : s.st.stuck = false) (hst' : s'.st.stuck = false)
    (hin : SameDecodeInputs s s') (hc : c = 0x8 ∨ c = 0x9)
    (hrun : ∀ t t', runDecode start s = .next t → runDecode start s' = .next t' → EndsAlike g t t')
    (h : command c (runDecode start) s = .next t) (h' : command c (runDecode start) s' = .next t') : EndsAlike g t t' := by
  have hpro := prologue_decode_congr hst hst' hin hc
  rcases command_cases h with ⟨r, hr, rfl⟩ | ⟨hnone, hbody⟩
  · rcases command_cases h' with ⟨r', hr', rfl⟩ | ⟨hnone', -⟩
    · obtain rfl : r' = r := Option.some.inj (hr'.symm.trans (hpro.trans hr))
      exact .inr ⟨stop_st_congr hin.status _, stop_not_done _ s⟩
    · cases hnone'.symm.trans (hpro.trans hr)
  · rcases command_cases h' with ⟨r', hr', -⟩ | ⟨-, hbody'⟩
    · cases hr'.symm.trans (hpro.trans hnone)
    · exact hrun t t' hbody hbody'

/-- Settles O23: the second decode is the first with the other state's unread registers exchanged in, and those are not its results. -/
theorem decodeDependsOnlyOnItsInputs : Obligations.DecodeDependsOnlyOnItsInputs := by
  intro s s' t t' hst hst' hkind hreason hlen hbytes hcfg hpal hparams
  have hstatus : s'.st.begin = s.st.begin := by
    obtain ⟨herr, href⟩ := Bool.or_eq_false_iff.mp hst
    obtain ⟨herr', href'⟩ := Bool.or_eq_false_iff.mp hst'
    simp only [Status.begin, herr, href, herr', href', hkind, hreason]
  have hin : SameDecodeInputs s s' := ⟨hstatus, hlen, hbytes, hcfg, hpal, hparams⟩
  refine ⟨fun h h' => ?_, fun h h' => ?_⟩
  · rcases command_alike hst hst' hin (.inl rfl) (fun _ _ => g1Decode_alike hin) h h' with rfl | ⟨heq, hdone⟩
    · exact ⟨rfl, fun _ => ⟨rfl, rfl, rfl, rfl, rfl, rfl, rfl, rfl, rfl, rfl, rfl, rfl, rfl, rfl, rfl, rfl, rfl, rfl⟩⟩
    · exact ⟨heq, fun hd => absurd (hdone.symm.trans hd) (by decide)⟩
  · rcases command_alike hst hst' hin (.inr rfl) (fun _ _ => g2Decode_alike hin) h h' with rfl | ⟨heq, hdone⟩
    · exact ⟨rfl, fun _ => ⟨rfl, rfl, rfl, rfl, rfl, rfl, rfl, rfl, rfl, rfl, rfl, rfl, rfl, rfl, rfl, rfl⟩⟩
    · exact ⟨heq, fun hd => absurd (hdone.symm.trans hd) (by decide)⟩

end Sys2Proof.Machine
